-- ==== Sys2Proof/Word.lean ====
section
/-! DEFINITION. The number system of 00_scope.md R6 and R9 as an argument: a scalar type `S` with its operations (`Arith S` and the
record `Num S`, together the record NUM), and the values that a host cell or an operand can hold.
-/

namespace Sys2Proof

/-- 00_scope.md R9: the primitives of NUM that have a sign of their own: `+ − · /`, negation, `min`, `max`, the order, `ofInt`
(the cast of an integer), and the constants 0, 1, 2 and the rational literals of R7. No law is assumed of any of them: the result
depends on the operands alone. The order is two-valued: a definition that compares takes `DecidableLT S` or `DecidableLE S` too. -/
class abbrev Arith (S : Type) :=
  Zero S, One S, OfNat S 2, RatCast S, IntCast S, Add S, Sub S, Mul S, Div S, Neg S, Min S, Max S, LT S, LE S

/-- 00_scope.md R9: the other primitives of NUM. No law is assumed of any of them. -/
structure Num (S : Type) where
  floor : S → Int
  rnd : S → Int
  sin : S → S
  cos : S → S
  tan : S → S
  tanh : S → S
  exp : S → S
  pow : S → S → S
  pi : S
  twoPi : S
  /-- whether a scalar is finite (R10): a finite format may have scalars that are not, the exact reals have none -/
  isFinite : S → Bool

/-- A numeric literal of 00_scope.md R7 as a scalar. -/
abbrev lit {S : Type} [RatCast S] (q : ℚ) : S := (q : S)

/-- 00_scope.md R9 `ofInt`. -/
abbrev ofInt {S : Type} [IntCast S] (k : Int) : S := (k : S)

/-- The scalar type at which the machine behind the host's interface runs, where a state must be plain data: the exact
rationals. DESIGN CHOICE, unsafe: notes/assumptions/1.md. -/
abbrev Scalar := ℚ

/-- What one host cell, or the operand of CREATE, can hold: a scalar, which NUM may or may not call finite, or a non-finite value that
`S` itself has no scalar for (00_scope.md R10, 60_exceptions.md R209; notes/assumptions/12.md). -/
inductive Sample (S : Type) where
  | value (x : S)
  | nan
  | posInf
  | negInf
  deriving DecidableEq, Repr

/-- The scalar that a value of the host stands for, if it is finite (00_scope.md R10). -/
def Sample.scalar? {S : Type} (N : Num S) : Sample S → Option S
  | .value x => if N.isFinite x then some x else none
  | .nan => none
  | .posInf => none
  | .negInf => none

/-- A value of the host that is not finite: `S` has no scalar for it, or NUM calls its scalar not finite (00_scope.md R10). -/
def Sample.notFinite {S : Type} (N : Num S) (v : Sample S) : Prop := ∀ x : S, v = .value x → N.isFinite x = false

end Sys2Proof
end

