-- ==== Sys2Proof/Config.lean ====
section
/-! DEFINITION. What is fixed for the machine: the named constants of 00_scope.md R7, the parameters of R6 as one argument
(`Hardware S`), and the values of the open ones at the host's interface as constants WITHOUT A BODY, so that no proof can see
which value they have.
-/

namespace Sys2Proof

/-! ### The named constants of 00_scope.md R7 -/

namespace Config

def CUT_MIN : ℚ := 20
def CUT_MAX_FRAC : ℚ := 49 / 100
def RES_MIN : ℚ := 707 / 1000
def RES_MAX : ℚ := 20
def RES_SPAN : ℚ := 19293 / 1000
def LAD_K : ℚ := 42 / 10
def VOW_REF : ℚ := 1000
def VOW_OCT : ℚ := 1000
def VOW_QSCALE : ℚ := 1 / 2
def VOW_GAIN : ℚ := 3
def COMB_FB : ℚ := 99 / 100
def SLEW_BASE : ℚ := 1 / 1000

/-- The shape selector has the values `0 .. N_SHAPES − 1` (Decode.lean, `decodeShape`). -/
abbrev N_SHAPES : Nat := 6

/-- The mode selector has the values `0 .. N_MODES − 1` (Decode.lean, `decodeMode`). -/
abbrev N_MODES : Nat := 6

/-- The rows of VOWEL_TABLE and the values of the vowel selector (Decode.lean, `decodeVowel`). -/
abbrev N_VOWELS : Nat := 5

/-- The columns of VOWEL_TABLE and the sections of FMT_Z. -/
abbrev N_FORMANTS : Nat := 3

/-- The registers of LAD_S. -/
abbrev N_STAGES : Nat := 4

/-- 10_state.md R21: the capacity of the comb buffer of this hardware (92_eei_decisions.md D3). -/
def CAP : Nat := 4096

end Config

/-! ### The parameters of 00_scope.md R6 as an argument -/

/-- One entry of VOWEL_TABLE: centre frequency in Hz and quality factor, both positive (10_state.md R35). -/
structure Formant (S : Type) [Zero S] [LT S] where
  freq : S
  tq : S
  freq_pos : 0 < freq
  tq_pos : 0 < tq

/-- 00_scope.md R6: the parameters of the machine, each with the constraint that R6 puts on it. SR is set by CREATE and stands in
the state; CNT_W and NMAX are unbounded naturals. A free answer is indexed by the instance and by its position
(60_exceptions.md R220: no relation between two instances; notes/assumptions/7.md, 8.md). -/
structure Hardware (S : Type) [Arith S] where
  /-- NUM, with the operations of `Arith S` -/
  num : Num S
  /-- CAP -/
  cap : Nat
  /-- STEP_EPS -/
  stepEps : S
  /-- VOWEL_TABLE, by preset and formant number (10_state.md R35) -/
  vowelTable : Fin Config.N_VOWELS → Fin Config.N_FORMANTS → Formant S
  /-- RND: the answers that no DRAWS directive fixes, by instance and position (40_lfo_modulation.md R108) -/
  freeDraw : Nat → Nat → S
  /-- whether an allocation fails, by instance and position (45_lifecycle_commands.md R185) -/
  freeAllocFails : Nat → Nat → Bool
  cap_pow : ∃ k : Nat, 2 ≤ k ∧ cap = 2 ^ k
  stepEps_nonneg : 0 ≤ stepEps
  draw_nonneg : ∀ unit position : Nat, 0 ≤ freeDraw unit position
  draw_lt_one : ∀ unit position : Nat, freeDraw unit position < 1

/-! ### The open parameters at the host's interface -/

/-- π and the transcendental primitives on the rationals, of which nothing is known. -/
structure Primitives where
  pi : Scalar
  twoPi : Scalar
  sin : Scalar → Scalar
  cos : Scalar → Scalar
  tan : Scalar → Scalar
  tanh : Scalar → Scalar
  exp : Scalar → Scalar
  pow : Scalar → Scalar → Scalar
  deriving Inhabited

/-- An entry of VOWEL_TABLE on the rationals. -/
structure Entry where
  freq : Scalar := 1
  tq : Scalar := 1
  freq_pos : 0 < freq := by norm_num
  tq_pos : 0 < tq := by norm_num
  deriving Inhabited

/-- A rational in [0, 1), an answer of the random source (40_lfo_modulation.md R108). -/
structure Draw where
  val : Scalar := 0
  nonneg : 0 ≤ val := by norm_num
  lt_one : val < 1 := by norm_num
  deriving Inhabited

/-- A non-negative rational. -/
structure Threshold where
  val : Scalar := 0
  nonneg : 0 ≤ val := by norm_num
  deriving Inhabited

/-- 00_scope.md R6 `NUM`, OPEN (92_eei_decisions.md D2). No body, no law: log entry 2. -/
opaque Config.primitives : Primitives

/-- 10_state.md R35 `VOWEL_TABLE`, OPEN (92_eei_decisions.md D6). No body: log entry 9. -/
opaque Config.vowelTable : Fin Config.N_VOWELS → Fin Config.N_FORMANTS → Entry

/-- 00_scope.md R6 `STEP_EPS`, OPEN (92_eei_decisions.md D13). No body: log entry 10. -/
opaque Config.stepEps : Threshold

/-- 40_lfo_modulation.md R108: the answers of the random source of an instance, by instance and position. A free value in
[0, 1): log entry 7. -/
opaque Config.freeDraw : Nat → Nat → Draw

/-- 45_lifecycle_commands.md R185: whether the allocation of a CREATE fails, by instance and position. A free value: log entry 8. -/
opaque Config.freeAllocFails : Nat → Nat → Bool

end Sys2Proof
end

