-- ==== Sys2Proof/Syntax.lean ====
section
/-! DEFINITION. The instructions of MFCORE: one constructor for each row of spec/opcode_table.json, and the operands of the
lifecycle commands. MFCORE fetches no instruction words (30_encoding.md, opening paragraph): an instruction is one operation of the
per-sample sequence or one lifecycle command (00_scope.md R12).
-/

namespace Sys2Proof

/-- The fourteen ports of 30_encoding.md R72, in the order of their numbers. -/
inductive Port where
  | ain | aoutL | aoutR
  | cutoff | res | mix | mode | vowel | rate | shape | cdepth | rdepth | slew | step
  deriving DecidableEq, Repr

/-- All ports, by number (30_encoding.md R72). -/
def Port.all : List Port :=
  [.ain, .aoutL, .aoutR, .cutoff, .res, .mix, .mode, .vowel, .rate, .shape, .cdepth, .rdepth, .slew, .step]

/-- Whether a port carries an audio stream (ports 0 to 2) or a control value (ports 3 to 13): 30_encoding.md R72. -/
def Port.isAudio : Port → Bool
  | .ain => true | .aoutL => true | .aoutR => true
  | .cutoff => false | .res => false | .mix => false | .mode => false | .vowel => false | .rate => false
  | .shape => false | .cdepth => false | .rdepth => false | .slew => false | .step => false

/-- What a port is bound to: a region of host memory. For a control port it is the one cell that holds the value
(`len = 1`), for an audio port a stream of `len` samples (45_lifecycle_commands.md R186). -/
structure Source where
  base : Nat
  len : Nat
  deriving DecidableEq, Repr

/-- The three selector controls (00_scope.md R11 "Selector"), in the order in which 60_exceptions.md R213 reports them. -/
inductive Selector where
  | mode | shape | vowel
  deriving DecidableEq, Repr

/-- The instructions: the 23 rows of spec/opcode_table.json. The scalar operand of CREATE is of the scalar type of the machine
(00_scope.md R6, R8), which at the host's interface is `Scalar`. -/
inductive Instr (S : Type := Scalar) where
  -- format CMD, 30_encoding.md R71
  | create (sr : Sample S)
  | bind (port : Port) (source : Source)
  | activate
  | process (count : Nat)
  | deactivate
  | destroy
  -- format SHAPE, slot 0, R75
  | lfoSin
  | lfoTri
  | lfoRup
  | lfoRdn
  | lfoSqr
  | lfoSnh
  -- format MODE, slot 5, R76
  | fltBq
  | fltSvf
  | fltLad
  | fltVow
  | fltComb
  | fltRing
  -- format SLOT, R79
  | lfoAdv
  | stepq
  | slew
  | cond
  | mix
  deriving DecidableEq, Repr

/-- An operand of a command as the host gives it: "operands follow as abstract values, not bits" (30_encoding.md R70).
Only the port number has bits of its own (format PORT). -/
inductive Operand (S : Type := Scalar) where
  | scalar (v : Sample S)
  | natural (n : Nat)
  | port (p : BitVec 4)
  | location (a : Nat)
  | stream (base len : Nat)
  deriving DecidableEq, Repr

/-- An encoded instruction: a format of 30_encoding.md R70 with its 3-bit field, and the operands of a command. -/
inductive Code (S : Type := Scalar) where
  | cmd (c : BitVec 3) (operands : List (Operand S))
  | shape (s : BitVec 3)
  | mode (m : BitVec 3)
  | slot (s : BitVec 3)
  deriving DecidableEq, Repr

end Sys2Proof
end

