-- ==== Sys2Proof/WellFormed.lean ====
section
/-! DEFINITION. Which instructions have an encoding: the source of a BIND is of the kind its port takes.
-/

namespace Sys2Proof

/-- 45_lifecycle_commands.md R186: "for a control port (3..13) a host location holding one scalar; for an audio port (0..2)
a host stream". -/
def Source.fits (source : Source) (port : Port) : Bool :=
  port.isAudio || source.len == 1

/-- An instruction that the formats of 30_encoding.md R70 can spell. -/
def Instr.wf {S : Type} : Instr S → Bool
  | .create _ => true
  | .bind port source => source.fits port
  | .activate => true
  | .process _ => true
  | .deactivate => true
  | .destroy => true
  | .lfoSin => true
  | .lfoTri => true
  | .lfoRup => true
  | .lfoRdn => true
  | .lfoSqr => true
  | .lfoSnh => true
  | .fltBq => true
  | .fltSvf => true
  | .fltLad => true
  | .fltVow => true
  | .fltComb => true
  | .fltRing => true
  | .lfoAdv => true
  | .stepq => true
  | .slew => true
  | .cond => true
  | .mix => true

end Sys2Proof
end

