-- ==== Sys2Proof/Decode.lean ====
section
/-! DEFINITION. The decoder, total and rejecting by name, and after it the encoder, both from the tables of 30_encoding.md
R70 to R79; then the numbering of spec/opcode_table.json.
-/

namespace Sys2Proof

/-- Why a command of the host spells no instruction. -/
inductive CmdError where
  /-- command codes 6 and 7 (30_encoding.md R81) -/
  | reservedCommand (c : BitVec 3)
  /-- port numbers 14 and 15 of a BIND (R81) -/
  | reservedPort (p : BitVec 4)
  /-- operands that the command of this code does not take (R71) -/
  | badOperands (c : BitVec 3)
  deriving DecidableEq, Repr

/-- Why a code spells no instruction. -/
inductive DecodeError where
  | cmd (e : CmdError)
  /-- shape fields 6 and 7 (R78) -/
  | reservedShape (s : BitVec 3)
  /-- mode fields 6 and 7 (R78) -/
  | reservedMode (m : BitVec 3)
  /-- slot 7, unused (R79) -/
  | unusedSlot (s : BitVec 3)
  /-- slots 0 and 5, whose operation the SHAPE or MODE field spells (R79) -/
  | selectorSlot (s : BitVec 3)
  deriving DecidableEq, Repr

variable {S : Type}

/-! ### Decoding -/

/-- Format PORT, 30_encoding.md R72. -/
def decodePort (p : BitVec 4) : Option Port :=
  match p.toNat with
  | 0 => some .ain
  | 1 => some .aoutL
  | 2 => some .aoutR
  | 3 => some .cutoff
  | 4 => some .res
  | 5 => some .mix
  | 6 => some .mode
  | 7 => some .vowel
  | 8 => some .rate
  | 9 => some .shape
  | 10 => some .cdepth
  | 11 => some .rdepth
  | 12 => some .slew
  | 13 => some .step
  | _ => none

/-- The shape operations by their numbers, 30_encoding.md R75. -/
def shapeTable : List (Instr S) := [.lfoSin, .lfoTri, .lfoRup, .lfoRdn, .lfoSqr, .lfoSnh]

/-- The filter operations by their numbers, 30_encoding.md R76. -/
def modeTable : List (Instr S) := [.fltBq, .fltSvf, .fltLad, .fltVow, .fltComb, .fltRing]

/-- Format SHAPE, 30_encoding.md R75: the first N_SHAPES numbers. -/
def decodeShape (s : BitVec 3) : Option (Instr S) := (shapeTable.take Config.N_SHAPES)[s.toNat]?

/-- Format MODE, 30_encoding.md R76: the first N_MODES numbers. -/
def decodeMode (m : BitVec 3) : Option (Instr S) := (modeTable.take Config.N_MODES)[m.toNat]?

/-- Format VOWEL, 30_encoding.md R77: the row of VOWEL_TABLE. -/
def decodeVowel (v : BitVec 3) : Option (Fin Config.N_VOWELS) :=
  if h : v.toNat < Config.N_VOWELS then some ⟨v.toNat, h⟩ else none

/-- Format SLOT, 30_encoding.md R79. -/
def decodeSlot (s : BitVec 3) : Except DecodeError (Instr S) :=
  match s.toNat with
  | 1 => .ok .lfoAdv
  | 2 => .ok .stepq
  | 3 => .ok .slew
  | 4 => .ok .cond
  | 6 => .ok .mix
  | 7 => .error (.unusedSlot s)
  | _ => .error (.selectorSlot s)

/-- Operands of BIND, 30_encoding.md R71: a port number and a source of the port's kind. -/
def decodeBind (c : BitVec 3) : List (Operand S) → Except CmdError (Instr S)
  | [.port p, .location a] =>
    match decodePort p with
    | none => .error (.reservedPort p)
    | some port => if port.isAudio then .error (.badOperands c) else .ok (.bind port ⟨a, 1⟩)
  | [.port p, .stream base len] =>
    match decodePort p with
    | none => .error (.reservedPort p)
    | some port => if port.isAudio then .ok (.bind port ⟨base, len⟩) else .error (.badOperands c)
  | _ => .error (.badOperands c)

/-- Operand of CREATE, 30_encoding.md R71. -/
def decodeCreate (c : BitVec 3) : List (Operand S) → Except CmdError (Instr S)
  | [.scalar v] => .ok (.create v)
  | _ => .error (.badOperands c)

/-- Operand of PROCESS, 30_encoding.md R71. -/
def decodeProcess (c : BitVec 3) : List (Operand S) → Except CmdError (Instr S)
  | [.natural n] => .ok (.process n)
  | _ => .error (.badOperands c)

/-- A command without operands, 30_encoding.md R71. -/
def decodePlain (c : BitVec 3) (i : Instr S) : List (Operand S) → Except CmdError (Instr S)
  | [] => .ok i
  | _ :: _ => .error (.badOperands c)

/-- Format CMD, 30_encoding.md R71. -/
def decodeCmd (c : BitVec 3) (operands : List (Operand S)) : Except CmdError (Instr S) :=
  match c.toNat with
  | 0 => decodeCreate c operands
  | 1 => decodeBind c operands
  | 2 => decodePlain c .activate operands
  | 3 => decodeProcess c operands
  | 4 => decodePlain c .deactivate operands
  | 5 => decodePlain c .destroy operands
  | _ => .error (.reservedCommand c)

/-- The decoder: total on every code of every format. -/
def decode : Code S → Except DecodeError (Instr S)
  | .cmd c operands => match decodeCmd c operands with | .ok i => .ok i | .error e => .error (.cmd e)
  | .shape s => match decodeShape s with | some i => .ok i | none => .error (.reservedShape s)
  | .mode m => match decodeMode m with | some i => .ok i | none => .error (.reservedMode m)
  | .slot s => decodeSlot s

/-! ### Encoding -/

/-- 30_encoding.md R72. -/
def portNumber : Port → BitVec 4
  | .ain => 0 | .aoutL => 1 | .aoutR => 2
  | .cutoff => 3 | .res => 4 | .mix => 5 | .mode => 6 | .vowel => 7 | .rate => 8
  | .shape => 9 | .cdepth => 10 | .rdepth => 11 | .slew => 12 | .step => 13

/-- The operand that names a source: a location for a control port, a stream for an audio port (R71). -/
def encodeSource (port : Port) (source : Source) : Operand S :=
  if port.isAudio then .stream source.base source.len else .location source.base

/-- The code of an instruction, from the tables of 30_encoding.md R71, R75, R76, R79. -/
def encode : Instr S → Code S
  | .create sr => .cmd 0 [.scalar sr]
  | .bind port source => .cmd 1 [.port (portNumber port), encodeSource port source]
  | .activate => .cmd 2 []
  | .process count => .cmd 3 [.natural count]
  | .deactivate => .cmd 4 []
  | .destroy => .cmd 5 []
  | .lfoSin => .shape 0
  | .lfoTri => .shape 1
  | .lfoRup => .shape 2
  | .lfoRdn => .shape 3
  | .lfoSqr => .shape 4
  | .lfoSnh => .shape 5
  | .fltBq => .mode 0
  | .fltSvf => .mode 1
  | .fltLad => .mode 2
  | .fltVow => .mode 3
  | .fltComb => .mode 4
  | .fltRing => .mode 5
  | .lfoAdv => .slot 1
  | .stepq => .slot 2
  | .slew => .slot 3
  | .cond => .slot 4
  | .mix => .slot 6

/-! ### The numbering of spec/opcode_table.json

The table gives every row three bits, and rows of different formats the same three bits (CREATE, LFO.SIN and FLT.BQ are all
000): the format is not among them (30_encoding.md R70). A word without further bits is read as a command, the only format
the host supplies; 110 spells no command and only one row of the table, MIX. A bit above the three names another format.
DESIGN CHOICE: notes/assumptions/5.md. -/

/-- The operands of zeros that stand for the operand words the table gives no bits. -/
def zeroOperands (c : BitVec 3) : List Operand :=
  match c.toNat with
  | 0 => [.scalar (.value 0)]
  | 1 => [.port 0, .stream 0 0]
  | 3 => [.natural 0]
  | _ => []

/-- The code that a word of the table's numbering stands for. Bit 5 is the bit that the table's reader gives the rows of
format MODE; bits 6 and 7 are the model's own marks of SHAPE and SLOT. -/
def tableCode (nbits w : Nat) : Option Code :=
  if 2 ^ nbits ≤ w then none
  else
    match w / 8 with
    | 0 => if w = 6 then some (.slot 6) else some (.cmd (BitVec.ofNat 3 w) (zeroOperands (BitVec.ofNat 3 w)))
    | 4 => some (.mode (BitVec.ofNat 3 w))
    | 8 => some (.shape (BitVec.ofNat 3 w))
    | 16 => some (.slot (BitVec.ofNat 3 w))
    | _ => none

/-- The instruction the decoder reads from a word of the table's numbering. -/
def decodeTableWord (nbits w : Nat) : Option Instr :=
  match tableCode nbits w with
  | none => none
  | some c => match decode c with | .ok i => some i | .error _ => none

end Sys2Proof
end

