-- ==== Sys2Proof/Machine/State.lean ====
section
/-! DEFINITION. The state of MFCORE as plain data (10_state.md R20 to R32), the host's side of its interface, the reasons a
step can stop, and the state before the first command.
-/

namespace Sys2Proof.Machine

open Sys2Proof

/-- A memory of cells indexed by a natural, as the list of its cells that differ from what an unlisted cell reads as,
in rising order (Ops.lean, `Memory.wf`). -/
abbrev Memory (α : Type) := List (Nat × α)

/-- 10_state.md R22. -/
inductive Life where
  | absent | inactive | active
  deriving DecidableEq, Repr

/-- 10_state.md R24: the LFO registers LFO_PHASE, LFO_SH, LFO_STEPCNT, LFO_STEPVAL, LFO_SMOOTH. -/
structure LfoRegs (S : Type) where
  phase : S
  sh : S
  stepCnt : Nat
  stepVal : S
  smooth : S
  deriving DecidableEq, Repr

/-- Two delay registers of a transposed direct form II section: BQ_Z1, BQ_Z2 (10_state.md R25), or FMT_Z[f][1], FMT_Z[f][2] (R28). -/
structure Delays (S : Type) where
  z1 : S
  z2 : S
  deriving DecidableEq, Repr

/-- 10_state.md R26: SVF_S1 (bandpass integrator) and SVF_S2 (lowpass integrator). -/
structure SvfRegs (S : Type) where
  s1 : S
  s2 : S
  deriving DecidableEq, Repr

/-- 10_state.md R27: LAD_S[1] to LAD_S[N_STAGES], the first at index 0. -/
abbrev LadRegs (S : Type) := Vector S Config.N_STAGES

/-- 10_state.md R28: FMT_Z[0] to FMT_Z[N_FORMANTS − 1]. -/
abbrev FmtRegs (S : Type) := Vector (Delays S) Config.N_FORMANTS

/-- 10_state.md R29: COMB_BUF (an unlisted slot is 0) and the write cursor COMB_W. -/
structure CombRegs (S : Type) where
  buf : Memory S
  w : Nat
  deriving DecidableEq, Repr

/-- 10_state.md R32: what each port is bound to. `BOUND[p]` is 1 where there is a source. -/
structure Ports where
  ain : Option Source
  aoutL : Option Source
  aoutR : Option Source
  cutoff : Option Source
  res : Option Source
  mix : Option Source
  mode : Option Source
  vowel : Option Source
  rate : Option Source
  shape : Option Source
  cdepth : Option Source
  rdepth : Option Source
  slew : Option Source
  step : Option Source
  deriving DecidableEq, Repr

/-- 10_state.md R31: the latches L_*. -/
structure Latches (S : Type) where
  cutoff : S
  res : S
  mix : S
  mode : Int
  vowel : Int
  rate : S
  shape : Int
  cdepth : S
  rdepth : S
  slew : S
  step : S
  deriving DecidableEq, Repr

/-- 30_encoding.md R79: the position in the per-sample sequence, the low part of the program counter; "never observable between
steps" (10_state.md R23): between two steps of the machine it is slot 0. -/
inductive Slot where
  | lfo | adv | stepq | slew | cond | flt | mix
  deriving DecidableEq, Repr

/-- The wires of 44_mixer_and_sample_step.md R171 between two operations of one sample step. They are "values that live inside one
sample step and are not state" (00_scope.md R8); the model holds them because the meaning of an operation is a function of the state
(notes/assumptions/3.md). Between two steps of the machine they are 0. -/
structure Wires (S : Type) where
  x : S
  raw : S
  stepped : S
  modv : S
  fc : S
  q : S
  nres : S
  wet : S
  deriving DecidableEq, Repr

/-- The running block: latches (10_state.md R31), sample index `n` and length `N` (R23), slot, wires. -/
structure Block (S : Type) where
  running : Bool
  latches : Latches S
  n : Nat
  len : Nat
  slot : Slot
  wires : Wires S
  deriving DecidableEq, Repr

/-- The outcomes after which a run goes on (60_exceptions.md R200). -/
inductive Completion where
  | ok | skipped | createFailed
  deriving DecidableEq, Repr

/-- A move of the host, made when no block runs (20_memory.md R61). -/
inductive HostMove (S : Type) where
  /-- a lifecycle command, by its code and operands (30_encoding.md R71) -/
  | command (c : BitVec 3) (operands : List (Operand S))
  /-- the host writes a cell of its own memory (20_memory.md R61, R63) -/
  | store (a : Nat) (v : Sample S)
  /-- the DRAWS directive (30_encoding.md R82) -/
  | draws (answers : List S)
  /-- the environment fixes whether coming allocations fail (45_lifecycle_commands.md R185: "the host environment chooses") -/
  | allocs (answers : List Bool)
  deriving DecidableEq, Repr

/-- The random source of 10_state.md R37: answers fixed by DRAWS and not yet used, and how many draws were taken. -/
structure RandomSource (S : Type) where
  fixed : List S
  taken : Nat
  deriving DecidableEq, Repr

/-- The allocator that decides whether a CREATE fails (45_lifecycle_commands.md R185): answers fixed in advance (`true`
fails), and how many allocations were asked for. -/
structure Allocator where
  fixed : List Bool
  asked : Nat
  deriving DecidableEq, Repr

namespace Any

/-- The state of one instance over a scalar type (00_scope.md R6, R11 "Instance"). -/
structure State (S : Type) where
  /-- SR, 10_state.md R21 -/
  sr : S
  /-- CAP, 10_state.md R21 -/
  cap : Nat
  /-- LIFE, 10_state.md R22 -/
  life : Life
  /-- LFO_PHASE, LFO_SH, LFO_STEPCNT, LFO_STEPVAL, LFO_SMOOTH, 10_state.md R24 -/
  lfo : LfoRegs S
  /-- BQ_Z1, BQ_Z2, 10_state.md R25 -/
  bq : Delays S
  /-- SVF_S1, SVF_S2, 10_state.md R26 -/
  svf : SvfRegs S
  /-- LAD_S[1..4], 10_state.md R27 -/
  lad : LadRegs S
  /-- FMT_Z[0..2][1..2], 10_state.md R28 -/
  fmt : FmtRegs S
  /-- COMB_BUF, COMB_W, 10_state.md R29 -/
  comb : CombRegs S
  /-- RING_PHASE, 10_state.md R30 -/
  ringPhase : S
  /-- the ports, 10_state.md R32 -/
  ports : Ports
  /-- the running block, 10_state.md R23, R31 -/
  blk : Block S
  /-- host memory: the cells behind AIN, AOUT_L, AOUT_R and PORTVAL, 20_memory.md R50 -/
  host : Memory (Sample S)
  /-- the host's moves not yet made (model's own, notes/assumptions/4.md) -/
  queue : List (HostMove S)
  /-- the random source, 10_state.md R37 -/
  rnd : RandomSource S
  /-- the allocator (model's own, notes/assumptions/8.md) -/
  alloc : Allocator
  /-- which of the host's instances this is (model's own, notes/assumptions/20.md): it tells the free answers of two instances
  apart (60_exceptions.md R220), no instruction reads it and nothing the core does shows it -/
  unit : Nat
  /-- the outcome of the last command that returned (model's own, notes/assumptions/25.md) -/
  outcome : Completion
  deriving DecidableEq, Repr

end Any

/-- The state behind the host's interface: over the scalars that are plain data. -/
abbrev State := Any.State Scalar

/-- The reasons the machine stops with a fault. -/
inductive Fault where
  /-- 60_exceptions.md R204: a decoded selector outside its range, with the selector and its integer ("value recorded",
  R201). Raised by PROCESS at its check 6. SAFE: the spec says "a faulted run satisfies no claim" (R200), and the state
  before the command is the state after it. In a state that no run reaches, a sample step raises it too. -/
  | reservedSelector (selector : Selector) (value : Int)
  deriving DecidableEq, Repr

/-- The reasons a step has no meaning. -/
inductive Refusal where
  /-- raised by no arm: an instruction without a meaning yet. SAFE. -/
  | notModelled (mnemonic : String)
  /-- 60_exceptions.md R210, 45_lifecycle_commands.md R192: raised by the six commands outside the LIFE that admits them. SAFE: U8. -/
  | badLifecycle
  /-- 45_lifecycle_commands.md R185: raised by CREATE for a sample rate below 20/0.49 or not finite. SAFE: U15. -/
  | badSampleRate
  /-- 30_encoding.md R81, 60_exceptions.md R201: raised by the step for a BIND whose port field is 14 or 15. SAFE: U14. -/
  | badPort (p : BitVec 4)
  /-- 60_exceptions.md R206: raised by PROCESS for an unbound port other than the three of R202. SAFE: U2.
  In a state that no run reaches, MIX and the start of a sample step raise it too. -/
  | unboundPort (port : Port)
  /-- 60_exceptions.md R207: raised by PROCESS for a stream that is too short or overlaps another other than exactly. SAFE: U10. -/
  | badStreams
  /-- 60_exceptions.md R209: raised by PROCESS for a control value or input sample that is not finite. SAFE: U7.
  In a state that no run reaches, the start of a sample step raises it too. -/
  | nonFinite
  /-- 60_exceptions.md R208: raised by PROCESS for a rate outside [0, SR). SAFE: U6. -/
  | rateOutOfRange
  /-- 30_encoding.md R81: raised by the step for the command codes 6 and 7. SAFE: U14. -/
  | reservedCommand (c : BitVec 3)
  /-- 30_encoding.md R71: raised by the step for operands that the command of this code does not take; no interface of the
  spec offers such a command. SAFE. -/
  | badOperands (c : BitVec 3)
  deriving DecidableEq, Repr

/-! ### Reset values -/

section
variable {S : Type} [Arith S]

def LfoRegs.zero : LfoRegs S := ⟨0, 0, 0, 0, 0⟩
def Delays.zero : Delays S := ⟨0, 0⟩
def SvfRegs.zero : SvfRegs S := ⟨0, 0⟩
def LadRegs.zero : LadRegs S := Vector.replicate _ 0
def FmtRegs.zero : FmtRegs S := Vector.replicate _ .zero
def CombRegs.zero : CombRegs S := ⟨[], 0⟩

/-- 10_state.md R40: all ports unbound. -/
def Ports.none : Ports :=
  ⟨.none, .none, .none, .none, .none, .none, .none, .none, .none, .none, .none, .none, .none, .none⟩

/-- No value (R40): the model's zeros while no block runs, notes/assumptions/13.md. -/
def Latches.zero : Latches S := ⟨0, 0, 0, 0, 0, 0, 0, 0, 0, 0, 0⟩

def Wires.zero : Wires S := ⟨0, 0, 0, 0, 0, 0, 0, 0⟩

/-- No block runs. -/
def Block.idle : Block S := ⟨false, .zero, 0, 0, .lfo, .zero⟩

/-- The machine before the first command: no instance exists (10_state.md R22; LIFE = Absent is the start state of every
program of 95_test_vectors.md). The values of registers that do not exist yet are the model's, notes/assumptions/13.md. -/
def Any.State.reset (cap unit : Nat) : Any.State S where
  sr := 0
  cap := cap
  life := .absent
  lfo := .zero
  bq := .zero
  svf := .zero
  lad := LadRegs.zero
  fmt := FmtRegs.zero
  comb := .zero
  ringPhase := 0
  ports := .none
  blk := .idle
  host := []
  queue := []
  rnd := ⟨[], 0⟩
  alloc := ⟨[], 0⟩
  unit := unit
  outcome := .ok

end

/-- The first instance of the host; instance `k` starts with `unit := k` (notes/assumptions/20.md). -/
def State.reset : State := Any.State.reset Config.CAP 0

end Sys2Proof.Machine
end

