-- ==== Sys2Proof/Machine/Ops.lean ====
section
/-! DEFINITION. The shared operations: the scalar primitives of 00_scope.md R9 that are made of others, the two
memory primitives of 20_memory.md R51, the port table, ending a command with an outcome (60_exceptions.md R200 to R216), the
two resets (70_reset_and_hazards.md R230), and moving through the per-sample sequence (44_mixer_and_sample_step.md R171, R172).
-/

namespace Sys2Proof.Machine

open Sys2Proof

variable {S : Type}

/-! ### Scalar primitives (00_scope.md R9) -/

/-- `clamp(x, lo, hi)` is `min(max(x, lo), hi)`. -/
def clamp [Arith S] (x lo hi : S) : S := min (max x lo) hi

/-- `rnd(x)` over a given `floor`: nearest integer, ties away from zero. -/
def nearest [Arith S] [DecidableLE S] (floor : S → Int) (x : S) : Int := if 0 ≤ x then floor (x + 1 / 2) else -floor (-x + 1 / 2)

/-- `a mod M`: the residue in `0..M-1`, also for negative `a`. -/
def residue (a : Int) (m : Nat) : Nat := (a % (m : Int)).toNat

/-! ### Memory (20_memory.md R51) -/

/-- `MemRead`: the scalar at an index; `unlisted` is what a cell without an entry reads as. -/
def Memory.read {α : Type} (unlisted : α) : Memory α → Nat → α
  | [], _ => unlisted
  | (k, v) :: rest, a => if k = a then v else Memory.read unlisted rest a

/-- Every entry for a cell taken out. -/
def Memory.erase {α : Type} (m : Memory α) (a : Nat) : Memory α := m.filter (fun c => c.1 != a)

/-- An entry put before the first entry of a greater index. -/
def Memory.insert {α : Type} : Memory α → Nat → α → Memory α
  | [], a, v => [(a, v)]
  | (k, u) :: rest, a, v => if a < k then (a, v) :: (k, u) :: rest else (k, u) :: Memory.insert rest a v

/-- `MemWrite`: replaces one cell and changes nothing else; keeps the canonical form. -/
def Memory.write {α : Type} [DecidableEq α] (unlisted : α) (m : Memory α) (a : Nat) (v : α) : Memory α :=
  if v = unlisted then m.erase a else (m.erase a).insert a v

/-- The canonical form: indices strictly rising, no entry equal to what an unlisted cell reads as. -/
def Memory.wf {α : Type} [DecidableEq α] (unlisted : α) (m : Memory α) : Bool :=
  decide (m.Pairwise (fun c d => c.1 < d.1)) && m.all (fun c => decide (c.2 ≠ unlisted))

/-- What a COMB slot without an entry holds: "COMB_BUF[0 .. CAP-1]: 0, every slot" (10_state.md R40). -/
def combUnlisted [Arith S] : S := 0

/-- What a host cell without an entry reads as. DESIGN CHOICE, unsafe: notes/assumptions/11.md. -/
def hostUnlisted [Arith S] : Sample S := .value 0

/-- `MemRead(COMB, i)` (20_memory.md R52). -/
def CombRegs.read [Arith S] (c : CombRegs S) (i : Nat) : S := Memory.read combUnlisted c.buf i

/-- A read of one cell of host memory. -/
def Any.State.hostRead [Arith S] (s : Any.State S) (a : Nat) : Sample S := Memory.read hostUnlisted s.host a

/-- A write of one cell of host memory. -/
def Any.State.hostWrite [Arith S] [DecidableEq S] (s : Any.State S) (a : Nat) (v : Sample S) : Any.State S :=
  { s with host := Memory.write hostUnlisted s.host a v }

/-! ### The port table (10_state.md R32) -/

def Ports.get (p : Ports) : Port → Option Source
  | .ain => p.ain
  | .aoutL => p.aoutL
  | .aoutR => p.aoutR
  | .cutoff => p.cutoff
  | .res => p.res
  | .mix => p.mix
  | .mode => p.mode
  | .vowel => p.vowel
  | .rate => p.rate
  | .shape => p.shape
  | .cdepth => p.cdepth
  | .rdepth => p.rdepth
  | .slew => p.slew
  | .step => p.step

def Ports.set (p : Ports) (port : Port) (v : Option Source) : Ports :=
  match port with
  | .ain => { p with ain := v }
  | .aoutL => { p with aoutL := v }
  | .aoutR => { p with aoutR := v }
  | .cutoff => { p with cutoff := v }
  | .res => { p with res := v }
  | .mix => { p with mix := v }
  | .mode => { p with mode := v }
  | .vowel => { p with vowel := v }
  | .rate => { p with rate := v }
  | .shape => { p with shape := v }
  | .cdepth => { p with cdepth := v }
  | .rdepth => { p with rdepth := v }
  | .slew => { p with slew := v }
  | .step => { p with step := v }

/-- `BOUND[port]` (10_state.md R32). -/
def Ports.bound (p : Ports) (port : Port) : Bool := (p.get port).isSome

/-! ### Ending a command: outcomes, the fault, refusals (60_exceptions.md) -/

/-- How an instruction ends, over a scalar type. -/
abbrev Any.Outcome (S : Type) := Host.Outcome (Any.State S) Fault Refusal

/-- The rows of the cause table, 60_exceptions.md R201. -/
inductive Cause where
  | ok
  | skipped
  | createFailed
  | reservedSelector (selector : Selector) (value : Int)
  | badLifecycle
  | badSampleRate
  | badPort (p : BitVec 4)
  | unboundPort (port : Port)
  | badStreams
  | nonFinite
  | rateOutOfRange
  deriving DecidableEq, Repr

/-- The code column of 60_exceptions.md R201. -/
def Cause.code : Cause → Nat
  | .ok => 0
  | .skipped => 1
  | .createFailed => 2
  | .reservedSelector _ _ => 3
  | .badLifecycle => 4
  | .badSampleRate => 5
  | .badPort _ => 6
  | .unboundPort _ => 7
  | .badStreams => 8
  | .nonFinite => 9
  | .rateOutOfRange => 10

/-- `raise <Outcome>` (00_scope.md R8): the command ends with this cause. A non-Ok outcome "saves nothing, switches no mode,
masks nothing, uses no stack and transfers control nowhere" (60_exceptions.md R215), and there is no return instruction (R216).
Ok, Skipped and CreateFailed leave the state as it is and are recorded; a reserved selector is the fault of R204; the others
are the refusals of R205. -/
def Any.raise (c : Cause) (s : Any.State S) : Any.Outcome S :=
  match c with
  | .ok => .next { s with outcome := .ok }
  | .skipped => .next { s with outcome := .skipped }
  | .createFailed => .next { s with outcome := .createFailed }
  | .reservedSelector selector value => .fault (.reservedSelector selector value)
  | .badLifecycle => .refused .badLifecycle
  | .badSampleRate => .refused .badSampleRate
  | .badPort p => .refused (.badPort p)
  | .unboundPort port => .refused (.unboundPort port)
  | .badStreams => .refused .badStreams
  | .nonFinite => .refused .nonFinite
  | .rateOutOfRange => .refused .rateOutOfRange

/-- One part of a step after another: where the first stops, the step stops. -/
def Any.andThen (o : Any.Outcome S) (rest : Any.State S → Any.Outcome S) : Any.Outcome S :=
  match o with
  | .next s => rest s
  | .fault r => .fault r
  | .refused r => .refused r

/-! ### Free inputs -/

/-- A value that the random source can answer: one in [0, 1) (40_lfo_modulation.md R108). -/
def drawable [Arith S] [DecidableLT S] [DecidableLE S] (d : S) : Bool := decide (0 ≤ d) && decide (d < 1)

/-- `draw()` of 40_lfo_modulation.md R108 in an instance: the next answer fixed by DRAWS, else a free value in [0, 1). An answer that
the random source cannot give fixes nothing (notes/assumptions/29.md). -/
def RandomSource.answer [Arith S] [DecidableLT S] [DecidableLE S] (H : Hardware S) (unit : Nat) (r : RandomSource S) : S :=
  match r.fixed with
  | [] => H.freeDraw unit r.taken
  | d :: _ => if drawable d then d else H.freeDraw unit r.taken

/-- One draw is consumed (10_state.md R34). -/
def RandomSource.consume (r : RandomSource S) : RandomSource S := ⟨r.fixed.tail, r.taken + 1⟩

/-- Whether the next allocation of an instance fails (45_lifecycle_commands.md R185): the answer fixed in advance, else a free value. -/
def Allocator.fails [Arith S] (H : Hardware S) (unit : Nat) (a : Allocator) : Bool :=
  match a.fixed with
  | [] => H.freeAllocFails unit a.asked
  | b :: _ => b

/-- One allocation is asked for. -/
def Allocator.consume (a : Allocator) : Allocator := ⟨a.fixed.tail, a.asked + 1⟩

/-! ### The resets (70_reset_and_hazards.md R230, 10_state.md R40) -/

/-- Every register of 10_state.md R24 to R30 and every COMB slot becomes 0. -/
def Any.State.zeroRegs [Arith S] (s : Any.State S) : Any.State S :=
  { s with
    lfo := .zero, bq := .zero, svf := .zero, lad := LadRegs.zero, fmt := FmtRegs.zero, comb := .zero, ringPhase := 0 }

/-- 45_lifecycle_commands.md R185, the successful branch: the instance of 10_state.md R40, column "after CREATE". -/
def Any.State.created [Arith S] (H : Hardware S) (s : Any.State S) (sr : S) : Any.State S :=
  { s.zeroRegs with sr := sr, cap := H.cap, ports := .none, blk := .idle, life := .inactive, outcome := .ok }

/-- 45_lifecycle_commands.md R191: "every register, the comb buffer and every binding cease to exist". The fields hold the
values they have before the first CREATE (notes/assumptions/13.md). -/
def Any.State.destroyed [Arith S] (H : Hardware S) (s : Any.State S) : Any.State S :=
  { s.zeroRegs with sr := 0, cap := H.cap, ports := .none, blk := .idle, life := .absent, outcome := .ok }

/-- A command is looked at only when no PROCESS is running (45_lifecycle_commands.md R186, R191; 70_reset_and_hazards.md R236)
and the LIFE is one that admits it (R192). -/
def Any.State.admits (s : Any.State S) (lives : List Life) : Bool := !s.blk.running && lives.contains s.life

/-! ### Moving through the per-sample sequence -/

/-- An operation leaves its wires to the next slot (30_encoding.md R79). -/
def Any.State.pass (s : Any.State S) (wires : Wires S) (slot : Slot) : Any.State S :=
  { s with blk := { s.blk with wires := wires, slot := slot } }

/-- The block is over: `return Ok` (44_mixer_and_sample_step.md R172). The latches and `n` hold no value between commands
(10_state.md R23, R31). -/
def Any.State.finishBlock [Arith S] (s : Any.State S) : Any.State S := { s with blk := .idle, outcome := .ok }

/-- `MemRead(AIN, n)` (20_memory.md R53). -/
def Any.State.readIn [Arith S] (N : Num S) (s : Any.State S) (n : Nat) : Except Cause S :=
  match s.ports.ain with
  | none => .error (.unboundPort .ain)
  | some src =>
    match (s.hostRead (src.base + n)).scalar? N with
    | none => .error .nonFinite
    | some x => .ok x

/-- The start of a sample step: `x <- MemRead(AIN, n)` (44_mixer_and_sample_step.md R171), once per step. The two stops are reached in
no run: PROCESS has checked the port and the samples (45_lifecycle_commands.md R188). -/
def Any.State.beginSample [Arith S] (N : Num S) (s : Any.State S) : Any.Outcome S :=
  match s.readIn N s.blk.n with
  | .error c => Any.raise c s
  | .ok x => .next (s.pass { s.blk.wires with x := x } s.blk.slot)

/-- The end of a sample step: `n <- n + 1` (44_mixer_and_sample_step.md R171), and the block ends when `n = N` (R172). Nothing of the
wires outlives the step (00_scope.md R8). -/
def Any.State.endSample [Arith S] (s : Any.State S) : Any.State S :=
  if s.blk.n + 1 < s.blk.len then { s with blk := { s.blk with n := s.blk.n + 1, slot := .lfo, wires := .zero } }
  else s.finishBlock

/-- The latches are taken and the sample index is 0 (44_mixer_and_sample_step.md R172); with `N = 0` the block is over at once. -/
def Any.State.startBlock [Arith S] (s : Any.State S) (latches : Latches S) (count : Nat) : Any.State S :=
  if 0 < count then { s with blk := ⟨true, latches, 0, count, .lfo, .zero⟩ } else s.finishBlock

end Sys2Proof.Machine
end

