-- ==== Sys2Proof/Machine/Operands.lean ====
section
/-! DEFINITION. Operand assembly (30_encoding.md R73, R74; 10_state.md R31): the value of a control port, the selector decode,
the latches, the row of the vowel table, and the samples and streams of a block.
-/

namespace Sys2Proof.Machine

open Sys2Proof

variable {S : Type} [Arith S]

/-- `MemRead(PORTVAL, p)` (20_memory.md R54): the host's value at the location bound to the port. -/
def Any.State.portValue (s : Any.State S) (port : Port) : Option (Sample S) :=
  match s.ports.get port with
  | none => none
  | some src => some (s.hostRead src.base)

/-- A control value "used exactly as read" (30_encoding.md R73); none if the port is unbound or its value not finite. -/
def Any.State.control (N : Num S) (s : Any.State S) (port : Port) : Option S :=
  match s.portValue port with
  | none => none
  | some v => v.scalar? N

/-- The latches of 10_state.md R31: scalars as they are, selectors by `rnd` (30_encoding.md R74). None if a control value is
not finite. -/
def Any.State.latch (N : Num S) (s : Any.State S) : Option (Latches S) :=
  match s.control N .cutoff, s.control N .res, s.control N .mix, s.control N .mode, s.control N .vowel, s.control N .rate,
    s.control N .shape, s.control N .cdepth, s.control N .rdepth, s.control N .slew, s.control N .step with
  | some cutoff, some res, some mix, some mode, some vowel, some rate, some shape, some cdepth, some rdepth,
    some slew, some step =>
    some ⟨cutoff, res, mix, N.rnd mode, N.rnd vowel, rate, N.rnd shape, cdepth, rdepth, slew, step⟩
  | _, _, _, _, _, _, _, _, _, _, _ => none

/-- The field of a selector's format: a decoded integer that its three bits can hold (30_encoding.md R70). -/
def selectorField (k : Int) : Option (BitVec 3) :=
  if 0 ≤ k ∧ k < 8 then some (BitVec.ofNat 3 k.toNat) else none

/-- The row of VOWEL_TABLE that `L_VOWEL` selects (30_encoding.md R77). -/
def vowelRow (k : Int) : Option (Fin Config.N_VOWELS) :=
  match selectorField k with
  | none => none
  | some f => decodeVowel f

/-- The shape operation that `L_SHAPE` selects (30_encoding.md R75). -/
def shapeOp {S : Type} (k : Int) : Option (Instr S) :=
  match selectorField k with
  | none => none
  | some f => decodeShape f

/-- The filter operation that `L_MODE` selects (30_encoding.md R76). -/
def modeOp {S : Type} (k : Int) : Option (Instr S) :=
  match selectorField k with
  | none => none
  | some f => decodeMode f

/-- 30_encoding.md R78, 60_exceptions.md R213: the first reserved selector in the order mode, shape, vowel. -/
def Latches.firstReserved (l : Latches S) : Option (Selector × Int) :=
  if (modeOp (S := S) l.mode).isNone then some (.mode, l.mode)
  else if (shapeOp (S := S) l.shape).isNone then some (.shape, l.shape)
  else if (vowelRow l.vowel).isNone then some (.vowel, l.vowel)
  else none

/-- Two streams that share no cell. -/
def disjointSources (a b : Source) : Bool :=
  decide (a.base + a.len ≤ b.base) || decide (b.base + b.len ≤ a.base) || a.len == 0 || b.len == 0

/-- 20_memory.md R65: disjoint, or "same base, same length". -/
def compatibleSources (a b : Source) : Bool := disjointSources a b || a == b

/-- Check 4 of 45_lifecycle_commands.md R188 (60_exceptions.md R207): each stream holds at least `N` samples, and no two
overlap other than exactly. -/
def Ports.streamsOk (p : Ports) (count : Nat) : Bool :=
  match p.ain, p.aoutL, p.aoutR with
  | some i, some l, some r =>
    decide (count ≤ i.len) && decide (count ≤ l.len) && decide (count ≤ r.len) &&
      compatibleSources i l && compatibleSources i r && compatibleSources l r
  | _, _, _ => false

/-- Check 5 of 45_lifecycle_commands.md R188, its second half: `AIN[0..N-1]` finite. -/
def Any.State.inputsFinite (N : Num S) (s : Any.State S) : Nat → Bool
  | 0 => true
  | k + 1 => s.inputsFinite N k && (match s.readIn N k with | .ok _ => true | .error _ => false)

end Sys2Proof.Machine
end

