-- ==== Sys2Proof/Machine/Flags.lean ====
section
/-! DEFINITION. MFCORE has no status flags (10_state.md R33). The four Boolean wires that R33 names, and the admission
predicate of the rate.
-/

namespace Sys2Proof.Machine

open Sys2Proof

variable {S : Type} [Arith S]

/-- `wrap` (10_state.md R33): `LFO_PHASE + inc >= TWO_PI` (40_lfo_modulation.md R107); the same test wraps RING_PHASE
(43_filters_vowel_comb_ring.md R160). -/
def wrapFlag [DecidableLE S] (N : Num S) (phase inc : S) : Bool := decide (N.twoPi ≤ phase + inc)

/-- `bypass` (10_state.md R33): `L_STEP <= STEP_EPS`. -/
def bypassFlag [DecidableLE S] (H : Hardware S) (step : S) : Bool := decide (step ≤ H.stepEps)

/-- `latch` (10_state.md R33): the counter, already incremented, has reached the hold period (40_lfo_modulation.md R111). -/
def latchFlag (stepCnt hold : Nat) : Bool := decide (hold ≤ stepCnt)

/-- `skip` (10_state.md R33): cutoff, LFO rate or LFO slew unbound (60_exceptions.md R202). -/
def Ports.skipFlag (p : Ports) : Bool := !(p.bound .cutoff && p.bound .rate && p.bound .slew)

/-- 40_lfo_modulation.md R109: `0 <= L_RATE < SR`. -/
def rateAdmitted [DecidableLT S] [DecidableLE S] (rate sr : S) : Bool := decide (0 ≤ rate) && decide (rate < sr)

end Sys2Proof.Machine
end

