-- ==== Sys2Proof/Machine/Hardware.lean ====
section
/-! DEFINITION. The parameters of 00_scope.md R6 as the machine behind the host's interface has them: the rationals with their
exact `+ − · /`, order, floor and rnd, and uninterpreted constants for all that R6 leaves open (log entries 1 and 2).
-/

namespace Sys2Proof

open Sys2Proof.Machine

/-- NUM on the rationals. -/
def Config.num : Num Scalar where
  floor := Int.floor
  rnd := nearest Int.floor
  sin := Config.primitives.sin
  cos := Config.primitives.cos
  tan := Config.primitives.tan
  tanh := Config.primitives.tanh
  exp := Config.primitives.exp
  pow := Config.primitives.pow
  pi := Config.primitives.pi
  twoPi := Config.primitives.twoPi
  isFinite := fun _ => true

/-- The parameters of the machine behind the host's interface. -/
def Config.hardware : Hardware Scalar where
  num := Config.num
  cap := Config.CAP
  stepEps := Config.stepEps.val
  vowelTable := fun v f =>
    ⟨(Config.vowelTable v f).freq, (Config.vowelTable v f).tq, (Config.vowelTable v f).freq_pos,
      (Config.vowelTable v f).tq_pos⟩
  freeDraw := fun unit position => (Config.freeDraw unit position).val
  freeAllocFails := Config.freeAllocFails
  cap_pow := ⟨12, by decide, rfl⟩
  stepEps_nonneg := Config.stepEps.nonneg
  draw_nonneg := fun unit position => (Config.freeDraw unit position).nonneg
  draw_lt_one := fun unit position => (Config.freeDraw unit position).lt_one

end Sys2Proof
end

