-- ==== Sys2Proof/Machine/Lfo.lean ====
section
/-! DEFINITION. Slots 0 and 1 (40_lfo_modulation.md): the six shape operations, the phase advance, the draw. Each meaning is
written once, over the parameters `H` (`Any.exec…`), and then taken at the parameters of the host's machine.
-/

namespace Sys2Proof.Machine

open Sys2Proof

variable {S : Type} [Arith S]

/-- R101. -/
def shapeSin (N : Num S) (p : S) : S := (N.sin p + 1) / 2

/-- R102. -/
def shapeTri [DecidableLT S] (N : Num S) (p : S) : S := if p < N.pi then p / N.pi else 2 - p / N.pi

/-- R103. -/
def shapeRup (N : Num S) (p : S) : S := p / N.twoPi

/-- R104. -/
def shapeRdn (N : Num S) (p : S) : S := 1 - p / N.twoPi

/-- R105. -/
def shapeSqr [DecidableLT S] (N : Num S) (p : S) : S := if p < N.pi then 1 else 0

/-- R100, also the `rinc` of 43_filters_vowel_comb_ring.md R158: `TWO_PI · f / SR`. -/
def phaseInc (N : Num S) (f sr : S) : S := N.twoPi * f / sr

/-- R107 (and 43_filters_vowel_comb_ring.md R160): add, and subtract TWO_PI once on `>=`. -/
def advancePhase [DecidableLE S] (N : Num S) (phase inc : S) : S :=
  if wrapFlag N phase inc then phase + inc - N.twoPi else phase + inc

/-- R108: a draw is made in a wrap step of the sample-and-hold shape, and in no other. -/
def drawDue [DecidableLE S] (N : Num S) (shape : Int) (phase inc : S) : Bool :=
  wrapFlag N phase inc && decide (shape = 5)

/-- A shape operation leaves its raw value to slot 1 and writes no register. -/
def Any.State.passRaw (s : Any.State S) (raw : S) : Any.State S := s.pass { s.blk.wires with raw := raw } .adv

/-- LFO.SIN, R101. -/
def Any.execLfoSin (H : Hardware S) (s : Any.State S) : Any.Outcome S := .next (s.passRaw (shapeSin H.num s.lfo.phase))

/-- LFO.TRI, R102. -/
def Any.execLfoTri [DecidableLT S] (H : Hardware S) (s : Any.State S) : Any.Outcome S :=
  .next (s.passRaw (shapeTri H.num s.lfo.phase))

/-- LFO.RUP, R103. -/
def Any.execLfoRup (H : Hardware S) (s : Any.State S) : Any.Outcome S := .next (s.passRaw (shapeRup H.num s.lfo.phase))

/-- LFO.RDN, R104. -/
def Any.execLfoRdn (H : Hardware S) (s : Any.State S) : Any.Outcome S := .next (s.passRaw (shapeRdn H.num s.lfo.phase))

/-- LFO.SQR, R105. -/
def Any.execLfoSqr [DecidableLT S] (H : Hardware S) (s : Any.State S) : Any.Outcome S :=
  .next (s.passRaw (shapeSqr H.num s.lfo.phase))

/-- LFO.SNH, R106: it uses no parameter. -/
def Any.execLfoSnh (s : Any.State S) : Any.Outcome S := .next (s.passRaw s.lfo.sh)

/-- The LFO registers after slot 1, R107 and R108; `draw` is the answer of the random source should one be due. -/
def lfoAdvance [DecidableLE S] (N : Num S) (l : Latches S) (sr draw : S) (g : LfoRegs S) : LfoRegs S :=
  { g with
    phase := advancePhase N g.phase (phaseInc N l.rate sr)
    sh := if drawDue N l.shape g.phase (phaseInc N l.rate sr) then draw else g.sh }

/-- The random source after slot 1, R108. -/
def lfoDraw [DecidableLE S] (N : Num S) (l : Latches S) (sr : S) (g : LfoRegs S) (r : RandomSource S) : RandomSource S :=
  if drawDue N l.shape g.phase (phaseInc N l.rate sr) then r.consume else r

/-- LFO.ADV, R107 and R108. -/
def Any.execLfoAdv [DecidableLT S] [DecidableLE S] (H : Hardware S) (s : Any.State S) : Any.Outcome S :=
  .next
    { s.pass s.blk.wires .stepq with
      lfo := lfoAdvance H.num s.blk.latches s.sr (s.rnd.answer H s.unit) s.lfo
      rnd := lfoDraw H.num s.blk.latches s.sr s.lfo s.rnd }

/-! ### At the host's interface -/

/-- LFO.SIN of the machine behind the host's interface. -/
def execLfoSin (s : State) : Host.Outcome State Fault Refusal := Any.execLfoSin Config.hardware s

/-- LFO.TRI of the machine behind the host's interface. -/
def execLfoTri (s : State) : Host.Outcome State Fault Refusal := Any.execLfoTri Config.hardware s

/-- LFO.RUP of the machine behind the host's interface. -/
def execLfoRup (s : State) : Host.Outcome State Fault Refusal := Any.execLfoRup Config.hardware s

/-- LFO.RDN of the machine behind the host's interface. -/
def execLfoRdn (s : State) : Host.Outcome State Fault Refusal := Any.execLfoRdn Config.hardware s

/-- LFO.SQR of the machine behind the host's interface. -/
def execLfoSqr (s : State) : Host.Outcome State Fault Refusal := Any.execLfoSqr Config.hardware s

/-- LFO.SNH of the machine behind the host's interface. -/
def execLfoSnh (s : State) : Host.Outcome State Fault Refusal := Any.execLfoSnh s

/-- LFO.ADV of the machine behind the host's interface. -/
def execLfoAdv (s : State) : Host.Outcome State Fault Refusal := Any.execLfoAdv Config.hardware s

end Sys2Proof.Machine
end

