-- ==== Sys2Proof/Machine/Modulation.lean ====
section
/-! DEFINITION. Slots 2 and 3 (40_lfo_modulation.md): the step quantizer and the exponential slew filter.
-/

namespace Sys2Proof.Machine

open Sys2Proof

variable {S : Type} [Arith S]

/-- The hold period, R110: `1 + floor(L_STEP · L_STEP · SR / 2)`. -/
def holdPeriod (N : Num S) (step sr : S) : Nat := (1 + N.floor (step * step * sr / 2)).toNat

/-- The LFO registers after slot 2, R111. -/
def stepQuantize [DecidableLE S] (H : Hardware S) (l : Latches S) (sr raw : S) (g : LfoRegs S) : LfoRegs S :=
  if bypassFlag H l.step then g
  else if latchFlag (g.stepCnt + 1) (holdPeriod H.num l.step sr) then { g with stepCnt := 0, stepVal := raw }
  else { g with stepCnt := g.stepCnt + 1 }

/-- The wire `stepped` of R111, from the registers as slot 2 leaves them. -/
def steppedValue [DecidableLE S] (H : Hardware S) (l : Latches S) (raw : S) (g : LfoRegs S) : S :=
  if bypassFlag H l.step then raw else g.stepVal

/-- STEPQ, R111. -/
def Any.execStepq [DecidableLE S] (H : Hardware S) (s : Any.State S) : Any.Outcome S :=
  let g := stepQuantize H s.blk.latches s.sr s.blk.wires.raw s.lfo
  .next
    { s.pass { s.blk.wires with stepped := steppedValue H s.blk.latches s.blk.wires.raw g } .slew with lfo := g }

/-- The slew coefficient, R112. -/
def slewCoeff (N : Num S) (slew : S) : S := N.pow (lit Config.SLEW_BASE) slew

/-- The new LFO_SMOOTH, R113. -/
def slewStep (smooth stepped sf : S) : S := smooth + (stepped - smooth) * sf

/-- SLEW, R113. -/
def Any.execSlew (H : Hardware S) (s : Any.State S) : Any.Outcome S :=
  let smooth := slewStep s.lfo.smooth s.blk.wires.stepped (slewCoeff H.num s.blk.latches.slew)
  .next
    { s.pass { s.blk.wires with modv := smooth } .cond with lfo := { s.lfo with smooth := smooth } }

/-! ### At the host's interface -/

/-- STEPQ of the machine behind the host's interface. -/
def execStepq (s : State) : Host.Outcome State Fault Refusal := Any.execStepq Config.hardware s

/-- SLEW of the machine behind the host's interface. -/
def execSlew (s : State) : Host.Outcome State Fault Refusal := Any.execSlew Config.hardware s

end Sys2Proof.Machine
end

