-- ==== Sys2Proof/Machine/Conditioner.lean ====
section
/-! DEFINITION. Slot 4, the parameter conditioner (41_conditioner.md).
-/

namespace Sys2Proof.Machine

open Sys2Proof

variable {S : Type} [Arith S]

/-- The conditioned cutoff, R121. -/
def conditionCutoff (l : Latches S) (sr modv : S) : S :=
  clamp (l.cutoff + modv * l.cdepth) (lit Config.CUT_MIN) (lit Config.CUT_MAX_FRAC * sr)

/-- The conditioned resonance, R122. -/
def conditionRes (l : Latches S) (modv : S) : S :=
  clamp (l.res + modv * l.rdepth) (lit Config.RES_MIN) (lit Config.RES_MAX)

/-- The normalized resonance, R123. -/
def normalizeRes (q : S) : S := (q - lit Config.RES_MIN) / lit Config.RES_SPAN

/-- COND, R124: it uses no parameter but the operations of the number system. -/
def Any.execCond (s : Any.State S) : Any.Outcome S :=
  let q := conditionRes s.blk.latches s.blk.wires.modv
  .next
    (s.pass
      { s.blk.wires with
        fc := conditionCutoff s.blk.latches s.sr s.blk.wires.modv, q := q, nres := normalizeRes q }
      .flt)

/-- COND of the machine behind the host's interface. -/
def execCond (s : State) : Host.Outcome State Fault Refusal := Any.execCond s

end Sys2Proof.Machine
end

