-- ==== Sys2Proof/Machine/Filters.lean ====
section
/-! DEFINITION. Slot 5, modes 0, 1 and 2 (42_filters_bq_svf_ladder.md): the biquad lowpass, the state-variable lowpass, the
nonlinear ladder. The formulas that the spec supplies from general knowledge (93_implementation_defined.md G1 to G3) are modelled
as the spec gives them: notes/assumptions/22.md.
-/

namespace Sys2Proof.Machine

open Sys2Proof

variable {S : Type} [Arith S]

/-- A filter operation leaves its wet sample to slot 6. -/
def Any.State.passWet (s : Any.State S) (wet : S) : Any.State S := s.pass { s.blk.wires with wet := wet } .mix

/-! ### Biquad sections -/

/-- The five coefficients of a biquad, `a0` normalised to 1 (00_scope.md R11 "Biquad"). -/
structure Coeffs (S : Type) where
  b0 : S
  b1 : S
  b2 : S
  a1 : S
  a2 : S
  deriving DecidableEq, Repr

/-- `w0 = TWO_PI · f / SR`, R131. -/
def angle (N : Num S) (f sr : S) : S := N.twoPi * f / sr

/-- `alpha = sin(w0) / (2 · Q)`, R131. -/
def alphaOf (N : Num S) (w0 q : S) : S := N.sin w0 / (2 * q)

/-- The lowpass coefficients, R131. -/
def lowpassCoeffs (N : Num S) (sr fc q : S) : Coeffs S where
  b0 := (1 - N.cos (angle N fc sr)) / 2 / (1 + alphaOf N (angle N fc sr) q)
  b1 := (1 - N.cos (angle N fc sr)) / (1 + alphaOf N (angle N fc sr) q)
  b2 := (1 - N.cos (angle N fc sr)) / 2 / (1 + alphaOf N (angle N fc sr) q)
  a1 := -2 * N.cos (angle N fc sr) / (1 + alphaOf N (angle N fc sr) q)
  a2 := (1 - alphaOf N (angle N fc sr) q) / (1 + alphaOf N (angle N fc sr) q)

/-- The output of a transposed direct form II section, R132. -/
def sectionOut (c : Coeffs S) (x : S) (d : Delays S) : S := c.b0 * x + d.z1

/-- Its delay registers afterwards, R132: `Z1` uses the old `Z2`. -/
def sectionNext (c : Coeffs S) (x : S) (d : Delays S) : Delays S where
  z1 := c.b1 * x - c.a1 * sectionOut c x d + d.z2
  z2 := c.b2 * x - c.a2 * sectionOut c x d

/-- FLT.BQ, R132. -/
def Any.execFltBq (H : Hardware S) (s : Any.State S) : Any.Outcome S :=
  let c := lowpassCoeffs H.num s.sr s.blk.wires.fc s.blk.wires.q
  .next { s.passWet (sectionOut c s.blk.wires.x s.bq) with bq := sectionNext c s.blk.wires.x s.bq }

/-! ### State-variable lowpass -/

/-- The integrator gain `g`, R134. -/
def svfGain (N : Num S) (sr fc : S) : S := N.tan (N.pi * fc / sr)

/-- The damping term `R`, R134. -/
def svfDamping (q : S) : S := 1 / (2 * q)

/-- `den`, R134. -/
def svfDen (g r : S) : S := 1 + 2 * r * g + g * g

/-- The highpass tap, R135. -/
def svfHp (g r x : S) (v : SvfRegs S) : S := (x - (2 * r + g) * v.s1 - v.s2) / svfDen g r

/-- The bandpass tap, R135. -/
def svfBp (g r x : S) (v : SvfRegs S) : S := g * svfHp g r x v + v.s1

/-- The lowpass tap, R135: the output. -/
def svfLp (g r x : S) (v : SvfRegs S) : S := g * svfBp g r x v + v.s2

/-- The integrator states afterwards, R135. -/
def svfNext (g r x : S) (v : SvfRegs S) : SvfRegs S where
  s1 := svfBp g r x v + g * svfHp g r x v
  s2 := svfLp g r x v + g * svfBp g r x v

/-- FLT.SVF, R135. -/
def Any.execFltSvf (H : Hardware S) (s : Any.State S) : Any.Outcome S :=
  let g := svfGain H.num s.sr s.blk.wires.fc
  let r := svfDamping s.blk.wires.q
  .next { s.passWet (svfLp g r s.blk.wires.x s.svf) with svf := svfNext g r s.blk.wires.x s.svf }

/-! ### Nonlinear four-stage ladder -/

/-- The stage coefficient `gl`, R137. -/
def ladCoeff (N : Num S) (sr fc : S) : S := 1 - N.exp (-N.twoPi * fc / sr)

/-- The feedback amount `k`, R137. -/
def ladFeedback (nres : S) : S := nres * lit Config.LAD_K

/-- One stage, R138: `s + gl · (tanh(u) − s)`. -/
def ladStage (N : Num S) (gl s u : S) : S := s + gl * (N.tanh u - s)

/-- The stages from one on, R138: each is fed the new output of the one before. -/
def ladCascade (N : Num S) (gl : S) : S → List S → List S
  | _, [] => []
  | u, s :: rest => ladStage N gl s u :: ladCascade N gl (ladStage N gl s u) rest

theorem ladCascade_length (N : Num S) (gl u : S) (r : List S) : (ladCascade N gl u r).length = r.length := by
  induction r generalizing u with
  | nil => rfl
  | cons s rest ih => simp [ladCascade, ih]

/-- The last stage, LAD_S[N_STAGES]. -/
def ladLast (r : LadRegs S) : S := r[Config.N_STAGES - 1]

/-- The stages in order, R138: stage 1 is fed the dry sample less the feedback from the previous step's last stage. -/
def ladNext (N : Num S) (gl k x : S) (r : LadRegs S) : LadRegs S :=
  ⟨(ladCascade N gl (x - k * ladLast r) r.toList).toArray, by simp [ladCascade_length]⟩

/-- FLT.LAD, R138: the output is the new LAD_S[N_STAGES]. -/
def Any.execFltLad (H : Hardware S) (s : Any.State S) : Any.Outcome S :=
  let r := ladNext H.num (ladCoeff H.num s.sr s.blk.wires.fc) (ladFeedback s.blk.wires.nres) s.blk.wires.x s.lad
  .next { s.passWet (ladLast r) with lad := r }

/-! ### At the host's interface -/

/-- FLT.BQ of the machine behind the host's interface. -/
def execFltBq (s : State) : Host.Outcome State Fault Refusal := Any.execFltBq Config.hardware s

/-- FLT.SVF of the machine behind the host's interface. -/
def execFltSvf (s : State) : Host.Outcome State Fault Refusal := Any.execFltSvf Config.hardware s

/-- FLT.LAD of the machine behind the host's interface. -/
def execFltLad (s : State) : Host.Outcome State Fault Refusal := Any.execFltLad Config.hardware s

end Sys2Proof.Machine
end

