-- ==== Sys2Proof/Machine/Resonators.lean ====
section
/-! DEFINITION. Slot 5, modes 3, 4 and 5 (43_filters_vowel_comb_ring.md): the vowel formant bank, the fractional-delay comb, the
ring/amplitude modulator.
-/

namespace Sys2Proof.Machine

open Sys2Proof

variable {S : Type} [Arith S]

/-! ### Vowel formant bank -/

/-- The formant shift `ratio`, R150. -/
def formantRatio (N : Num S) (fc : S) : S := N.pow 2 ((fc - lit Config.VOW_REF) / lit Config.VOW_OCT)

/-- The shifted centre frequency `ff`, clamped below Nyquist, R150. -/
def formantFreq (N : Num S) (sr fc : S) (e : Formant S) : S := min (e.freq * formantRatio N fc) (lit Config.CUT_MAX_FRAC * sr)

/-- `Qf`, R150. -/
def formantQ (q : S) (e : Formant S) : S := e.tq * q * lit Config.VOW_QSCALE

/-- The bandpass coefficients of centre frequency `f` and quality factor `q`, R150. -/
def bandpassCoeffs (N : Num S) (sr f q : S) : Coeffs S where
  b0 := alphaOf N (angle N f sr) q / (1 + alphaOf N (angle N f sr) q)
  b1 := 0
  b2 := -alphaOf N (angle N f sr) q / (1 + alphaOf N (angle N f sr) q)
  a1 := -2 * N.cos (angle N f sr) / (1 + alphaOf N (angle N f sr) q)
  a2 := (1 - alphaOf N (angle N f sr) q) / (1 + alphaOf N (angle N f sr) q)

/-- The coefficients of formant `f` of preset `v`, R150: the entry is `MemRead(VOWEL, [v][f])`. -/
def formantCoeffs (H : Hardware S) (sr fc q : S) (v : Fin Config.N_VOWELS) (f : Fin Config.N_FORMANTS) : Coeffs S :=
  bandpassCoeffs H.num sr (formantFreq H.num sr fc (H.vowelTable v f)) (formantQ q (H.vowelTable v f))

/-- The gain compensation, R151. -/
def formantGain (nres : S) : S := 1 + lit Config.VOW_GAIN * nres

/-- The sum of the sections in formant order, starting from 0, R152. -/
def formantSum (H : Hardware S) (sr fc q x : S) (v : Fin Config.N_VOWELS) (z : FmtRegs S) : S :=
  (List.finRange Config.N_FORMANTS).foldl (fun acc f => acc + sectionOut (formantCoeffs H sr fc q v f) x z[f]) 0

/-- FMT_Z afterwards, R152. -/
def formantNext (H : Hardware S) (sr fc q x : S) (v : Fin Config.N_VOWELS) (z : FmtRegs S) : FmtRegs S :=
  Vector.ofFn (fun f => sectionNext (formantCoeffs H sr fc q v f) x z[f])

/-- FLT.VOW, R152. A vowel outside 0..4 cannot be latched (45_lifecycle_commands.md R188, check 6); in a state that no run
reaches it is the reserved selector of 30_encoding.md R78. -/
def Any.execFltVow (H : Hardware S) (s : Any.State S) : Any.Outcome S :=
  match vowelRow s.blk.latches.vowel with
  | none => Any.raise (.reservedSelector .vowel s.blk.latches.vowel) s
  | some v =>
    .next
      { s.passWet
          (formantSum H s.sr s.blk.wires.fc s.blk.wires.q s.blk.wires.x v s.fmt * formantGain s.blk.wires.nres) with
        fmt := formantNext H s.sr s.blk.wires.fc s.blk.wires.q s.blk.wires.x v s.fmt }

/-! ### Fractional-delay comb filter -/

/-- The delay in samples, R154. -/
def combDelay (sr fc : S) (cap : Nat) : S := clamp (sr / fc) 1 (ofInt ((cap : Int) - 1))

/-- The interpolated delayed sample `dl`, R155: `floor` toward −∞, the two neighbouring slots on the ring. -/
def combDelayed (N : Num S) (cap : Nat) (delay : S) (c : CombRegs S) : S :=
  let rp := ofInt (c.w : Int) - delay
  let i0 := N.floor rp
  let frac := rp - ofInt i0
  let s0 := c.read (residue i0 cap)
  let s1 := c.read (residue (i0 + 1) cap)
  s0 + frac * (s1 - s0)

/-- The feedback coefficient, R156. -/
def combFeedback (nres : S) : S := lit Config.COMB_FB * nres

/-- The output, which is also the value stored, R156. -/
def combOut (N : Num S) (cap : Nat) (sr fc nres x : S) (c : CombRegs S) : S :=
  x + combFeedback nres * combDelayed N cap (combDelay sr fc cap) c

/-- The store at the cursor and the cursor's advance, R156. -/
def combNext [DecidableEq S] (cap : Nat) (y : S) (c : CombRegs S) : CombRegs S where
  buf := Memory.write combUnlisted c.buf c.w y
  w := (c.w + 1) % cap

/-- FLT.COMB, R156. -/
def Any.execFltComb [DecidableEq S] (H : Hardware S) (s : Any.State S) : Any.Outcome S :=
  let y := combOut H.num s.cap s.sr s.blk.wires.fc s.blk.wires.nres s.blk.wires.x s.comb
  .next { s.passWet y with comb := combNext s.cap y s.comb }

/-! ### Ring / amplitude modulator -/

/-- The bipolar signal, R158. -/
def ringSignal (N : Num S) (phase : S) : S := N.sin phase

/-- Its unipolar rescaling, R158. -/
def amSignal (N : Num S) (phase : S) : S := (ringSignal N phase + 1) / 2

/-- The crossfaded modulator, R159. -/
def ringModulator (N : Num S) (phase nres : S) : S := (1 - nres) * amSignal N phase + nres * ringSignal N phase

/-- FLT.RING, R160: the oscillator is read, then advanced. -/
def Any.execFltRing [DecidableLE S] (H : Hardware S) (s : Any.State S) : Any.Outcome S :=
  .next
    { s.passWet (s.blk.wires.x * ringModulator H.num s.ringPhase s.blk.wires.nres) with
      ringPhase := advancePhase H.num s.ringPhase (phaseInc H.num s.blk.wires.fc s.sr) }

/-! ### At the host's interface -/

/-- FLT.VOW of the machine behind the host's interface. -/
def execFltVow (s : State) : Host.Outcome State Fault Refusal :=
  Any.execFltVow Config.hardware s

/-- FLT.COMB of the machine behind the host's interface. -/
def execFltComb (s : State) : Host.Outcome State Fault Refusal :=
  Any.execFltComb Config.hardware s

/-- FLT.RING of the machine behind the host's interface. -/
def execFltRing (s : State) : Host.Outcome State Fault Refusal :=
  Any.execFltRing Config.hardware s

end Sys2Proof.Machine
end

