-- ==== Sys2Proof/Machine/Mixer.lean ====
section
/-! DEFINITION. Slot 6, the mixer (44_mixer_and_sample_step.md R170).
-/

namespace Sys2Proof.Machine

open Sys2Proof

variable {S : Type} [Arith S]

/-- `out`, R170. -/
def mixOut (mix wet x : S) : S := mix * wet + (1 - mix) * x

/-- `MemWrite(AOUT_L, n, out)`, `MemWrite(AOUT_R, n, out)`, R170: the same scalar to both streams. -/
def Any.State.writeOut [DecidableEq S] (s : Any.State S) (left right : Source) (n : Nat) (out : S) : Any.State S :=
  (s.hostWrite (left.base + n) (.value out)).hostWrite (right.base + n) (.value out)

/-- MIX, R170: it writes no register. An unbound output port is reached in no run (45_lifecycle_commands.md R188, check 3). -/
def Any.execMix [DecidableEq S] (s : Any.State S) : Any.Outcome S :=
  match s.ports.aoutL, s.ports.aoutR with
  | none, _ => Any.raise (.unboundPort .aoutL) s
  | some _, none => Any.raise (.unboundPort .aoutR) s
  | some left, some right =>
    .next (s.writeOut left right s.blk.n (mixOut s.blk.latches.mix s.blk.wires.wet s.blk.wires.x))

/-- MIX of the machine behind the host's interface. -/
def execMix (s : State) : Host.Outcome State Fault Refusal :=
  Any.execMix s

end Sys2Proof.Machine
end

