-- ==== Sys2Proof/Machine/Lifecycle.lean ====
section
/-! DEFINITION. The lifecycle commands (45_lifecycle_commands.md).
-/

namespace Sys2Proof.Machine

open Sys2Proof

variable {S : Type} [Arith S]

/-- The least sample rate a CREATE admits (00_scope.md R6, 92_eei_decisions.md D23). -/
def leastSampleRate : S := lit Config.CUT_MIN / lit Config.CUT_MAX_FRAC

/-- CREATE, R185: lifecycle before sample rate, both before the allocation may fail (60_exceptions.md R213). -/
def Any.execCreate [DecidableLE S] (H : Hardware S) (sr : Sample S) (s : Any.State S) : Any.Outcome S :=
  if s.admits [.absent] then
    match sr.scalar? H.num with
    | none => Any.raise .badSampleRate s
    | some v =>
      if leastSampleRate ≤ v then
        if s.alloc.fails H s.unit then .next { s with alloc := s.alloc.consume, outcome := .createFailed }
        else .next { s.created H v with alloc := s.alloc.consume }
      else Any.raise .badSampleRate s
  else Any.raise .badLifecycle s

/-- BIND, R186. -/
def Any.execBind (port : Port) (source : Source) (s : Any.State S) : Any.Outcome S :=
  if s.admits [.inactive, .active] then Any.raise .ok { s with ports := s.ports.set port (some source) }
  else Any.raise .badLifecycle s

/-- ACTIVATE, R187. -/
def Any.execActivate (s : Any.State S) : Any.Outcome S :=
  if s.admits [.inactive, .active] then Any.raise .ok { s.zeroRegs with life := .active }
  else Any.raise .badLifecycle s

/-- Check 3 of R188 looks at every port, in the order of the port numbers (the order is the model's, notes/assumptions/14.md). -/
def Ports.firstUnbound (p : Ports) : Option Port := Port.all.find? (fun port => !p.bound port)

/-- The admission checks of PROCESS in the order of R188: the cause that ends the command, or the latches. -/
def Any.State.admission [DecidableLT S] [DecidableLE S] (N : Num S) (s : Any.State S) (count : Nat) : Except Cause (Latches S) :=
  if !s.admits [.active] then .error .badLifecycle
  else if s.ports.skipFlag then .error .skipped
  else
    match s.ports.firstUnbound with
    | some port => .error (.unboundPort port)
    | none =>
      if !s.ports.streamsOk count then .error .badStreams
      else
        match s.latch N, s.inputsFinite N count with
        | none, _ => .error .nonFinite
        | some _, false => .error .nonFinite
        | some l, true =>
          match l.firstReserved with
          | some (selector, value) => .error (.reservedSelector selector value)
          | none => if rateAdmitted l.rate s.sr then .ok l else .error .rateOutOfRange

/-- PROCESS, R188 and R189: the checks, the latches, then the block loop of 44_mixer_and_sample_step.md R172, whose sample steps are
the next `N` steps of the machine (70_reset_and_hazards.md R245). With `N = 0` the command is over at once. -/
def Any.execProcess [DecidableLT S] [DecidableLE S] (H : Hardware S) (count : Nat) (s : Any.State S) : Any.Outcome S :=
  match s.admission H.num count with
  | .error c => Any.raise c s
  | .ok latches => .next (s.startBlock latches count)

/-- DEACTIVATE, R190: changes nothing but LIFE. -/
def Any.execDeactivate (s : Any.State S) : Any.Outcome S :=
  if s.admits [.active] then Any.raise .ok { s with life := .inactive }
  else Any.raise .badLifecycle s

/-- DESTROY, R191. -/
def Any.execDestroy (H : Hardware S) (s : Any.State S) : Any.Outcome S :=
  if s.admits [.inactive, .active] then Any.raise .ok (s.destroyed H)
  else Any.raise .badLifecycle s

/-! ### At the host's interface -/

/-- CREATE of the machine behind the host's interface. -/
def execCreate (sr : Sample Scalar) (s : State) : Host.Outcome State Fault Refusal :=
  Any.execCreate Config.hardware sr s

/-- BIND of the machine behind the host's interface. -/
def execBind (port : Port) (source : Source) (s : State) : Host.Outcome State Fault Refusal :=
  Any.execBind port source s

/-- ACTIVATE of the machine behind the host's interface. -/
def execActivate (s : State) : Host.Outcome State Fault Refusal :=
  Any.execActivate s

/-- PROCESS of the machine behind the host's interface. -/
def execProcess (count : Nat) (s : State) : Host.Outcome State Fault Refusal :=
  Any.execProcess Config.hardware count s

/-- DEACTIVATE of the machine behind the host's interface. -/
def execDeactivate (s : State) : Host.Outcome State Fault Refusal :=
  Any.execDeactivate s

/-- DESTROY of the machine behind the host's interface. -/
def execDestroy (s : State) : Host.Outcome State Fault Refusal :=
  Any.execDestroy Config.hardware s

end Sys2Proof.Machine
end

