-- ==== Sys2Proof/Machine/Dispatch.lean ====
section
/-! DEFINITION. One arm per instruction.
-/

namespace Sys2Proof.Machine

open Sys2Proof

def exec (i : Instr) (s : State) : Host.Outcome State Fault Refusal :=
  match i with
  | .create sr => Sys2Proof.Machine.execCreate sr s
  | .bind port source => Sys2Proof.Machine.execBind port source s
  | .activate => Sys2Proof.Machine.execActivate s
  | .process count => Sys2Proof.Machine.execProcess count s
  | .deactivate => Sys2Proof.Machine.execDeactivate s
  | .destroy => Sys2Proof.Machine.execDestroy s
  | .lfoSin => Sys2Proof.Machine.execLfoSin s
  | .lfoTri => Sys2Proof.Machine.execLfoTri s
  | .lfoRup => Sys2Proof.Machine.execLfoRup s
  | .lfoRdn => Sys2Proof.Machine.execLfoRdn s
  | .lfoSqr => Sys2Proof.Machine.execLfoSqr s
  | .lfoSnh => Sys2Proof.Machine.execLfoSnh s
  | .fltBq => Sys2Proof.Machine.execFltBq s
  | .fltSvf => Sys2Proof.Machine.execFltSvf s
  | .fltLad => Sys2Proof.Machine.execFltLad s
  | .fltVow => Sys2Proof.Machine.execFltVow s
  | .fltComb => Sys2Proof.Machine.execFltComb s
  | .fltRing => Sys2Proof.Machine.execFltRing s
  | .lfoAdv => Sys2Proof.Machine.execLfoAdv s
  | .stepq => Sys2Proof.Machine.execStepq s
  | .slew => Sys2Proof.Machine.execSlew s
  | .cond => Sys2Proof.Machine.execCond s
  | .mix => Sys2Proof.Machine.execMix s

end Sys2Proof.Machine
end

