-- ==== Sys2Proof/Machine/Uniform.lean ====
section
/-! DEFINITION. The meaning of every instruction over the parameters of 00_scope.md R6 as an argument. The host's `exec`
(Dispatch.lean) is this at the parameters of the host's machine; the reference instantiation is this at the reals (Reference.lean).
-/

namespace Sys2Proof.Machine

open Sys2Proof

variable {S : Type} [Arith S]

/-- The meaning of an instruction. -/
def Any.exec [DecidableLT S] [DecidableLE S] [DecidableEq S] (H : Hardware S) (i : Instr S) (s : Any.State S) : Any.Outcome S :=
  match i with
  | .create sr => Any.execCreate H sr s
  | .bind port source => Any.execBind port source s
  | .activate => Any.execActivate s
  | .process count => Any.execProcess H count s
  | .deactivate => Any.execDeactivate s
  | .destroy => Any.execDestroy H s
  | .lfoSin => Any.execLfoSin H s
  | .lfoTri => Any.execLfoTri H s
  | .lfoRup => Any.execLfoRup H s
  | .lfoRdn => Any.execLfoRdn H s
  | .lfoSqr => Any.execLfoSqr H s
  | .lfoSnh => Any.execLfoSnh s
  | .fltBq => Any.execFltBq H s
  | .fltSvf => Any.execFltSvf H s
  | .fltLad => Any.execFltLad H s
  | .fltVow => Any.execFltVow H s
  | .fltComb => Any.execFltComb H s
  | .fltRing => Any.execFltRing H s
  | .lfoAdv => Any.execLfoAdv H s
  | .stepq => Any.execStepq H s
  | .slew => Any.execSlew H s
  | .cond => Any.execCond s
  | .mix => Any.execMix s

end Sys2Proof.Machine
end

