-- ==== Sys2Proof/Machine/Fetch.lean ====
section
/-! DEFINITION. What the machine does in one step: a whole sample step of the running block (44_mixer_and_sample_step.md R171,
70_reset_and_hazards.md R245), or, when no block runs, the next move of the host (20_memory.md R61, 70_reset_and_hazards.md R236 to
R238).
-/

namespace Sys2Proof.Machine

open Sys2Proof

variable {S : Type} [Arith S]

/-- The SLOT number, 30_encoding.md R79. -/
def Slot.number : Slot → BitVec 3
  | .lfo => 0 | .adv => 1 | .stepq => 2 | .slew => 3 | .cond => 4 | .flt => 5 | .mix => 6

/-- How many of the seven operations of a sample step are left at a slot, its own counted. -/
def Slot.left : Slot → Nat
  | .lfo => 7 | .adv => 6 | .stepq => 5 | .slew => 4 | .cond => 3 | .flt => 2 | .mix => 1

/-- The code of the operation in a block's slot, 30_encoding.md R79: in slot 0 the SHAPE field of `L_SHAPE`, in slot 5 the MODE
field of `L_MODE`, else the SLOT number. None where the selector has no field. -/
def Block.code (b : Block S) : Option (Code S) :=
  match b.slot with
  | .lfo => (selectorField b.latches.shape).map Code.shape
  | .flt => (selectorField b.latches.mode).map Code.mode
  | slot => some (.slot slot.number)

/-- The selector that picks the operation of a block's slot, for the report of 30_encoding.md R78. A reserved selector is not
latched in any run (45_lifecycle_commands.md R188, check 6). -/
def Block.selectorCause (b : Block S) : Cause :=
  match b.slot with
  | .flt => .reservedSelector .mode b.latches.mode
  | _ => .reservedSelector .shape b.latches.shape

/-! ### A sample step -/

/-- The operation of a block's slot, by the given meanings: the two dispatches of 44_mixer_and_sample_step.md R173 (b). -/
def runOperation (meaning : Instr S → Any.State S → Any.Outcome S) (s : Any.State S) : Any.Outcome S :=
  match s.blk.code with
  | none => Any.raise s.blk.selectorCause s
  | some c =>
    match decode c with
    | .ok i => meaning i s
    | .error _ => Any.raise s.blk.selectorCause s

/-- That many operations of a block, in slot order. -/
def runSlots (meaning : Instr S → Any.State S → Any.Outcome S) : Nat → Any.State S → Any.Outcome S
  | 0, s => .next s
  | k + 1, s => Any.andThen (runOperation meaning s) (runSlots meaning k)

/-- "One architectural step per sample; all seven slots of a step complete within it" (70_reset_and_hazards.md R245): the dry sample is
read, the operations from the block's slot on run, which between steps is slot 0, and the sample index advances
(44_mixer_and_sample_step.md R171). -/
def stepSample (meaning : Instr S → Any.State S → Any.Outcome S) (N : Num S) (s : Any.State S) : Any.Outcome S :=
  Any.andThen (s.beginSample N) fun t =>
    Any.andThen (runSlots meaning s.blk.slot.left t) fun u => .next u.endSample

/-! ### A move of the host -/

/-- How the step refuses a command that its decoder rejects (30_encoding.md R81, 60_exceptions.md R201). -/
def commandRefusal : CmdError → Refusal
  | .reservedCommand c => .reservedCommand c
  | .reservedPort p => .badPort p
  | .badOperands c => .badOperands c

/-- One move of the host, with commands run by the given meanings; without one nothing changes ("nothing wakes the core but a
command", 60_exceptions.md R222). -/
def stepMove [DecidableEq S] (meaning : Instr S → Any.State S → Any.Outcome S) (s : Any.State S) : Any.Outcome S :=
  match s.queue with
  | [] => .next s
  | .store a v :: rest => .next ({ s with queue := rest }.hostWrite a v)
  | .draws answers :: rest => .next { s with queue := rest, rnd := { s.rnd with fixed := s.rnd.fixed ++ answers } }
  | .allocs answers :: rest => .next { s with queue := rest, alloc := { s.alloc with fixed := s.alloc.fixed ++ answers } }
  | .command c operands :: rest =>
    match decodeCmd c operands with
    | .ok i => meaning i { s with queue := rest }
    | .error e => .refused (commandRefusal e)

/-- One step by the given meanings: a running block goes on to its end before the host's next move is looked at
(70_reset_and_hazards.md R236 to R238). -/
def stepBy [DecidableEq S] (meaning : Instr S → Any.State S → Any.Outcome S) (N : Num S) (s : Any.State S) : Any.Outcome S :=
  if s.blk.running then stepSample meaning N s else stepMove meaning s

/-- One step of the machine over the parameters of 00_scope.md R6. -/
def Any.step [DecidableLT S] [DecidableLE S] [DecidableEq S] (H : Hardware S) (s : Any.State S) : Any.Outcome S :=
  stepBy (Any.exec H) H.num s

/-! ### Placing an instruction -/

/-- A command is put before the host's other moves, and no block runs. -/
def Any.State.withCommand (s : Any.State S) (c : BitVec 3) (operands : List (Operand S)) : Any.State S :=
  { s with queue := .command c operands :: s.queue, blk := { s.blk with running := false } }

/-- A block of one sample is running and stands at a slot; each audio port has a stream. -/
def Any.State.atSlot (s : Any.State S) (slot : Slot) (latches : Latches S) : Any.State S :=
  { s with
    blk := ⟨true, latches, 0, 1, slot, s.blk.wires⟩
    ports := { s.ports with
      ain := some (s.ports.ain.getD ⟨0, 1⟩)
      aoutL := some (s.ports.aoutL.getD ⟨0, 1⟩)
      aoutR := some (s.ports.aoutR.getD ⟨0, 1⟩) } }

/-- The slot of a SLOT number; number 0 and numbers above 6 stand for slot 0. -/
def slotOfNumber (n : BitVec 3) : Slot :=
  match n.toNat with
  | 1 => .adv
  | 2 => .stepq
  | 3 => .slew
  | 4 => .cond
  | 5 => .flt
  | 6 => .mix
  | _ => .lfo

/-- The code placed where the next step runs it first: a command at the head of the host's moves, a shape, mode or slot code as
the slot and selectors of a running block, whose sample step goes on from there to its end (notes/assumptions/4.md, 5.md). -/
def Any.State.withCode (s : Any.State S) (code : Code S) : Any.State S :=
  match code with
  | .cmd c operands => s.withCommand c operands
  | .shape k => s.atSlot .lfo { s.blk.latches with shape := k.toNat }
  | .mode k => s.atSlot .flt { s.blk.latches with mode := k.toNat }
  | .slot k => s.atSlot (slotOfNumber k) s.blk.latches

end Sys2Proof.Machine
end

