-- ==== Sys2Proof/Machine/Step.lean ====
section
/-! DEFINITION. The step, and the place of the next instruction.
-/

namespace Sys2Proof.Machine

open Sys2Proof

/-- One step of the machine: one sample step of the running block, or one move of the host. -/
def step (s : State) : Host.Outcome State Fault Refusal := stepBy exec Config.num s

/-- The instruction that a word of the opcode table stands for, placed so that the next step runs it: a command alone, an operation
of the per-sample sequence as the first of its sample step. A word that the table's numbering does not spell changes nothing. -/
def State.withFetchWord (s : State) (nbits w : Nat) : State :=
  match tableCode nbits w with
  | none => s
  | some code => s.withCode code

end Sys2Proof.Machine
end

