-- ==== Sys2Proof/Machine/Pseudo.lean ====
section
/-! DEFINITION. The pseudo-instructions of the assembler notation (30_encoding.md R82) as the host moves they expand to. The cells
in which the host keeps the values are the host's choice, so they are operands here.
-/

namespace Sys2Proof.Machine

open Sys2Proof

variable {S : Type} [Arith S]

/-- The command `BIND port, source`. -/
def bindMove (port : Port) (source : Source) : HostMove S :=
  .command 1 [.port (portNumber port), encodeSource port source]

/-- `BIND <port-name> = <scalar>`, and `SET <port-name>, <scalar>`: a constant value source in the cell `a`. -/
def setMoves (port : Port) (a : Nat) (v : Sample S) : List (HostMove S) := [.store a v, bindMove port ⟨a, 1⟩]

/-- Samples stored from the cell `a` on. -/
def storeMoves : Nat → List (Sample S) → List (HostMove S)
  | _, [] => []
  | a, v :: rest => .store a v :: storeMoves (a + 1) rest

/-- `BIND P_AIN = [x0, …]`: a stream with these samples, from the cell `a` on. -/
def inputMoves (a : Nat) (xs : List (Sample S)) : List (HostMove S) := storeMoves a xs ++ [bindMove .ain ⟨a, xs.length⟩]

/-- `RUN [x0, …, xk]`: `BIND P_AIN`, then `PROCESS N=k+1`. -/
def runMoves (a : Nat) (xs : List (Sample S)) : List (HostMove S) :=
  inputMoves a xs ++ [.command 3 [.natural xs.length]]

/-- The selector value of an operation's mnemonic: the field of its MODE or SHAPE code (30_encoding.md R75, R76). -/
def selectorValue (i : Instr S) : Option (Port × Nat) :=
  match encode i with
  | .mode m => some (.mode, m.toNat)
  | .shape s => some (.shape, s.toNat)
  | .slot _ => none
  | .cmd _ _ => none

/-- `SELECT mode=<mnemonic>` and `SELECT shape=<mnemonic>`; nothing for an operation that no selector picks. -/
def selectMoves (i : Instr S) (a : Nat) : List (HostMove S) :=
  match selectorValue i with
  | none => []
  | some (port, k) => setMoves port a (.value (ofInt k))

/-- `SELECT vowel=<0..4>`. -/
def selectVowelMoves (v : Fin Config.N_VOWELS) (a : Nat) : List (HostMove S) := setMoves .vowel a (.value (ofInt v.val))

end Sys2Proof.Machine
end

