-- ==== Sys2Proof/Machine/Sample.lean ====
section
/-! DEFINITION. One sample step and a whole block as the spec writes them (44_mixer_and_sample_step.md R171, R172): the clear
form, over registers and streams alone, without wires in the state. The step of the machine, which runs the seven operations as
instructions, is compared with it.
-/

namespace Sys2Proof.Machine

open Sys2Proof

variable {S : Type} [Arith S]

/-- Slot 0 of R171: exactly one shape, by `L_SHAPE`. None for a reserved shape. -/
def shapeRaw [DecidableLT S] (N : Num S) (shape : Int) (g : LfoRegs S) : Option S :=
  if shape = 0 then some (shapeSin N g.phase)
  else if shape = 1 then some (shapeTri N g.phase)
  else if shape = 2 then some (shapeRup N g.phase)
  else if shape = 3 then some (shapeRdn N g.phase)
  else if shape = 4 then some (shapeSqr N g.phase)
  else if shape = 5 then some g.sh
  else none

/-- Slots 1 to 3 of R171 on the LFO registers: advance and draw, step quantizer, slew; `draw` is the answer of the random source
should one be due. -/
def modulate [DecidableLE S] (H : Hardware S) (l : Latches S) (sr raw draw : S) (g : LfoRegs S) : LfoRegs S :=
  let g2 := stepQuantize H l sr raw (lfoAdvance H.num l sr draw g)
  { g2 with smooth := slewStep g2.smooth (steppedValue H l raw g2) (slewCoeff H.num l.slew) }

/-- Slot 5 of R171: exactly one filter unit, by `L_MODE`, with the wet sample. None for a reserved mode or vowel. -/
def filterUnit [DecidableLE S] [DecidableEq S] (H : Hardware S) (l : Latches S) (fc q nres x : S) (s : Any.State S) :
    Option (S × Any.State S) :=
  if l.mode = 0 then
    some (sectionOut (lowpassCoeffs H.num s.sr fc q) x s.bq, { s with bq := sectionNext (lowpassCoeffs H.num s.sr fc q) x s.bq })
  else if l.mode = 1 then
    some (svfLp (svfGain H.num s.sr fc) (svfDamping q) x s.svf,
      { s with svf := svfNext (svfGain H.num s.sr fc) (svfDamping q) x s.svf })
  else if l.mode = 2 then
    some (ladLast (ladNext H.num (ladCoeff H.num s.sr fc) (ladFeedback nres) x s.lad),
      { s with lad := ladNext H.num (ladCoeff H.num s.sr fc) (ladFeedback nres) x s.lad })
  else if l.mode = 3 then
    match vowelRow l.vowel with
    | none => none
    | some v => some (formantSum H s.sr fc q x v s.fmt * formantGain nres, { s with fmt := formantNext H s.sr fc q x v s.fmt })
  else if l.mode = 4 then
    some (combOut H.num s.cap s.sr fc nres x s.comb,
      { s with comb := combNext s.cap (combOut H.num s.cap s.sr fc nres x s.comb) s.comb })
  else if l.mode = 5 then
    some (x * ringModulator H.num s.ringPhase nres, { s with ringPhase := advancePhase H.num s.ringPhase (phaseInc H.num fc s.sr) })
  else none

/-- Slot 6 of R171 (R170): the mixed sample to both outputs at index `n`. None for an unbound output. -/
def mixTo [DecidableEq S] (l : Latches S) (n : Nat) (wet x : S) (s : Any.State S) : Option (Any.State S) :=
  match s.ports.aoutL, s.ports.aoutR with
  | some left, some right => some (s.writeOut left right n (mixOut l.mix wet x))
  | _, _ => none

/-- One sample step, R171, on the dry sample `x`. -/
def sampleStep [DecidableLT S] [DecidableLE S] [DecidableEq S] (H : Hardware S) (l : Latches S) (n : Nat) (x : S)
    (s : Any.State S) : Option (Any.State S) := do
  let raw ← shapeRaw H.num l.shape s.lfo
  let g := modulate H l s.sr raw (s.rnd.answer H s.unit) s.lfo
  let fc := conditionCutoff l s.sr g.smooth
  let q := conditionRes l g.smooth
  let (wet, t) ← filterUnit H l fc q (normalizeRes q) x { s with lfo := g, rnd := lfoDraw H.num l s.sr s.lfo s.rnd }
  mixTo l n wet x t

/-- `k` sample steps from index `n` on, each on the sample it finds in AIN (R172). -/
def runSamples [DecidableLT S] [DecidableLE S] [DecidableEq S] (H : Hardware S) (l : Latches S) :
    Nat → Nat → Any.State S → Option (Any.State S)
  | _, 0, s => some s
  | n, k + 1, s =>
    match s.readIn H.num n with
    | .error _ => none
    | .ok x =>
      match sampleStep H l n x s with
      | none => none
      | some t => runSamples H l (n + 1) k t

end Sys2Proof.Machine
end

