-- ==== Sys2Proof/Machine/Reference.lean ====
section
/-! DEFINITION. The reference instantiation of 00_scope.md R6 and R9: the exact real numbers with the exact functions. It cannot be
evaluated (the order of the reals is not decidable by computation), so the host's interface does not run it; statements about
numbers are stated of it.
-/

namespace Sys2Proof

open Sys2Proof.Machine

/-- 00_scope.md R9, the column "meaning in the reference instantiation". `pow(b, e)` is `exp(e · ln b)` for `b > 0`. -/
noncomputable def Reference.num : Num ℝ where
  floor := Int.floor
  rnd := nearest Int.floor
  sin := Real.sin
  cos := Real.cos
  tan := Real.tan
  tanh := Real.tanh
  exp := Real.exp
  pow := fun b e => Real.exp (e * Real.log b)
  pi := Real.pi
  twoPi := 2 * Real.pi
  isFinite := fun _ => true

/-- A machine on the reals: NUM is the reference; the parameters that 00_scope.md R6 leaves open (STEP_EPS, VOWEL_TABLE, RND) and
CAP stay what they are. -/
abbrev Hardware.IsReference (H : Hardware ℝ) : Prop := H.num = Reference.num

end Sys2Proof
end

