-- ==== Sys2Proof/Safety.lean ====
section
/-! DEFINITION. What holds in every state that a run reaches: the invariants of 10_state.md R39 and R27, the legal values of R21,
R24, R29 and R30, and what the checks of PROCESS (45_lifecycle_commands.md R188) leave true for the whole block. What rests on no law
of the number system (`Sound`) and what rests on the exact reals (`InRange`) stand apart.
-/

namespace Sys2Proof.Machine

open Sys2Proof

variable {S : Type} [Arith S]

/-! ### On any number system -/

/-- 10_state.md R29, R39 (b): the cursor below CAP, the buffer in canonical form with every slot below CAP. -/
def CombRegs.legal [DecidableEq S] (cap : Nat) (c : CombRegs S) : Prop :=
  c.w < cap ∧ Memory.wf combUnlisted c.buf = true ∧ ∀ cell ∈ c.buf, cell.1 < cap

/-- Registers, buffer and bindings of an instance that does not exist (45_lifecycle_commands.md R191). -/
def Any.State.nothingHeld (s : Any.State S) : Prop := s.zeroRegs = s ∧ s.ports = .none ∧ s.sr = 0

/-- Legal selectors (30_encoding.md R75 to R77). -/
def Latches.legal (l : Latches S) : Prop :=
  (0 ≤ l.mode ∧ l.mode < Config.N_MODES) ∧ (0 ≤ l.shape ∧ l.shape < Config.N_SHAPES) ∧
    (0 ≤ l.vowel ∧ l.vowel < Config.N_VOWELS)

/-- What the checks of PROCESS leave true for every step of its block, and that the block stands between two sample steps: at slot 0
(10_state.md R23), with no wire kept (00_scope.md R8). The samples not yet read are finite. -/
structure Any.State.BlockLegal (N : Num S) (s : Any.State S) : Prop where
  active : s.life = .active
  index : s.blk.n < s.blk.len
  slot : s.blk.slot = .lfo
  wires : s.blk.wires = .zero
  selectors : s.blk.latches.legal
  rate : 0 ≤ s.blk.latches.rate ∧ s.blk.latches.rate < s.sr
  bound : ∀ port : Port, s.ports.bound port = true
  streams : s.ports.streamsOk s.blk.len = true
  inputs : ∀ k : Nat, s.blk.n ≤ k → k < s.blk.len → ∃ x : S, s.readIn N k = .ok x

/-- The part of the invariant that holds on every number system. -/
structure Any.State.Sound [DecidableEq S] (H : Hardware S) (s : Any.State S) : Prop where
  capacity : s.cap = H.cap
  sampleRate : s.life ≠ .absent → leastSampleRate ≤ s.sr
  absent : s.life = .absent → s.nothingHeld
  comb : s.comb.legal s.cap
  host : Memory.wf hostUnlisted s.host = true
  idle : s.blk.running = false → s.blk = .idle
  block : s.blk.running = true → s.BlockLegal H.num

/-! ### On the reals -/

/-- 10_state.md R24, R39 (c): LFO_PHASE in [0, TWO_PI), LFO_SH in [0, 1). -/
def LfoRegs.legal (g : LfoRegs ℝ) : Prop := 0 ≤ g.phase ∧ g.phase < 2 * Real.pi ∧ 0 ≤ g.sh ∧ g.sh < 1

/-- 10_state.md R27: every ladder register in [−1, 1]. -/
def LadRegs.bounded (r : LadRegs ℝ) : Prop := ∀ u ∈ r.toList, -1 ≤ u ∧ u ≤ 1

/-- 41_conditioner.md R121 to R123: what slot 4 leaves to the filter unit. -/
def Wires.conditioned (w : Wires ℝ) (sr : ℝ) : Prop :=
  20 ≤ w.fc ∧ w.fc ≤ 49 / 100 * sr ∧ 707 / 1000 ≤ w.q ∧ w.q ≤ 20 ∧ w.nres = normalizeRes w.q

/-- The part of the invariant that holds of the exact reals. -/
structure Any.State.InRange (s : Any.State ℝ) : Prop where
  lfo : s.lfo.legal
  lad : LadRegs.bounded s.lad
  ring : 0 ≤ s.ringPhase ∧ s.ringPhase < 2 * Real.pi

/-- The whole invariant, on the reals. -/
def Any.State.Inv (H : Hardware ℝ) (s : Any.State ℝ) : Prop := s.Sound H ∧ s.InRange

/-! ### Terms of the claims -/

/-- The persistent registers of 10_state.md R24 to R30. -/
def Any.State.sameRegisters (s t : Any.State S) : Prop :=
  t.lfo = s.lfo ∧ t.bq = s.bq ∧ t.svf = s.svf ∧ t.lad = s.lad ∧ t.fmt = s.fmt ∧ t.comb = s.comb ∧
    t.ringPhase = s.ringPhase

/-- Every register of 10_state.md R25 to R29 that holds a signal is 0; RING_PHASE and COMB_W, which advance in modes 5 and 4
whatever the signal is, are not looked at. -/
def Any.State.filtersSilent (s : Any.State S) : Prop :=
  s.bq = .zero ∧ s.svf = .zero ∧ s.lad = LadRegs.zero ∧ s.fmt = FmtRegs.zero ∧ s.comb.buf = []

/-- The machine over given parameters, as the host's interface takes one. -/
def Any.core [DecidableLT S] [DecidableLE S] [DecidableEq S] (H : Hardware S) : Host.Core :=
  { State := Any.State S, Fault := Fault, Refusal := Refusal, step := Any.step H, reset := Any.State.reset H.cap 0 }

end Sys2Proof.Machine
end

