-- ==== Sys2Proof/Certificates/Slice0/Obligations.lean ====
section
/-! DEFINITION. The statements for the provers, from the numbered rules of spec/. Each docstring names its rules; a clause that
rests on a choice of the model names its log entry. `exec`, `step` and `core` are the machine behind the host's interface, on the
rationals with uninterpreted primitives (log entries 1, 2); `Any.exec H` and `Any.step H` are the same meanings at the parameters `H`
(00_scope.md R6), and `H.IsReference` says that the number system of `H : Hardware ℝ` is the exact reals. In all of them the wires of
`blk` are the model's form of what one operation of a sample step leaves to the next (log entry 3), the zeros of an idle block are log
entry 13, and `outcome` is its record of the outcome a command returns (log entry 25).
-/

open Sys2Proof Sys2Proof.Machine

/-! ### Encoding -/

/-- 30_encoding.md R71, R72, R75, R76, R79, R81: codes written out from the spec's tables, and the reserved ones. -/
def Obligations.WordsOfTheTablesDecode : Prop :=
  decode (.cmd 0b000#3 [.scalar (.value 48000)] : Code) = .ok (.create (.value 48000)) ∧
  decode (.cmd 0b001#3 [.port 0b1100#4, .location 7] : Code) = .ok (.bind .slew ⟨7, 1⟩) ∧
  decode (.cmd 0b011#3 [.natural 8] : Code) = .ok (.process 8) ∧
  decode (.shape 0b100#3 : Code) = .ok .lfoSqr ∧
  decode (.mode 0b101#3 : Code) = .ok .fltRing ∧
  decode (.slot 0b110#3 : Code) = .ok .mix ∧
  decode (.cmd 0b110#3 [] : Code) = .error (.cmd (.reservedCommand 6)) ∧
  decode (.cmd 0b111#3 [] : Code) = .error (.cmd (.reservedCommand 7)) ∧
  decode (.cmd 0b001#3 [.port 0b1110#4, .location 7] : Code) = .error (.cmd (.reservedPort 14)) ∧
  decode (.shape 0b110#3 : Code) = .error (.reservedShape 6) ∧
  decode (.slot 0b111#3 : Code) = .error (.unusedSlot 7)

/-- Decoding an encoded well-formed instruction gives it back, with every operand (30_encoding.md R70 to R79). -/
def Obligations.DecodeOfEncodeIsIdentity : Prop :=
  ∀ i : Instr, i.wf = true → decode (encode i) = .ok i

/-- A code has one meaning: what decodes is well formed and encodes back to the same code (30_encoding.md R70 to R79). -/
def Obligations.EncodeOfDecodeIsIdentity : Prop :=
  ∀ (c : Code) (i : Instr), decode c = .ok i → encode i = c ∧ i.wf = true

/-- 30_encoding.md R74: a selector latch is the value of its own port rounded to nearest, ties away from zero; an integer outside the
legal range selects nothing, it is neither clamped nor wrapped. Beside R74: each of the eight scalar latches is the value of the cell that
its own port is bound to, exactly as read (the table of 10_state.md R31; 30_encoding.md R73). -/
def Obligations.SelectorsRoundToNearest : Prop :=
  (∀ (s : State) (l : Latches Scalar), s.latch Config.num = some l →
    (∀ (binding : Option Source) (v : Scalar),
      (binding, v) ∈ [(s.ports.cutoff, l.cutoff), (s.ports.res, l.res), (s.ports.mix, l.mix), (s.ports.rate, l.rate),
        (s.ports.cdepth, l.cdepth), (s.ports.rdepth, l.rdepth), (s.ports.slew, l.slew), (s.ports.step, l.step)] →
      ∃ source : Source, binding = some source ∧ s.hostRead source.base = .value v) ∧
    (∀ (binding : Option Source) (k : Int),
      (binding, k) ∈ [(s.ports.mode, l.mode), (s.ports.shape, l.shape), (s.ports.vowel, l.vowel)] →
      ∃ (source : Source) (v : Scalar),
        binding = some source ∧ s.hostRead source.base = .value v ∧ k = Config.num.rnd v)) ∧
  (∀ v : Scalar, Config.num.rnd v = Reference.num.rnd (v : ℝ)) ∧
  (∀ (v : ℝ) (k : Int), 1 ≤ k → (Reference.num.rnd v = k ↔ (k : ℝ) - 1 / 2 ≤ v ∧ v < (k : ℝ) + 1 / 2)) ∧
  (∀ v : ℝ, Reference.num.rnd v = 0 ↔ -(1 / 2) < v ∧ v < 1 / 2) ∧
  (∀ (v : ℝ) (k : Int), k ≤ -1 → (Reference.num.rnd v = k ↔ (k : ℝ) - 1 / 2 < v ∧ v ≤ (k : ℝ) + 1 / 2)) ∧
  Reference.num.rnd (25 / 10) = 3 ∧ Reference.num.rnd (249 / 100) = 2 ∧ Reference.num.rnd (5 / 10) = 1 ∧
  Reference.num.rnd (-5 / 10) = -1 ∧ Reference.num.rnd (-4 / 10) = 0 ∧
  (∀ k : Int, ((modeOp (S := Scalar) k).isSome = true ↔ 0 ≤ k ∧ k ≤ 5) ∧ ((shapeOp (S := Scalar) k).isSome = true ↔ 0 ≤ k ∧ k ≤ 5) ∧
    ((vowelRow k).isSome = true ↔ 0 ≤ k ∧ k ≤ 4))

/-! ### Slot 0: the six shapes -/

/-- 40_lfo_modulation.md R101: LFO.SIN completes and writes no register. -/
def Obligations.SineShape : Prop :=
  decode (.shape 0 : Code) = .ok .lfoSin ∧
  (∀ s : State,
    exec .lfoSin s =
      .next { s with blk := { s.blk with
        wires := { s.blk.wires with raw := (Config.num.sin s.lfo.phase + 1) / 2 }
        slot := .adv } }) ∧
  ∀ (H : Hardware ℝ) (s : Any.State ℝ), H.IsReference → 0 ≤ s.lfo.phase → s.lfo.phase < 2 * Real.pi →
    ∃ raw : ℝ,
      Any.exec H .lfoSin s =
        .next { s with blk := { s.blk with wires := { s.blk.wires with raw := raw }, slot := .adv } } ∧
      raw = (Real.sin s.lfo.phase + 1) / 2 ∧ 0 ≤ raw ∧ raw ≤ 1 ∧
      (s.lfo.phase = 0 → raw = 1 / 2) ∧ (s.lfo.phase = Real.pi / 2 → raw = 1) ∧
      (s.lfo.phase = Real.pi → raw = 1 / 2) ∧ (s.lfo.phase = 3 * Real.pi / 2 → raw = 0) ∧
      (s.lfo.phase = Real.pi / 4 → 85355339 / 100000000 < raw ∧ raw < 85355340 / 100000000)

/-- 40_lfo_modulation.md R102: LFO.TRI completes and writes no register. -/
def Obligations.TriangleShape : Prop :=
  decode (.shape 1 : Code) = .ok .lfoTri ∧
  (∀ s : State,
    exec .lfoTri s =
      .next { s with blk := { s.blk with
        wires := { s.blk.wires with raw := 
          if s.lfo.phase < Config.num.pi then s.lfo.phase / Config.num.pi else 2 - s.lfo.phase / Config.num.pi }
        slot := .adv } }) ∧
  ∀ (H : Hardware ℝ) (s : Any.State ℝ), H.IsReference → 0 ≤ s.lfo.phase → s.lfo.phase < 2 * Real.pi →
    ∃ raw : ℝ,
      Any.exec H .lfoTri s =
        .next { s with blk := { s.blk with wires := { s.blk.wires with raw := raw }, slot := .adv } } ∧
      raw = (if s.lfo.phase < Real.pi then s.lfo.phase / Real.pi else 2 - s.lfo.phase / Real.pi) ∧ 0 ≤ raw ∧ raw ≤ 1 ∧
      (s.lfo.phase = 0 → raw = 0) ∧
      (s.lfo.phase = Real.pi → raw = 1 ∧ s.lfo.phase / Real.pi = 1) ∧
      (Real.pi ≤ s.lfo.phase → raw = (2 * Real.pi - s.lfo.phase) / Real.pi) ∧
      (s.lfo.phase = Real.pi / 4 → raw = 1 / 4) ∧ (s.lfo.phase = 5 * Real.pi / 4 → raw = 3 / 4)

/-- 40_lfo_modulation.md R103: LFO.RUP completes and writes no register. -/
def Obligations.RampUpShape : Prop :=
  decode (.shape 2 : Code) = .ok .lfoRup ∧
  (∀ s : State,
    exec .lfoRup s =
      .next { s with blk := { s.blk with
        wires := { s.blk.wires with raw := s.lfo.phase / Config.num.twoPi }
        slot := .adv } }) ∧
  ∀ (H : Hardware ℝ) (s : Any.State ℝ), H.IsReference → 0 ≤ s.lfo.phase → s.lfo.phase < 2 * Real.pi →
    ∃ raw : ℝ,
      Any.exec H .lfoRup s =
        .next { s with blk := { s.blk with wires := { s.blk.wires with raw := raw }, slot := .adv } } ∧
      raw = s.lfo.phase / (2 * Real.pi) ∧ 0 ≤ raw ∧ raw < 1 ∧
      (s.lfo.phase = 0 → raw = 0) ∧ (s.lfo.phase = Real.pi / 2 → raw = 1 / 4)

/-- 40_lfo_modulation.md R104: LFO.RDN completes, writes no register, and is complementary to LFO.RUP. -/
def Obligations.RampDownShape : Prop :=
  decode (.shape 3 : Code) = .ok .lfoRdn ∧
  (∀ s : State,
    exec .lfoRdn s =
      .next { s with blk := { s.blk with
        wires := { s.blk.wires with raw := 1 - s.lfo.phase / Config.num.twoPi }
        slot := .adv } }) ∧
  ∀ (H : Hardware ℝ) (s : Any.State ℝ), H.IsReference → 0 ≤ s.lfo.phase → s.lfo.phase < 2 * Real.pi →
    ∃ up raw : ℝ,
      Any.exec H .lfoRup s =
        .next { s with blk := { s.blk with wires := { s.blk.wires with raw := up }, slot := .adv } } ∧
      Any.exec H .lfoRdn s =
        .next { s with blk := { s.blk with wires := { s.blk.wires with raw := raw }, slot := .adv } } ∧
      raw = 1 - s.lfo.phase / (2 * Real.pi) ∧ 0 < raw ∧ raw ≤ 1 ∧ up + raw = 1 ∧
      (s.lfo.phase = 0 → raw = 1) ∧ (s.lfo.phase = Real.pi / 2 → raw = 3 / 4)

/-- 40_lfo_modulation.md R105: LFO.SQR completes and writes no register. -/
def Obligations.SquareShape : Prop :=
  decode (.shape 4 : Code) = .ok .lfoSqr ∧
  (∀ s : State,
    exec .lfoSqr s =
      .next { s with blk := { s.blk with
        wires := { s.blk.wires with raw := if s.lfo.phase < Config.num.pi then 1 else 0 }
        slot := .adv } }) ∧
  ∀ (H : Hardware ℝ) (s : Any.State ℝ), H.IsReference → 0 ≤ s.lfo.phase → s.lfo.phase < 2 * Real.pi →
    ∃ raw : ℝ,
      Any.exec H .lfoSqr s =
        .next { s with blk := { s.blk with wires := { s.blk.wires with raw := raw }, slot := .adv } } ∧
      raw = (if s.lfo.phase < Real.pi then 1 else 0) ∧ (raw = 0 ∨ raw = 1) ∧
      (s.lfo.phase = 0 → raw = 1) ∧ (s.lfo.phase = Real.pi → raw = 0) ∧
      (raw = 1 ↔ s.lfo.phase < 2 * Real.pi / 2) ∧
      (s.lfo.phase = 3 → raw = 1) ∧ (s.lfo.phase = 32 / 10 → raw = 0)

/-- 40_lfo_modulation.md R106: LFO.SNH completes with the cached value; it writes no register and reads neither the phase nor the
random source. -/
def Obligations.SampleHoldShape : Prop :=
  decode (.shape 5 : Code) = .ok .lfoSnh ∧
  (∀ s : State,
    exec .lfoSnh s =
      .next { s with blk := { s.blk with wires := { s.blk.wires with raw := s.lfo.sh }, slot := .adv } }) ∧
  ∀ (s : State) (p : Scalar) (r : RandomSource Scalar) (t u : State),
    exec .lfoSnh s = .next t → exec .lfoSnh { s with lfo := { s.lfo with phase := p }, rnd := r } = .next u →
      u.blk.wires.raw = t.blk.wires.raw

/-! ### Slot 1: phase advance and draw -/

/-- 40_lfo_modulation.md R100, R107: LFO.ADV completes, for every shape and mode; the phase stays in [0, TWO_PI) under the
admitted rate. What it leaves unchanged is said by the record: of the registers only LFO_PHASE and LFO_SH change. -/
def Obligations.PhaseAdvance : Prop :=
  decode (.slot 1 : Code) = .ok .lfoAdv ∧
  (∀ s : State, ∃ (sh : Scalar) (r : RandomSource Scalar),
    exec .lfoAdv s =
      .next { s with
        lfo := { s.lfo with
          phase :=
            if Config.num.twoPi ≤ s.lfo.phase + Config.num.twoPi * s.blk.latches.rate / s.sr then
              s.lfo.phase + Config.num.twoPi * s.blk.latches.rate / s.sr - Config.num.twoPi
            else s.lfo.phase + Config.num.twoPi * s.blk.latches.rate / s.sr
          sh := sh }
        rnd := r
        blk := { s.blk with slot := .stepq } }) ∧
  (∀ (H : Hardware ℝ) (s : Any.State ℝ), H.IsReference → ∃ t : Any.State ℝ, Any.exec H .lfoAdv s = .next t ∧
    t.lfo.phase = advancePhase Reference.num s.lfo.phase (phaseInc Reference.num s.blk.latches.rate s.sr)) ∧
  (∀ rate sr : ℝ, 0 ≤ rate → rate < sr →
    phaseInc Reference.num rate sr = 2 * Real.pi * rate / sr ∧
    0 ≤ phaseInc Reference.num rate sr ∧ phaseInc Reference.num rate sr < 2 * Real.pi) ∧
  (∀ phase inc : ℝ, 0 ≤ phase → phase < 2 * Real.pi → 0 ≤ inc → inc < 2 * Real.pi →
    0 ≤ advancePhase Reference.num phase inc ∧ advancePhase Reference.num phase inc < 2 * Real.pi) ∧
  (∀ phase inc : ℝ, wrapFlag Reference.num phase inc = true ↔ 2 * Real.pi ≤ phase + inc) ∧
  (∀ phase inc : ℝ, advancePhase Reference.num phase inc =
    if wrapFlag Reference.num phase inc = true then phase + inc - 2 * Real.pi else phase + inc) ∧
  (∀ phase inc : ℝ, phase + inc = 2 * Real.pi → advancePhase Reference.num phase inc = 0) ∧
  (∀ phase : ℝ, phase < 2 * Real.pi →
    advancePhase Reference.num phase 0 = phase ∧ wrapFlag Reference.num phase 0 = false) ∧
  advancePhase Reference.num (18 / 10 * Real.pi) (2 / 10 * Real.pi) = 0 ∧
  phaseInc Reference.num 1 48000 = 2 * Real.pi / 48000 ∧
  |phaseInc Reference.num 1 48000 - 130899694 / 1000000000000| < 1 / 1000000000000

/-- 40_lfo_modulation.md R108: in a step with a wrap and shape 5 one draw is made, in [0, 1), and cached; in every other step no
draw is made and LFO_SH keeps its value. The raw value of the same step was read before and is not changed. Every scalar in [0, 1)
that a DRAWS directive fixes is a possible draw; without one the draw is the free value of the instance and the position (log entries
7, 20, 29), so that no relation holds between two instances (60_exceptions.md R220). -/
def Obligations.SampleHoldDraw : Prop :=
  (∀ s : State, ∃ t : State, exec .lfoAdv s = .next t ∧ t.blk.wires.raw = s.blk.wires.raw ∧
    (if Config.num.twoPi ≤ s.lfo.phase + Config.num.twoPi * s.blk.latches.rate / s.sr ∧ s.blk.latches.shape = 5 then
      t.lfo.sh = s.rnd.answer Config.hardware s.unit ∧ 0 ≤ t.lfo.sh ∧ t.lfo.sh < 1 ∧ t.rnd.taken = s.rnd.taken + 1 ∧
        t.rnd.fixed = s.rnd.fixed.tail
    else t.lfo.sh = s.lfo.sh ∧ t.rnd = s.rnd)) ∧
  (∀ k unit : Nat, (RandomSource.mk [] k).answer Config.hardware unit = (Config.freeDraw unit k).val) ∧
  ∀ (S : Type) [Arith S] [DecidableLT S] [DecidableLE S] (H : Hardware S) (d : S) (rest : List S) (k unit : Nat), 0 ≤ d → d < 1 →
    (RandomSource.mk (d :: rest) k).answer H unit = d

/-! ### Slots 2 and 3: step quantizer and slew -/

/-- 40_lfo_modulation.md R110: the hold period. -/
def Obligations.HoldPeriod : Prop :=
  (∀ step sr : ℝ, 0 < sr →
    (holdPeriod Reference.num step sr : Int) = 1 + ⌊step * step * sr / 2⌋ ∧ 1 ≤ holdPeriod Reference.num step sr ∧
    (holdPeriod Reference.num step sr = 1 ↔ step * step * sr < 2)) ∧
  holdPeriod Reference.num (1 / 100) 48000 = 3 ∧ holdPeriod Reference.num (1 / 10) 48000 = 241 ∧
  holdPeriod Reference.num (1 / 2) 48000 = 6001 ∧ holdPeriod Reference.num 1 48000 = 24001 ∧
  holdPeriod Reference.num (6454 / 1000000) 48000 = 1 ∧ holdPeriod Reference.num (6455 / 1000000) 48000 = 2

/-- 40_lfo_modulation.md R111: STEPQ completes in every state; bypass leaves counter and cached value; else the counter is
incremented, compared by `>=`, and on reaching the hold period set to 0 with this step's raw value latched. -/
def Obligations.StepQuantizer : Prop :=
  decode (.slot 2 : Code) = .ok .stepq ∧
  (∀ s : State,
    exec .stepq s =
      .next
        (if s.blk.latches.step ≤ Config.stepEps.val then
          { s with blk := { s.blk with wires := { s.blk.wires with stepped := s.blk.wires.raw }, slot := .slew } }
        else if holdPeriod Config.num s.blk.latches.step s.sr ≤ s.lfo.stepCnt + 1 then
          { s with
            lfo := { s.lfo with stepCnt := 0, stepVal := s.blk.wires.raw }
            blk := { s.blk with wires := { s.blk.wires with stepped := s.blk.wires.raw }, slot := .slew } }
        else
          { s with
            lfo := { s.lfo with stepCnt := s.lfo.stepCnt + 1 }
            blk := { s.blk with wires := { s.blk.wires with stepped := s.lfo.stepVal }, slot := .slew } })) ∧
  (∀ (H : Hardware ℝ) (s : Any.State ℝ), s.blk.latches.step = 0 → ∃ t : Any.State ℝ, Any.exec H .stepq s = .next t ∧
    t.blk.wires.stepped = s.blk.wires.raw ∧ t.lfo = s.lfo) ∧
  (∀ (H : Hardware ℝ) (s : Any.State ℝ), H.IsReference → H.stepEps < s.blk.latches.step → 0 < s.sr →
    ∃ t : Any.State ℝ, Any.exec H .stepq s = .next t ∧
      t.lfo.stepCnt < holdPeriod Reference.num s.blk.latches.step s.sr ∧
      (holdPeriod Reference.num s.blk.latches.step s.sr = 1 → t.blk.wires.stepped = s.blk.wires.raw))

/-- 40_lfo_modulation.md R111: with a constant hold period `H` the counter after `k` steps from 0 is `k mod H`, and the cached
value is the raw value of the last step whose number is a multiple of `H` (counting from 1). -/
def Obligations.StepQuantizerTiming : Prop :=
  ∀ (H : Hardware ℝ) (l : Latches ℝ) (sr : ℝ) (g : LfoRegs ℝ) (raws : List ℝ),
    H.IsReference → H.stepEps < l.step → 0 < sr → g.stepCnt = 0 →
    let h := holdPeriod Reference.num l.step sr
    let e := raws.foldl (fun g raw => stepQuantize H l sr raw g) g
    e.stepCnt = raws.length % h ∧
    e.stepVal = (if raws.length < h then g.stepVal else raws.getD (raws.length / h * h - 1) 0) ∧
    e.phase = g.phase ∧ e.sh = g.sh ∧ e.smooth = g.smooth

/-- 40_lfo_modulation.md R113: SLEW completes in every state and writes LFO_SMOOTH alone; for `0 < sf <= 1` it stays in [0, 1];
`sf = 1` follows at once; a constant input is approached geometrically. -/
def Obligations.SlewFilter : Prop :=
  decode (.slot 3 : Code) = .ok .slew ∧
  (∀ s : State, ∃ m : Scalar,
    exec .slew s =
      .next { s with
        lfo := { s.lfo with smooth := m }
        blk := { s.blk with wires := { s.blk.wires with modv := m }, slot := .cond } } ∧
    m = s.lfo.smooth + (s.blk.wires.stepped - s.lfo.smooth) * Config.num.pow (1 / 1000) s.blk.latches.slew) ∧
  (∀ (H : Hardware ℝ) (s : Any.State ℝ), H.IsReference → ∃ t : Any.State ℝ, Any.exec H .slew s = .next t ∧
    t.lfo.smooth = slewStep s.lfo.smooth s.blk.wires.stepped (slewCoeff Reference.num s.blk.latches.slew)) ∧
  (∀ m x sf : ℝ, slewStep m x sf = m + (x - m) * sf) ∧
  (∀ m x sf : ℝ, 0 < sf → sf ≤ 1 → 0 ≤ m → m ≤ 1 → 0 ≤ x → x ≤ 1 → 0 ≤ slewStep m x sf ∧ slewStep m x sf ≤ 1) ∧
  (∀ m x : ℝ, slewStep m x 1 = x) ∧
  (∀ (c sf : ℝ) (k : Nat), (fun m => slewStep m c sf)^[k] 0 = c * (1 - (1 - sf) ^ k)) ∧
  slewStep (0 : ℝ) (5 / 10) (1 / 10) = 5 / 100 ∧ slewStep (5 / 100 : ℝ) (5 / 10) (1 / 10) = 95 / 1000

/-- 40_lfo_modulation.md R112: the slew coefficient, its values, and its ranges on and beyond the ends of the knob. -/
def Obligations.SlewCoefficient : Prop :=
  slewCoeff Reference.num 0 = 1 ∧ slewCoeff Reference.num (1 / 3) = 1 / 10 ∧
  slewCoeff Reference.num (1 / 2) * slewCoeff Reference.num (1 / 2) = 1 / 1000 ∧
  316227766 / 10000000000 < slewCoeff Reference.num (1 / 2) ∧ slewCoeff Reference.num (1 / 2) < 316227767 / 10000000000 ∧
  slewCoeff Reference.num (2 / 3) = 1 / 100 ∧ slewCoeff Reference.num 1 = 1 / 1000 ∧
  slewCoeff Reference.num 2 = 1 / 1000000 ∧
  (∀ k : ℝ, slewCoeff Reference.num k = (1 / 1000 : ℝ) ^ k ∧ 0 < slewCoeff Reference.num k) ∧
  (∀ k : ℝ, 0 ≤ k → k ≤ 1 → 1 / 1000 ≤ slewCoeff Reference.num k ∧ slewCoeff Reference.num k ≤ 1) ∧
  (∀ k : ℝ, k < 0 → 1 < slewCoeff Reference.num k) ∧ (∀ k : ℝ, 1 < k → slewCoeff Reference.num k < 1 / 1000)

/-! ### Slot 4: the conditioner -/

/-- 41_conditioner.md R121: the conditioned cutoff, `20 <= fc <= 0.49 · SR` for every finite input. -/
def Obligations.ConditionedCutoff : Prop :=
  (∀ (H : Hardware ℝ) (s : Any.State ℝ), 20 / (49 / 100) ≤ s.sr → ∃ t : Any.State ℝ, Any.exec H .cond s = .next t ∧
    t.blk.wires.fc =
      min (max (s.blk.latches.cutoff + s.blk.wires.modv * s.blk.latches.cdepth) 20) (49 / 100 * s.sr) ∧
    20 ≤ t.blk.wires.fc ∧ t.blk.wires.fc ≤ 49 / 100 * s.sr) ∧
  (∀ (l : Latches ℝ) (sr modv : ℝ), 20 / (49 / 100) ≤ sr → l.cutoff + modv * l.cdepth ≤ 0 →
    conditionCutoff l sr modv = 20) ∧
  (∀ l : Latches ℝ, l.cutoff = 1000 → l.cdepth = 4000 → conditionCutoff l 48000 (1 / 2) = 3000) ∧
  (∀ (l : Latches ℝ) (modv : ℝ), l.cdepth = 0 →
    (l.cutoff = 30000 → conditionCutoff l 48000 modv = 23520) ∧ (l.cutoff = 5 → conditionCutoff l 48000 modv = 20))

/-- 41_conditioner.md R122, R123: the conditioned and the normalized resonance, for every finite input. -/
def Obligations.ConditionedResonance : Prop :=
  (∀ (H : Hardware ℝ) (s : Any.State ℝ), ∃ t : Any.State ℝ, Any.exec H .cond s = .next t ∧
    t.blk.wires.q =
      min (max (s.blk.latches.res + s.blk.wires.modv * s.blk.latches.rdepth) (707 / 1000)) 20 ∧
    707 / 1000 ≤ t.blk.wires.q ∧ t.blk.wires.q ≤ 20 ∧
    t.blk.wires.nres = (t.blk.wires.q - 707 / 1000) / (19293 / 1000) ∧
    0 ≤ t.blk.wires.nres ∧ t.blk.wires.nres ≤ 1) ∧
  normalizeRes (707 / 1000 : ℝ) = 0 ∧ normalizeRes (20 : ℝ) = 1 ∧ normalizeRes (103535 / 10000 : ℝ) = 1 / 2 ∧
  (∀ (l : Latches ℝ) (modv : ℝ), l.res = 1 / 10 → l.rdepth = 0 → conditionRes l modv = 707 / 1000) ∧
  (∀ l : Latches ℝ, l.res = 5 → l.rdepth = 30 → conditionRes l 1 = 20)

/-- 41_conditioner.md R124, with the values of R121 to R123: COND completes in every state, writes no register, and with both depths
0 does not depend on `mod`. What it leaves to the filter unit lies in the ranges of R121 to R123. -/
def Obligations.ConditionerWritesNoRegister : Prop :=
  decode (.slot 4 : Code) = .ok .cond ∧
  (∀ s : State,
    let q := min (max (s.blk.latches.res + s.blk.wires.modv * s.blk.latches.rdepth) (707 / 1000)) 20
    exec .cond s =
      .next { s with
        blk := { s.blk with
          wires := { s.blk.wires with
            fc := min (max (s.blk.latches.cutoff + s.blk.wires.modv * s.blk.latches.cdepth) 20) (49 / 100 * s.sr)
            q := q
            nres := (q - 707 / 1000) / (19293 / 1000) }
          slot := .flt } }) ∧
  (∀ (l : Latches ℝ) (sr m m' : ℝ), l.cdepth = 0 → l.rdepth = 0 →
    conditionCutoff l sr m = conditionCutoff l sr m' ∧ conditionRes l m = conditionRes l m') ∧
  (∀ (H : Hardware ℝ) (s : Any.State ℝ), s.sr = 48000 → s.blk.latches.cutoff = 1000 → s.blk.latches.res = 707 / 1000 →
    s.blk.latches.cdepth = 0 → s.blk.latches.rdepth = 0 → ∃ t : Any.State ℝ, Any.exec H .cond s = .next t ∧
      t.blk.wires.fc = 1000 ∧ t.blk.wires.q = 707 / 1000 ∧ t.blk.wires.nres = 0) ∧
  ∀ (H : Hardware ℝ) (s : Any.State ℝ), 20 / (49 / 100) ≤ s.sr → ∃ t : Any.State ℝ, Any.exec H .cond s = .next t ∧
    t.blk.wires.conditioned t.sr

/-- 41_conditioner.md R125: what the clamps guarantee to the filter units. -/
def Obligations.ClampGuarantees : Prop :=
  ∀ (l : Latches ℝ) (sr modv : ℝ), 20 / (49 / 100) ≤ sr →
    let fc := conditionCutoff l sr modv
    let q := conditionRes l modv
    (0 < 2 * Real.pi * fc / sr ∧ 2 * Real.pi * fc / sr ≤ 98 / 100 * Real.pi ∧ 98 / 100 * Real.pi < Real.pi ∧
      0 < Real.sin (2 * Real.pi * fc / sr)) ∧
    (0 < Real.pi * fc / sr ∧ Real.pi * fc / sr ≤ 49 / 100 * Real.pi ∧ 49 / 100 * Real.pi < Real.pi / 2 ∧
      0 < Real.tan (Real.pi * fc / sr)) ∧
    (707 / 1000 ≤ q ∧ 0 < q ∧ 0 < Real.sin (2 * Real.pi * fc / sr) / (2 * q)) ∧
    (1 / (49 / 100) ≤ sr / fc ∧ 2 < sr / fc)

/-! ### Slot 5: modes 0, 1, 2 -/

/-- 42_filters_bq_svf_ladder.md R131, R132: FLT.BQ completes in every state and writes BQ_Z1, BQ_Z2 alone (the decimal example is
left out). -/
def Obligations.BiquadLowpass : Prop :=
  decode (.mode 0 : Code) = .ok .fltBq ∧
  (∀ s : State,
    let w0 := Config.num.twoPi * s.blk.wires.fc / s.sr
    let alpha := Config.num.sin w0 / (2 * s.blk.wires.q)
    let c := Config.num.cos w0
    let a0 := 1 + alpha
    let y := (1 - c) / 2 / a0 * s.blk.wires.x + s.bq.z1
    exec .fltBq s =
      .next { s with
        bq := ⟨(1 - c) / a0 * s.blk.wires.x - -2 * c / a0 * y + s.bq.z2,
          (1 - c) / 2 / a0 * s.blk.wires.x - (1 - alpha) / a0 * y⟩
        blk := { s.blk with wires := { s.blk.wires with wet := y }, slot := .mix } }) ∧
  (∀ (l : Latches ℝ) (sr modv : ℝ), 20 / (49 / 100) ≤ sr →
    0 < alphaOf Reference.num (angle Reference.num (conditionCutoff l sr modv) sr) (conditionRes l modv)) ∧
  ∀ (H : Hardware ℝ) (s : Any.State ℝ), H.IsReference → ∃ t : Any.State ℝ, Any.exec H .fltBq s = .next t ∧
    t.blk.wires.wet = sectionOut (lowpassCoeffs Reference.num s.sr s.blk.wires.fc s.blk.wires.q) s.blk.wires.x s.bq ∧
    t.bq = sectionNext (lowpassCoeffs Reference.num s.sr s.blk.wires.fc s.blk.wires.q) s.blk.wires.x s.bq ∧
    (s.bq = .zero →
      t.blk.wires.wet = (lowpassCoeffs Reference.num s.sr s.blk.wires.fc s.blk.wires.q).b0 * s.blk.wires.x ∧
      (s.blk.wires.x = 0 → t.blk.wires.wet = 0 ∧ t.bq = .zero))

/-- 42_filters_bq_svf_ladder.md R133: for every conditioned cutoff and resonance the section is stable (the coefficients lie in the
triangle of the second-order stability criterion) and its gain at zero frequency is 1. -/
def Obligations.BiquadStable : Prop :=
  ∀ (l : Latches ℝ) (sr modv : ℝ), 20 / (49 / 100) ≤ sr →
    let c := lowpassCoeffs Reference.num sr (conditionCutoff l sr modv) (conditionRes l modv)
    |c.a2| < 1 ∧ |c.a1| < 1 + c.a2 ∧ (c.b0 + c.b1 + c.b2) / (1 + c.a1 + c.a2) = 1

/-- 42_filters_bq_svf_ladder.md R134, R135: FLT.SVF completes in every state and writes SVF_S1, SVF_S2 alone. -/
def Obligations.StateVariableLowpass : Prop :=
  decode (.mode 1 : Code) = .ok .fltSvf ∧
  (∀ s : State,
    let g := Config.num.tan (Config.num.pi * s.blk.wires.fc / s.sr)
    let r := 1 / (2 * s.blk.wires.q)
    let den := 1 + 2 * r * g + g * g
    let hp := (s.blk.wires.x - (2 * r + g) * s.svf.s1 - s.svf.s2) / den
    let v1 := g * hp
    let bp := v1 + s.svf.s1
    let v2 := g * bp
    let lp := v2 + s.svf.s2
    exec .fltSvf s =
      .next { s with
        svf := ⟨bp + v1, lp + v2⟩
        blk := { s.blk with wires := { s.blk.wires with wet := lp }, slot := .mix } }) ∧
  (∀ (H : Hardware ℝ) (s : Any.State ℝ), H.IsReference →
    let g := svfGain Reference.num s.sr s.blk.wires.fc
    let r := svfDamping s.blk.wires.q
    ∃ t : Any.State ℝ, Any.exec H .fltSvf s = .next t ∧
      t.blk.wires.wet = svfLp g r s.blk.wires.x s.svf ∧ t.svf = svfNext g r s.blk.wires.x s.svf) ∧
  (∀ (l : Latches ℝ) (sr modv : ℝ), 20 / (49 / 100) ≤ sr →
    let g := svfGain Reference.num sr (conditionCutoff l sr modv)
    let r := svfDamping (conditionRes l modv)
    0 < g ∧ 25 / 1000 ≤ r ∧ r ≤ 70722 / 100000 ∧ 1 < svfDen g r) ∧
  (∀ g r : ℝ, svfLp g r 0 .zero = 0 ∧ svfNext g r 0 .zero = .zero) ∧
  svfGain Reference.num 48000 12000 = 1 ∧ svfDamping (1 : ℝ) = 1 / 2 ∧ svfDen (1 : ℝ) (1 / 2) = 3 ∧
  (svfHp (1 : ℝ) (1 / 2) 1 .zero = 1 / 3 ∧ svfBp (1 : ℝ) (1 / 2) 1 .zero = 1 / 3 ∧ svfLp (1 : ℝ) (1 / 2) 1 .zero = 1 / 3 ∧
    svfNext (1 : ℝ) (1 / 2) 1 .zero = ⟨2 / 3, 2 / 3⟩) ∧
  (svfHp (1 : ℝ) (1 / 2) 0 ⟨2 / 3, 2 / 3⟩ = -(2 / 3) ∧ svfBp (1 : ℝ) (1 / 2) 0 ⟨2 / 3, 2 / 3⟩ = 0 ∧
    svfLp (1 : ℝ) (1 / 2) 0 ⟨2 / 3, 2 / 3⟩ = 2 / 3 ∧ svfNext (1 : ℝ) (1 / 2) 0 ⟨2 / 3, 2 / 3⟩ = ⟨-(2 / 3), 2 / 3⟩)

/-- 42_filters_bq_svf_ladder.md R136: with constant conditioned cutoff and resonance and zero initial state, FLT.SVF and FLT.BQ give
the same wet sample after any input: `xs` is the input before, `x` the sample of the step. -/
def Obligations.StateVariableEqualsBiquad : Prop :=
  ∀ (l : Latches ℝ) (sr modv : ℝ) (xs : List ℝ) (x : ℝ), 20 / (49 / 100) ≤ sr →
    let fc := conditionCutoff l sr modv
    let q := conditionRes l modv
    let c := lowpassCoeffs Reference.num sr fc q
    let g := svfGain Reference.num sr fc
    let r := svfDamping q
    svfLp g r x (xs.foldl (fun v x => svfNext g r x v) .zero) =
      sectionOut c x (xs.foldl (fun d x => sectionNext c x d) .zero)

/-- 42_filters_bq_svf_ladder.md R137, R138: FLT.LAD completes in every state and writes LAD_S alone; the four stages run in order,
fed back from the previous step's stage 4 (the decimal examples are left out). -/
def Obligations.LadderCascade : Prop :=
  decode (.mode 2 : Code) = .ok .fltLad ∧
  (∀ s : State,
    let gl := 1 - Config.num.exp (-Config.num.twoPi * s.blk.wires.fc / s.sr)
    let k := s.blk.wires.nres * (42 / 10)
    let s1 := s.lad[0] + gl * (Config.num.tanh (s.blk.wires.x - k * s.lad[3]) - s.lad[0])
    let s2 := s.lad[1] + gl * (Config.num.tanh s1 - s.lad[1])
    let s3 := s.lad[2] + gl * (Config.num.tanh s2 - s.lad[2])
    let s4 := s.lad[3] + gl * (Config.num.tanh s3 - s.lad[3])
    exec .fltLad s =
      .next { s with
        lad := #v[s1, s2, s3, s4]
        blk := { s.blk with wires := { s.blk.wires with wet := s4 }, slot := .mix } }) ∧
  (∀ (H : Hardware ℝ) (s : Any.State ℝ), H.IsReference → ∃ t : Any.State ℝ, Any.exec H .fltLad s = .next t ∧
    t.lad = ladNext Reference.num (ladCoeff Reference.num s.sr s.blk.wires.fc) (ladFeedback s.blk.wires.nres) s.blk.wires.x s.lad ∧
    t.blk.wires.wet = t.lad[3]) ∧
  (∀ (l : Latches ℝ) (sr modv : ℝ), 20 / (49 / 100) ≤ sr →
    0 < ladCoeff Reference.num sr (conditionCutoff l sr modv) ∧ ladCoeff Reference.num sr (conditionCutoff l sr modv) < 1 ∧
    0 ≤ ladFeedback (normalizeRes (conditionRes l modv)) ∧
    ladFeedback (normalizeRes (conditionRes l modv)) ≤ 42 / 10)

/-- 10_state.md R27, 42_filters_bq_svf_ladder.md R138, R139: ladder registers in [−1, 1] stay there, for any input and any feedback; from
zero state and zero input the ladder stays at zero, whatever `k` and the coefficient are, step after step. -/
def Obligations.LadderStaysBounded : Prop :=
  (∀ (sr fc k x : ℝ) (r : LadRegs ℝ), 0 < sr → 0 < fc → LadRegs.bounded r →
    LadRegs.bounded (ladNext Reference.num (ladCoeff Reference.num sr fc) k x r)) ∧
  ∀ (gl : Nat → ℝ) (k : Nat → ℝ) (n : Nat),
    (List.range n).foldl (fun r i => ladNext Reference.num (gl i) (k i) 0 r) LadRegs.zero = LadRegs.zero

/-! ### Slot 5: modes 3, 4, 5 -/

/-- 43_filters_vowel_comb_ring.md R150, R151, R152: FLT.VOW completes for every vowel 0..4 and writes the six FMT_Z registers
alone, which all vowels share (10_state.md R28; the decimal example is left out). VOWEL_TABLE is the uninterpreted constant of log
entry 9. -/
def Obligations.VowelFormantBank : Prop :=
  decode (.mode 3 : Code) = .ok .fltVow ∧
  (∀ (s : State) (v : Fin 5), s.blk.latches.vowel = (v.val : Int) →
    let w := s.blk.wires
    let ff := fun f : Fin 3 =>
      min ((Config.vowelTable v f).freq * Config.num.pow 2 ((w.fc - 1000) / 1000)) (49 / 100 * s.sr)
    let w0 := fun f : Fin 3 => Config.num.twoPi * ff f / s.sr
    let alpha := fun f : Fin 3 => Config.num.sin (w0 f) / (2 * ((Config.vowelTable v f).tq * w.q * (1 / 2)))
    let a0 := fun f : Fin 3 => 1 + alpha f
    let y := fun (f : Fin 3) (z : Delays Scalar) => alpha f / a0 f * w.x + z.z1
    let z := fun (f : Fin 3) (z : Delays Scalar) =>
      (⟨0 * w.x - -2 * Config.num.cos (w0 f) / a0 f * y f z + z.z2,
        -alpha f / a0 f * w.x - (1 - alpha f) / a0 f * y f z⟩ : Delays Scalar)
    exec .fltVow s =
      .next { s with
        fmt := #v[z 0 s.fmt[0], z 1 s.fmt[1], z 2 s.fmt[2]]
        blk := { s.blk with
          wires := { w with wet := (0 + y 0 s.fmt[0] + y 1 s.fmt[1] + y 2 s.fmt[2]) * (1 + 3 * w.nres) }
          slot := .mix } }) ∧
  (∀ (H : Hardware ℝ) (s : Any.State ℝ) (v : Fin 5), H.IsReference → s.blk.latches.vowel = (v.val : Int) →
    ∃ t : Any.State ℝ, Any.exec H .fltVow s = .next t ∧
      (∀ f : Fin 3, t.fmt[f] =
        sectionNext (formantCoeffs H s.sr s.blk.wires.fc s.blk.wires.q v f) s.blk.wires.x s.fmt[f]) ∧
      t.blk.wires.wet =
        (∑ f : Fin 3, sectionOut (formantCoeffs H s.sr s.blk.wires.fc s.blk.wires.q v f) s.blk.wires.x s.fmt[f]) *
          (1 + 3 * s.blk.wires.nres)) ∧
  (∀ (l : Latches ℝ) (sr modv : ℝ) (e : Formant ℝ), 20 / (49 / 100) ≤ sr →
    let ff := formantFreq Reference.num sr (conditionCutoff l sr modv) e
    0 < angle Reference.num ff sr ∧ angle Reference.num ff sr ≤ 98 / 100 * Real.pi ∧
    0 < alphaOf Reference.num (angle Reference.num ff sr) (formantQ (conditionRes l modv) e) ∧
    1 ≤ formantGain (normalizeRes (conditionRes l modv)) ∧ formantGain (normalizeRes (conditionRes l modv)) ≤ 4) ∧
  (∀ fc : ℝ, formantRatio Reference.num fc = (2 : ℝ) ^ ((fc - 1000) / 1000)) ∧
  formantRatio Reference.num 1000 = 1 ∧ (∀ fc : ℝ, formantRatio Reference.num (fc + 1000) = formantRatio Reference.num fc * 2)

/-- 43_filters_vowel_comb_ring.md R154: the comb delay. -/
def Obligations.CombDelayRange : Prop :=
  (∀ (l : Latches ℝ) (sr modv : ℝ), 20 / (49 / 100) ≤ sr →
    let fc := conditionCutoff l sr modv
    combDelay sr fc 4096 = min (max (sr / fc) 1) 4095 ∧ combDelay sr fc 4096 = min (sr / fc) 4095 ∧
    204 / 100 < combDelay sr fc 4096 ∧ combDelay sr fc 4096 ≤ 4095 ∧
    (combDelay sr fc 4096 < sr / fc ↔ 4095 < sr / fc) ∧ (4095 < sr / fc ↔ fc < sr / 4095) ∧
    (4095 < sr / fc → 81900 < sr)) ∧
  combDelay (48000 : ℝ) 12000 4096 = 4 ∧ combDelay (48000 : ℝ) 19200 4096 = 25 / 10 ∧ combDelay (48000 : ℝ) 20 4096 = 2400 ∧
  combDelay (96000 : ℝ) 20 4096 = 4095

/-- 43_filters_vowel_comb_ring.md R155: the interpolated read. The two slots are neighbours on the ring, and neither is the slot at
the cursor; neither is the slot written in the previous step. -/
def Obligations.CombReadsOldSlots : Prop :=
  (∀ (c : CombRegs ℝ) (delay : ℝ), c.w < 4096 → 2 < delay → delay ≤ 4095 →
    ∃ (i0 : Int) (frac : ℝ),
      i0 = ⌊(c.w : ℝ) - delay⌋ ∧ frac = (c.w : ℝ) - delay - i0 ∧ 0 ≤ frac ∧ frac < 1 ∧
      combDelayed Reference.num 4096 delay c =
        c.read (i0 % 4096).toNat + frac * (c.read ((i0 + 1) % 4096).toNat - c.read (i0 % 4096).toNat) ∧
      (i0 % 4096).toNat < 4096 ∧ ((i0 + 1) % 4096).toNat < 4096 ∧
      i0 + 1 ≤ (c.w : Int) - 2 ∧ (c.w : Int) - 4096 + 1 ≤ i0 ∧
      (i0 % 4096).toNat ≠ c.w ∧ ((i0 + 1) % 4096).toNat ≠ c.w ∧
      (((i0 % 4096).toNat : Int) ≠ ((c.w : Int) - 1) % 4096 ∧ (((i0 + 1) % 4096).toNat : Int) ≠ ((c.w : Int) - 1) % 4096)) ∧
  ⌊((1 : Nat) : ℝ) - 25 / 10⌋ = -2 ∧ ((1 : Nat) : ℝ) - 25 / 10 - ((-2 : Int) : ℝ) = 1 / 2 ∧
  ((-2 : Int) % 4096).toNat = 4094 ∧ ((-1 : Int) % 4096).toNat = 4095

/-- 43_filters_vowel_comb_ring.md R156: FLT.COMB completes in every state and writes one slot of COMB_BUF and COMB_W alone; the
stored value is the output. Every slot but the one at the old cursor reads as before. -/
def Obligations.CombFilter : Prop :=
  decode (.mode 4 : Code) = .ok .fltComb ∧
  (∀ s : State, s.cap = 4096 → s.comb.w < 4096 →
    ∃ y : Scalar, ∃ c : CombRegs Scalar,
      exec .fltComb s =
        .next { s with comb := c, blk := { s.blk with wires := { s.blk.wires with wet := y }, slot := .mix } } ∧
      y = s.blk.wires.x +
        99 / 100 * s.blk.wires.nres * combDelayed Config.num 4096 (combDelay s.sr s.blk.wires.fc 4096) s.comb ∧
      c.read s.comb.w = y ∧ (∀ i : Nat, i ≠ s.comb.w → c.read i = s.comb.read i) ∧
      c.w = (if s.comb.w = 4095 then 0 else s.comb.w + 1) ∧
      (Memory.wf combUnlisted s.comb.buf = true → Memory.wf combUnlisted c.buf = true)) ∧
  ∀ (H : Hardware ℝ) (s : Any.State ℝ), H.IsReference → s.cap = 4096 → ∃ t : Any.State ℝ, Any.exec H .fltComb s = .next t ∧
    t.blk.wires.wet = s.blk.wires.x +
      99 / 100 * s.blk.wires.nres * combDelayed Reference.num 4096 (combDelay s.sr s.blk.wires.fc 4096) s.comb ∧
    t.comb = combNext 4096 t.blk.wires.wet s.comb

/-- 43_filters_vowel_comb_ring.md R157: with zero feedback the wet output is the dry input, undelayed, in every step, while the
buffer records the dry history. -/
def Obligations.CombZeroFeedbackIsDry : Prop :=
  ∀ (H : Hardware ℝ) (s : Any.State ℝ), s.blk.wires.nres = normalizeRes (707 / 1000) →
    ∃ t : Any.State ℝ, Any.exec H .fltComb s = .next t ∧
    t.blk.wires.wet = s.blk.wires.x ∧ t.comb.read s.comb.w = s.blk.wires.x

/-- 43_filters_vowel_comb_ring.md R156: the comb is the recursion `y[n] = x[n] + fb · y[n − d]` for a delay of a whole number `d`
of samples: after `d` steps with the same delay, the delayed sample is the output of the step `d` steps ago. -/
def Obligations.CombRecursion : Prop :=
  ∀ (d : Nat) (ys : List ℝ) (c : CombRegs ℝ), c.w < 4096 → 2 < d → d ≤ 4095 → d ≤ ys.length →
    let e := ys.foldl (fun c y => combNext 4096 y c) c
    combDelayed Reference.num 4096 (d : ℝ) e = ys.getD (ys.length - d) 0

/-- 43_filters_vowel_comb_ring.md R158, R159, R160: FLT.RING completes in every state and writes RING_PHASE alone; the oscillator is
read before it advances. -/
def Obligations.RingModulatorUnit : Prop :=
  decode (.mode 5 : Code) = .ok .fltRing ∧
  (∀ s : State,
    let ring := Config.num.sin s.ringPhase
    let am := (ring + 1) / 2
    let m := (1 - s.blk.wires.nres) * am + s.blk.wires.nres * ring
    let t := s.ringPhase + Config.num.twoPi * s.blk.wires.fc / s.sr
    exec .fltRing s =
      .next { s with
        ringPhase := if Config.num.twoPi ≤ t then t - Config.num.twoPi else t
        blk := { s.blk with wires := { s.blk.wires with wet := s.blk.wires.x * m }, slot := .mix } }) ∧
  let N := Reference.num
  (∀ (H : Hardware ℝ) (s : Any.State ℝ), H.IsReference → ∃ t : Any.State ℝ, Any.exec H .fltRing s = .next t ∧
    t.blk.wires.wet = s.blk.wires.x * ringModulator N s.ringPhase s.blk.wires.nres ∧
    t.ringPhase = advancePhase N s.ringPhase (phaseInc N s.blk.wires.fc s.sr)) ∧
  (∀ phase : ℝ, ringSignal N phase = Real.sin phase ∧ amSignal N phase = (Real.sin phase + 1) / 2 ∧
    -1 ≤ ringSignal N phase ∧ ringSignal N phase ≤ 1 ∧ 0 ≤ amSignal N phase ∧ amSignal N phase ≤ 1 ∧
    ringModulator N phase 0 = amSignal N phase ∧ ringModulator N phase 1 = ringSignal N phase) ∧
  (∀ phase nres : ℝ, 0 ≤ nres → nres ≤ 1 → -1 ≤ ringModulator N phase nres ∧ ringModulator N phase nres ≤ 1) ∧
  (∀ (l : Latches ℝ) (sr modv : ℝ), 20 / (49 / 100) ≤ sr →
    0 < phaseInc N (conditionCutoff l sr modv) sr ∧ phaseInc N (conditionCutoff l sr modv) sr ≤ 98 / 100 * Real.pi) ∧
  (∀ nres : ℝ, ringModulator N 0 nres = (1 - nres) / 2) ∧
  phaseInc N 12000 48000 = Real.pi / 2 ∧ advancePhase N 0 (Real.pi / 2) = Real.pi / 2 ∧
  advancePhase N (Real.pi / 2) (Real.pi / 2) = Real.pi ∧
  advancePhase N Real.pi (Real.pi / 2) = 3 * Real.pi / 2 ∧ advancePhase N (3 * Real.pi / 2) (Real.pi / 2) = 0 ∧
  ringModulator N 0 0 = 1 / 2 ∧ ringModulator N (Real.pi / 2) 0 = 1 ∧ ringModulator N Real.pi 0 = 1 / 2 ∧
  ringModulator N (3 * Real.pi / 2) 0 = 0 ∧ ringModulator N 0 (1 / 2) = 1 / 4 ∧ ringModulator N (Real.pi / 2) (1 / 2) = 1 ∧
  ringModulator N Real.pi (1 / 2) = 1 / 4 ∧ ringModulator N (3 * Real.pi / 2) (1 / 2) = -(1 / 2)

/-- 43_filters_vowel_comb_ring.md R161: RING_PHASE stays in [0, TWO_PI) under every conditioned cutoff. -/
def Obligations.RingPhaseStaysInRange : Prop :=
  ∀ (l : Latches ℝ) (sr modv phase : ℝ), 20 / (49 / 100) ≤ sr → 0 ≤ phase → phase < 2 * Real.pi →
    let rinc := phaseInc Reference.num (conditionCutoff l sr modv) sr
    0 < rinc ∧ rinc ≤ 98 / 100 * Real.pi ∧ 98 / 100 * Real.pi < 2 * Real.pi ∧
    0 ≤ advancePhase Reference.num phase rinc ∧ advancePhase Reference.num phase rinc < 2 * Real.pi

/-- 43_filters_vowel_comb_ring.md R162: with resonance 20 (nres 1) and a constant dry input 1, step `n` of the ring modulator from
phase 0 gives `sin(TWO_PI · f · n / SR)`, for every modulator frequency `f` below `SR` (MF's scenario is `f = 100`). -/
def Obligations.RingScenarioIsSine : Prop :=
  ∀ (f sr : ℝ) (n : Nat), 0 ≤ f → f < sr →
    let N := Reference.num
    1 * ringModulator N ((fun p => advancePhase N p (phaseInc N f sr))^[n] 0) (normalizeRes 20) =
      Real.sin (2 * Real.pi * f * n / sr)

/-! ### Slot 6 -/

/-- 44_mixer_and_sample_step.md R170: MIX completes for bound outputs and writes no register: the same mixed scalar goes to both
streams at index `n`, and every other host cell reads as before. -/
def Obligations.MixWritesBothOutputs : Prop :=
  decode (.slot 6 : Code) = .ok .mix ∧
  (∀ (s : State) (left right : Source), s.ports.aoutL = some left → s.ports.aoutR = some right →
    let out := s.blk.latches.mix * s.blk.wires.wet + (1 - s.blk.latches.mix) * s.blk.wires.x
    ∃ h : Memory (Sample Scalar),
      exec .mix s = .next { s with host := h } ∧
      ∀ t : State, t.host = h →
        t.hostRead (left.base + s.blk.n) = .value out ∧ t.hostRead (right.base + s.blk.n) = .value out ∧
        ∀ a : Nat, a ≠ left.base + s.blk.n → a ≠ right.base + s.blk.n → t.hostRead a = s.hostRead a) ∧
  (∀ m wet x : ℝ, mixOut m wet x = m * wet + (1 - m) * x) ∧
  (∀ wet x : ℝ, mixOut 0 wet x = x ∧ mixOut 1 wet x = wet) ∧ mixOut (1 / 4 : ℝ) 2 1 = 125 / 100

/-- 10_state.md R38: each filter operation writes the registers of its own unit and no other, and none of the LFO registers. -/
def Obligations.OneFilterUnitPerStep : Prop :=
  ∀ (s : State) (m : BitVec 3) (i : Instr) (t : State), decode (.mode m : Code) = .ok i → exec i s = .next t →
    t.lfo = s.lfo ∧ t.host = s.host ∧ t.ports = s.ports ∧ t.life = s.life ∧ t.sr = s.sr ∧ t.cap = s.cap ∧
    t.queue = s.queue ∧ t.rnd = s.rnd ∧ t.alloc = s.alloc ∧ t.outcome = s.outcome ∧
    t.unit = s.unit ∧ t.blk.latches = s.blk.latches ∧ t.blk.n = s.blk.n ∧ t.blk.len = s.blk.len ∧
    (m ≠ 0 → t.bq = s.bq) ∧ (m ≠ 1 → t.svf = s.svf) ∧ (m ≠ 2 → t.lad = s.lad) ∧ (m ≠ 3 → t.fmt = s.fmt) ∧
    (m ≠ 4 → t.comb = s.comb) ∧ (m ≠ 5 → t.ringPhase = s.ringPhase)

/-! ### The step -/

/-- A step runs the decoded instruction. In a running block it reads the dry sample, runs the operation whose code stands at the block's
slot and then the rest of the sample step (44_mixer_and_sample_step.md R171); from slot 0 these are the seven operations in order, the
first and the sixth picked by `L_SHAPE` and `L_MODE`; then `n` advances, or the block is over with Ok. Outside a block it runs the command
at the head of the host's moves, which is removed. A store changes one cell of host memory; without a move nothing changes. A command
that the decoder rejects is refused under the name of what is wrong with it (45_lifecycle_commands.md R186, 60_exceptions.md R201,
30_encoding.md R81). The meanings and the step are those of `Any.exec` and `Any.step` at the parameters of the host's machine. The
model's choices are: what stands in the block between two operations and between two steps (log entries 3, 13), that the host's moves
stand in a list (4), that a step without a move changes nothing (17), what is refused before what (18), the record of Ok (25), and that
the answers of a DRAWS directive, and those of the allocator (8), are added behind the unused ones (27: no rule says it). -/
def Obligations.StepRunsDecodedInstruction : Prop :=
  (∀ (s : State) (x : Scalar) (c : Code) (i : Instr), s.blk.running = true → s.readIn Config.num s.blk.n = .ok x →
    s.blk.code = some c → decode c = .ok i →
    step s =
      Any.andThen (exec i { s with blk := { s.blk with wires := { s.blk.wires with x := x } } }) fun t =>
        Any.andThen (runSlots exec (s.blk.slot.left - 1) t) fun u => .next u.endSample) ∧
  (∀ (s : State) (x : Scalar) (shape mode : BitVec 3) (i j : Instr), s.blk.running = true → s.blk.slot = .lfo →
    s.readIn Config.num s.blk.n = .ok x → s.blk.latches.shape = shape.toNat → s.blk.latches.mode = mode.toNat →
    decode (.shape shape) = .ok i → decode (.mode mode) = .ok j →
    step s =
      Any.andThen (exec i { s with blk := { s.blk with wires := { s.blk.wires with x := x } } }) fun s =>
        Any.andThen (exec .lfoAdv s) fun s => Any.andThen (exec .stepq s) fun s => Any.andThen (exec .slew s) fun s =>
          Any.andThen (exec .cond s) fun s => Any.andThen (exec j s) fun s => Any.andThen (exec .mix s) fun s =>
            .next s.endSample) ∧
  (∀ s : State, s.endSample =
    if s.blk.n + 1 < s.blk.len then { s with blk := { s.blk with n := s.blk.n + 1, slot := .lfo, wires := .zero } }
    else { s with blk := .idle, outcome := .ok }) ∧
  (∀ (s : State) (c : BitVec 3) (operands : List Operand) (rest : List (HostMove Scalar)) (i : Instr),
    s.blk.running = false → s.queue = .command c operands :: rest → decode (.cmd c operands) = .ok i →
    step s = exec i { s with queue := rest }) ∧
  (∀ s : State, s.blk.running = false → s.queue = [] → step s = .next s) ∧
  (∀ (s : State) (a : Nat) (v : Sample Scalar) (rest : List (HostMove Scalar)),
    s.blk.running = false → s.queue = .store a v :: rest → step s = .next ({ s with queue := rest }.hostWrite a v)) ∧
  (∀ (s : State) (answers : List Scalar) (rest : List (HostMove Scalar)),
    s.blk.running = false → s.queue = .draws answers :: rest →
    step s = .next { s with queue := rest, rnd := ⟨s.rnd.fixed ++ answers, s.rnd.taken⟩ }) ∧
  (∀ (s : State) (answers : List Bool) (rest : List (HostMove Scalar)),
    s.blk.running = false → s.queue = .allocs answers :: rest →
    step s = .next { s with queue := rest, alloc := ⟨s.alloc.fixed ++ answers, s.alloc.asked⟩ }) ∧
  (∀ (s : State) (c : BitVec 3) (operands : List Operand) (rest : List (HostMove Scalar)),
    s.blk.running = false → s.queue = .command c operands :: rest →
    (∀ (p : BitVec 4) (a base len : Nat), c = 1 → (p = 14 ∨ p = 15) →
      operands = [.port p, .location a] ∨ operands = [.port p, .stream base len] → step s = .refused (.badPort p)) ∧
    (c = 6 ∨ c = 7 → step s = .refused (.reservedCommand c)) ∧
    (decode (.cmd c operands) = .error (.cmd (.badOperands c)) → step s = .refused (.badOperands c)) ∧
    (∀ e : DecodeError, decode (.cmd c operands) = .error e → ∀ t : State, step s ≠ .next t)) ∧
  (∀ (i : Instr) (s : State), exec i s = Any.exec Config.hardware i s) ∧
  ∀ s : State, step s = Any.step Config.hardware s

/-- 45_lifecycle_commands.md R186, R191, 70_reset_and_hazards.md R236, R238: while a block runs no move of the host is made: commands,
bindings, control values and LIFE stay as they are in every step, and host memory changes only at the two cells of AOUT_L and AOUT_R at
the index of the sample (20_memory.md R53). The step is one whole sample (70_reset_and_hazards.md R245): afterwards the block stands at
slot 0 of the next sample, with no wire kept, or it is over with Ok (44_mixer_and_sample_step.md R172; the record of Ok is log entry
25). -/
def Obligations.NoHostMoveDuringBlock : Prop :=
  ∀ s t : State, s.blk.running = true → step s = .next t →
    t.queue = s.queue ∧ t.ports = s.ports ∧ t.life = s.life ∧ t.sr = s.sr ∧ t.cap = s.cap ∧ t.alloc = s.alloc ∧ t.unit = s.unit ∧
    (∀ cell : Nat,
      (∀ source : Source, s.ports.aoutL = some source ∨ s.ports.aoutR = some source → cell ≠ source.base + s.blk.n) →
      t.hostRead cell = s.hostRead cell) ∧
    (s.blk.n + 1 < s.blk.len →
      t.blk = ⟨s.blk.running, s.blk.latches, s.blk.n + 1, s.blk.len, .lfo, .zero⟩ ∧ t.outcome = s.outcome) ∧
    (s.blk.len ≤ s.blk.n + 1 → t.blk = .idle ∧ t.outcome = .ok)

/-- 00_scope.md R5, 60_exceptions.md R214: no writer of the persistent registers but the operations of a block: a step outside a block
leaves every register as it is, or CREATE or ACTIVATE has put every one to 0 (10_state.md R40), or it is DESTROY, after which the
registers cease to exist (45_lifecycle_commands.md R191) and the zeros in the model's fields are its own (log entry 13). -/
def Obligations.RegistersWrittenOnlyByTheCore : Prop :=
  ∀ s t : State, s.blk.running = false → step s = .next t →
    s.sameRegisters t ∨
    (t.lfo = .zero ∧ t.bq = .zero ∧ t.svf = .zero ∧ t.lad = LadRegs.zero ∧ t.fmt = FmtRegs.zero ∧ t.comb = .zero ∧
      t.ringPhase = 0 ∧
      ∃ (c : BitVec 3) (operands : List Operand) (rest : List (HostMove Scalar)),
        s.queue = .command c operands :: rest ∧ (c = 0 ∨ c = 2 ∨ c = 5))

/-- 10_state.md R21: SR and CAP are written by CREATE only: while an instance lives, every step keeps them. -/
def Obligations.SampleRateImmutable : Prop :=
  ∀ s t : State, s.life ≠ .absent → t.life ≠ .absent → step s = .next t → t.sr = s.sr ∧ t.cap = s.cap

/-! ### Lifecycle commands -/

/-- 45_lifecycle_commands.md R185: CREATE from Absent with an admitted sample rate completes in one of its two ways, whichever the
environment chooses (the free value of log entry 8); otherwise it is refused, lifecycle before sample rate (60_exceptions.md R213). On
the reals every real number from 20/0.49 on is a sample rate (00_scope.md R6). -/
def Obligations.CreateInstance : Prop :=
  (∀ (s : State) (sr : Scalar), s.blk.running = false → s.life = .absent → 20 / (49 / 100) ≤ sr →
    ∃ t : State, exec (.create (.value sr)) s = .next t ∧
      (t.outcome = .ok ∨ t.outcome = .createFailed) ∧
      (t.outcome = .ok →
        t = { s with
          sr := sr, cap := 4096, life := .inactive, lfo := .zero, bq := .zero, svf := .zero, lad := LadRegs.zero,
          fmt := FmtRegs.zero, comb := .zero, ringPhase := 0, ports := .none, blk := .idle, alloc := t.alloc, outcome := .ok } ∧
        (∀ port : Port, t.ports.bound port = false) ∧ ∀ i : Nat, t.comb.read i = 0) ∧
      (t.outcome = .createFailed → t = { s with alloc := t.alloc, outcome := .createFailed })) ∧
  (∀ (s : State) (b : Bool) (rest : List Bool) (sr : Scalar), s.blk.running = false → s.life = .absent →
    20 / (49 / 100) ≤ sr → s.alloc.fixed = b :: rest →
    ∃ t : State, exec (.create (.value sr)) s = .next t ∧ t.outcome = (if b then .createFailed else .ok)) ∧
  (∀ (H : Hardware ℝ) (s : Any.State ℝ) (sr : ℝ), H.IsReference → s.blk.running = false → s.life = .absent → 20 / (49 / 100) ≤ sr →
    ∃ t : Any.State ℝ, Any.exec H (.create (.value sr)) s = .next t ∧
      (t.outcome = .ok ∧ t.sr = sr ∧ t.cap = H.cap ∧ t.life = .inactive ∨ t.outcome = .createFailed ∧ t.life = .absent)) ∧
  (∀ (s : State) (v : Sample Scalar), s.life ≠ .absent → exec (.create v) s = .refused .badLifecycle) ∧
  (∀ (s : State) (v : Sample Scalar), s.blk.running = false → s.life = .absent →
    (∀ x : Scalar, v = .value x → x < 20 / (49 / 100)) → exec (.create v) s = .refused .badSampleRate)

/-- 45_lifecycle_commands.md R186: BIND completes in a live instance: it sets BOUND and the source of its port, replaces an earlier
binding, and changes no register, no other port and no host cell. -/
def Obligations.BindPort : Prop :=
  ∀ (s : State) (port : Port) (source : Source), s.blk.running = false → s.life ≠ .absent →
    ∃ p : Ports,
      exec (.bind port source) s = .next { s with ports := p, outcome := .ok } ∧
      p.bound port = true ∧ p.get port = some source ∧ ∀ other : Port, other ≠ port → p.get other = s.ports.get other

/-- 45_lifecycle_commands.md R187: ACTIVATE completes in a live instance: every register and every COMB slot 0, LIFE Active, and SR,
CAP, bindings and the random source unchanged. -/
def Obligations.ActivateZeroesState : Prop :=
  ∀ s : State, s.blk.running = false → s.life ≠ .absent →
    ∃ t : State,
      exec .activate s = .next t ∧
      t = { s with
        lfo := ⟨0, 0, 0, 0, 0⟩, bq := ⟨0, 0⟩, svf := ⟨0, 0⟩, lad := #v[0, 0, 0, 0], fmt := #v[⟨0, 0⟩, ⟨0, 0⟩, ⟨0, 0⟩],
        comb := t.comb, ringPhase := 0, life := .active, outcome := .ok } ∧
      t.comb.w = 0 ∧ ∀ i : Nat, t.comb.read i = 0

/-- 45_lifecycle_commands.md R190, R191: DEACTIVATE changes nothing but LIFE; after DESTROY no instance exists, and every command but
CREATE is refused. What the fields of the model hold then is log entry 13. -/
def Obligations.DeactivateAndDestroy : Prop :=
  (∀ s : State, s.blk.running = false → s.life = .active →
    exec .deactivate s = .next { s with life := .inactive, outcome := .ok }) ∧
  (∀ s : State, s.blk.running = false → s.life ≠ .absent →
    ∃ t : State, exec .destroy s = .next t ∧ t.life = .absent ∧ t.host = s.host ∧ t.queue = s.queue ∧ t.rnd = s.rnd ∧
      t.nothingHeld ∧
      ∀ (port : Port) (source : Source) (count : Nat),
        exec (.bind port source) t = .refused .badLifecycle ∧ exec .activate t = .refused .badLifecycle ∧
        exec (.process count) t = .refused .badLifecycle ∧ exec .deactivate t = .refused .badLifecycle ∧
        exec .destroy t = .refused .badLifecycle)

/-- 45_lifecycle_commands.md R192: the table of lifecycle transitions, for a command that is looked at (no block runs). A successful
CREATE is taken by its outcome. -/
def Obligations.LifecycleTable : Prop :=
  ∀ (s : State) (v : Sample Scalar) (port : Port) (source : Source) (count : Nat), s.blk.running = false →
    (s.life = .absent →
      (∀ t : State, exec (.create v) s = .next t →
        (t.outcome = .ok ∧ t.life = .inactive) ∨ (t.outcome = .createFailed ∧ t.life = .absent)) ∧
      exec (.bind port source) s = .refused .badLifecycle ∧ exec .activate s = .refused .badLifecycle ∧
      exec (.process count) s = .refused .badLifecycle ∧ exec .deactivate s = .refused .badLifecycle ∧
      exec .destroy s = .refused .badLifecycle) ∧
    (s.life = .inactive →
      exec (.create v) s = .refused .badLifecycle ∧
      (∃ t : State, exec (.bind port source) s = .next t ∧ t.life = .inactive) ∧
      (∃ t : State, exec .activate s = .next t ∧ t.life = .active) ∧
      exec (.process count) s = .refused .badLifecycle ∧ exec .deactivate s = .refused .badLifecycle ∧
      (∃ t : State, exec .destroy s = .next t ∧ t.life = .absent)) ∧
    (s.life = .active →
      exec (.create v) s = .refused .badLifecycle ∧
      (∃ t : State, exec (.bind port source) s = .next t ∧ t.life = .active) ∧
      (∃ t : State, exec .activate s = .next t ∧ t.life = .active) ∧
      (∀ t : State, exec (.process count) s = .next t → t.life = .active) ∧
      (∃ t : State, exec .deactivate s = .next t ∧ t.life = .inactive) ∧
      (∃ t : State, exec .destroy s = .next t ∧ t.life = .absent))

/-- 60_exceptions.md R202: with cutoff, LFO rate or LFO slew unbound, PROCESS is skipped whatever else holds (other unbound ports,
reserved selectors, streams), and nothing changes: no register, no host cell, no draw. The record of the outcome is the model's own
(log entry 25). -/
def Obligations.SkippedBlockChangesNothing : Prop :=
  ∀ (s : State) (count : Nat), s.blk.running = false → s.life = .active →
    s.ports.cutoff = none ∨ s.ports.rate = none ∨ s.ports.slew = none →
    exec (.process count) s = .next { s with outcome := .skipped }

/-- 45_lifecycle_commands.md R188, 60_exceptions.md R213: the checks of PROCESS in their order, each deciding the outcome when those
before it pass; a refused or faulted PROCESS leaves no next state, so it changes nothing (60_exceptions.md R215). Which unbound port is
reported is log entry 14: here, some unbound port. -/
def Obligations.ProcessChecksInOrder : Prop :=
  ∀ (s : State) (count : Nat), s.blk.running = false →
    (s.life ≠ .active → exec (.process count) s = .refused .badLifecycle) ∧
    (s.life = .active → s.ports.bound .cutoff = true → s.ports.bound .rate = true → s.ports.bound .slew = true →
      ((∃ port : Port, s.ports.bound port = false) →
        ∃ port : Port, s.ports.bound port = false ∧ exec (.process count) s = .refused (.unboundPort port)) ∧
      ((∀ port : Port, s.ports.bound port = true) →
        (s.ports.streamsOk count = false → exec (.process count) s = .refused .badStreams) ∧
        (s.ports.streamsOk count = true →
          ((s.latch Config.num = none ∨ s.inputsFinite Config.num count = false) → exec (.process count) s = .refused .nonFinite) ∧
          ∀ l : Latches Scalar, s.latch Config.num = some l → s.inputsFinite Config.num count = true →
            (¬(0 ≤ l.mode ∧ l.mode ≤ 5) → exec (.process count) s = .fault (.reservedSelector .mode l.mode)) ∧
            ((0 ≤ l.mode ∧ l.mode ≤ 5) → ¬(0 ≤ l.shape ∧ l.shape ≤ 5) →
              exec (.process count) s = .fault (.reservedSelector .shape l.shape)) ∧
            ((0 ≤ l.mode ∧ l.mode ≤ 5) → (0 ≤ l.shape ∧ l.shape ≤ 5) → ¬(0 ≤ l.vowel ∧ l.vowel ≤ 4) →
              exec (.process count) s = .fault (.reservedSelector .vowel l.vowel)) ∧
            (l.legal → ¬(0 ≤ l.rate ∧ l.rate < s.sr) → exec (.process count) s = .refused .rateOutOfRange))))

/-- 00_scope.md R10, 60_exceptions.md R209: on any number system a value that is not finite, because `S` has no scalar for it or because
NUM calls its scalar not finite, is refused: at a control port or among `AIN[0..N−1]` by PROCESS, as sample rate by CREATE
(93_implementation_defined.md U15); the form of that test is log entry 12. In the reference instantiation every scalar is finite. -/
def Obligations.NonFiniteValuesAreRefused : Prop :=
  (∀ (S : Type) [Arith S] [DecidableLT S] [DecidableLE S] [DecidableEq S] (H : Hardware S) (s : Any.State S) (count : Nat),
    s.blk.running = false → s.life = .active → (∀ port : Port, s.ports.bound port = true) → s.ports.streamsOk count = true →
    (∀ (port : Port) (source : Source), port.isAudio = false → s.ports.get port = some source →
      (s.hostRead source.base).notFinite H.num → Any.exec H (.process count) s = .refused .nonFinite) ∧
    (∀ (input : Source) (k : Nat), s.ports.ain = some input → k < count →
      (s.hostRead (input.base + k)).notFinite H.num → Any.exec H (.process count) s = .refused .nonFinite)) ∧
  (∀ (S : Type) [Arith S] [DecidableLT S] [DecidableLE S] [DecidableEq S] (H : Hardware S) (s : Any.State S) (v : Sample S),
    s.blk.running = false → s.life = .absent → v.notFinite H.num → Any.exec H (.create v) s = .refused .badSampleRate) ∧
  ∀ x : ℝ, ¬(Sample.value x).notFinite Reference.num

/-- The meaning of check 4 (60_exceptions.md R207, 20_memory.md R65): each stream holds `N` samples, and each pair of streams shares
no cell or is the same region. -/
def Obligations.StreamRule : Prop :=
  ∀ (p : Ports) (i l r : Source) (count : Nat), p.ain = some i → p.aoutL = some l → p.aoutR = some r →
    (p.streamsOk count = true ↔
      (count ≤ i.len ∧ count ≤ l.len ∧ count ≤ r.len) ∧
      ∀ a b : Source, (a, b) ∈ [(i, l), (i, r), (l, r)] →
        a = b ∨ ∀ cell : Nat, ¬((a.base ≤ cell ∧ cell < a.base + a.len) ∧ (b.base ≤ cell ∧ cell < b.base + b.len)))

/-- 45_lifecycle_commands.md R188, R189, 44_mixer_and_sample_step.md R172: an admitted PROCESS completes: the latches are taken, the
block stands before sample 0, whose dry sample can be read, and no register, port or host cell has changed; with `N = 0` the command is
over with Ok and changes nothing. -/
def Obligations.ProcessStartsBlock : Prop :=
  ∀ (s : State) (l : Latches Scalar) (count : Nat), s.blk = .idle → s.life = .active →
    (∀ port : Port, s.ports.bound port = true) → s.ports.streamsOk count = true → s.latch Config.num = some l →
    s.inputsFinite Config.num count = true → l.legal → 0 ≤ l.rate → l.rate < s.sr →
    (count = 0 → exec (.process count) s = .next { s with outcome := .ok }) ∧
    (0 < count →
      (∃ (input : Source) (x : Scalar), s.ports.ain = some input ∧ s.hostRead input.base = .value x) ∧
      exec (.process count) s = .next { s with blk := ⟨true, l, 0, count, .lfo, .zero⟩ })

/-! ### The block -/

/-- 44_mixer_and_sample_step.md R171, 70_reset_and_hazards.md R245: one step of a running block is one sample step of the spec, with all
seven slots, on the dry sample it finds in AIN at `n`; it leaves the block at the next sample (`n + 1`) or over with Ok (R172; the record
of Ok is log entry 25). -/
def Obligations.OneStepIsOneSampleStep : Prop :=
  ∀ (S : Type) [Arith S] [DecidableLT S] [DecidableLE S] [DecidableEq S] (H : Hardware S) (s t : Any.State S) (x : S),
    s.blk.running = true → s.blk.slot = .lfo → s.readIn H.num s.blk.n = .ok x →
    sampleStep H s.blk.latches s.blk.n x { s with blk := .idle } = some t →
    Any.step H s =
      .next
        (if s.blk.n + 1 < s.blk.len then { t with blk := ⟨true, s.blk.latches, s.blk.n + 1, s.blk.len, .lfo, .zero⟩ }
        else { t with blk := .idle, outcome := .ok })

/-- 44_mixer_and_sample_step.md R172, 45_lifecycle_commands.md R189: an admitted PROCESS N runs to completion: exactly `N` sample steps of
R171 in order from index 0, one for each of the next `N` steps, on the samples of AIN, and returns Ok with no block running. -/
def Obligations.ProcessRunsTheWholeBlock : Prop :=
  ∀ (S : Type) [Arith S] [DecidableLT S] [DecidableLE S] [DecidableEq S] (H : Hardware S) (s : Any.State S) (l : Latches S) (count : Nat),
    s.Sound H → s.blk.running = false → s.admission H.num count = .ok l →
    ∃ t u : Any.State S,
      runSamples H l 0 count s = some t ∧
      Any.exec H (.process count) s = .next u ∧
      Host.Core.run (Any.core H) count u = .next { t with blk := .idle, outcome := .ok }

/-- 44_mixer_and_sample_step.md R172: splitting a block does not change the result: `N1` samples and then `N2` samples on streams that
begin `N1` cells later give the registers and the host memory of `N1 + N2` samples. -/
def Obligations.SplittingABlockChangesNothing : Prop :=
  ∀ (S : Type) [Arith S] [DecidableLT S] [DecidableLE S] [DecidableEq S] (H : Hardware S) (s t : Any.State S) (l : Latches S)
    (n1 n2 : Nat) (input left right : Source),
    s.ports.ain = some input → s.ports.aoutL = some left → s.ports.aoutR = some right →
    runSamples H l 0 n1 s = some t →
    let rebound := { t with ports := { t.ports with
      ain := some ⟨input.base + n1, input.len - n1⟩
      aoutL := some ⟨left.base + n1, left.len - n1⟩
      aoutR := some ⟨right.base + n1, right.len - n1⟩ } }
    runSamples H l 0 (n1 + n2) s = (runSamples H l 0 n2 rebound).map (fun u => { u with ports := s.ports })

/-- 45_lifecycle_commands.md R187, 70_reset_and_hazards.md R231: after ACTIVATE a block of silence gives silence, in every mode and for
every control setting: every output sample is 0, and so is still every register of the filter units that holds a signal (BQ_Z, SVF_S,
LAD_S, FMT_Z, COMB_BUF). RING_PHASE (10_state.md R30) and COMB_W are left out: they advance in modes 5 and 4. -/
def Obligations.SilenceAfterActivation : Prop :=
  ∀ (H : Hardware ℝ) (s a t : Any.State ℝ) (l : Latches ℝ) (count : Nat) (input left right : Source),
    H.IsReference → Any.exec H .activate s = .next a → a.ports.ain = some input → a.ports.aoutL = some left → a.ports.aoutR = some right →
    (∀ k : Nat, k < count → a.hostRead (input.base + k) = .value 0) →
    runSamples H l 0 count a = some t →
    t.filtersSilent ∧
    ∀ k : Nat, k < count → t.hostRead (left.base + k) = .value 0 ∧ t.hostRead (right.base + k) = .value 0

/-- 20_memory.md R53: a block writes both outputs at every index `0 .. N−1`, with the same scalar on both channels, and no other host
cell; it never writes AIN unless an output is the same region (R65). -/
def Obligations.BlockFillsBothOutputs : Prop :=
  ∀ (S : Type) [Arith S] [DecidableLT S] [DecidableLE S] [DecidableEq S] (H : Hardware S) (s t : Any.State S) (l : Latches S)
    (count : Nat) (left right : Source),
    s.ports.aoutL = some left → s.ports.aoutR = some right → s.ports.streamsOk count = true →
    runSamples H l 0 count s = some t →
    (∀ k : Nat, k < count →
      ∃ out : S, t.hostRead (left.base + k) = .value out ∧ t.hostRead (right.base + k) = .value out) ∧
    ∀ cell : Nat, (∀ k : Nat, k < count → cell ≠ left.base + k ∧ cell ≠ right.base + k) → t.hostRead cell = s.hostRead cell

/-! ### Invariants -/

/-- The invariant holds before the first command of every instance. What the fields hold then is log entry 13. -/
def Obligations.InvariantAtReset : Prop :=
  State.reset.Sound Config.hardware ∧
  (∀ unit : Nat, (Any.State.reset Config.CAP unit : State).Sound Config.hardware) ∧
  ∀ (H : Hardware ℝ) (unit : Nat), H.IsReference → (Any.State.reset H.cap unit).Inv H

/-- 10_state.md R39, R27, R21, R29, R30: every step keeps the invariant: on every number system the cursor and slots below CAP, the
memories in canonical form, the admission conditions of the running block, and that it stands at slot 0 with no wire kept
(10_state.md R23, 00_scope.md R8); on the reals also the phases in [0, TWO_PI) and the ladder in [−1, 1]. -/
def Obligations.EveryStepKeepsTheInvariant : Prop :=
  (∀ s t : State, s.Sound Config.hardware → step s = .next t → t.Sound Config.hardware) ∧
  (∀ (S : Type) [Arith S] [DecidableLT S] [DecidableLE S] [DecidableEq S] (H : Hardware S) (s t : Any.State S),
    s.Sound H → Any.step H s = .next t → t.Sound H) ∧
  ∀ (H : Hardware ℝ) (s t : Any.State ℝ), H.IsReference → s.Inv H → Any.step H s = .next t → t.Inv H

/-- 44_mixer_and_sample_step.md R171, 70_reset_and_hazards.md R237: an admitted block cannot fault, be refused or stall: from every state of
the invariant in which a block runs, the step answers a next state, and after as many steps as samples are left, one for each
(70_reset_and_hazards.md R245), the block is over with Ok. -/
def Obligations.RunningBlockNeverStops : Prop :=
  (∀ s : State, s.Sound Config.hardware → s.blk.running = true → ∃ t : State, step s = .next t) ∧
  ∀ (S : Type) [Arith S] [DecidableLT S] [DecidableLE S] [DecidableEq S] (H : Hardware S) (s : Any.State S),
    s.Sound H → s.blk.running = true →
    (∃ t : Any.State S, Any.step H s = .next t) ∧
    ∃ t : Any.State S, Host.Core.run (Any.core H) (s.blk.len - s.blk.n) s = .next t ∧
      t.blk = .idle ∧ t.outcome = .ok ∧ t.life = .active
end

