-- ==== Sys2Proof/Laws/Decode.lean ====
section
/-! SUPPORT. Round trips of the single fields of 30_encoding.md R70: a port, shape, mode or slot number and what it stands for.
-/

namespace Sys2Proof

variable {S : Type}

/-- The eight values of a 3-bit field. -/
theorem field_cases : ∀ f : BitVec 3, f = 0 ∨ f = 1 ∨ f = 2 ∨ f = 3 ∨ f = 4 ∨ f = 5 ∨ f = 6 ∨ f = 7 := by decide

@[simp] theorem decodePort_portNumber (port : Port) : decodePort (portNumber port) = some port := by
  cases port <;> rfl

/-- A port number that spells a port is that port's number. -/
theorem portNumber_of_decodePort {p : BitVec 4} {port : Port} (h : decodePort p = some port) : portNumber port = p := by
  unfold decodePort at h
  split at h <;> cases h <;> exact BitVec.eq_of_toNat_eq (by simp_all [portNumber])

/-- Exactly the numbers 14 and 15 spell no port (30_encoding.md R81). -/
theorem decodePort_eq_none : ∀ p : BitVec 4, decodePort p = none ↔ p = 14 ∨ p = 15 := by decide

/-- What a shape field spells. -/
theorem decodeShape_cases {f : BitVec 3} {i : Instr S} (h : decodeShape f = some i) :
    (f = 0 ∧ i = .lfoSin) ∨ (f = 1 ∧ i = .lfoTri) ∨ (f = 2 ∧ i = .lfoRup) ∨ (f = 3 ∧ i = .lfoRdn) ∨
      (f = 4 ∧ i = .lfoSqr) ∨ (f = 5 ∧ i = .lfoSnh) := by
  rcases field_cases f with rfl | rfl | rfl | rfl | rfl | rfl | rfl | rfl <;>
    first
    | exact nomatch (show none = some i from h)
    | (obtain rfl := Option.some.inj h; simp)

/-- What a mode field spells. -/
theorem decodeMode_cases {f : BitVec 3} {i : Instr S} (h : decodeMode f = some i) :
    (f = 0 ∧ i = .fltBq) ∨ (f = 1 ∧ i = .fltSvf) ∨ (f = 2 ∧ i = .fltLad) ∨ (f = 3 ∧ i = .fltVow) ∨
      (f = 4 ∧ i = .fltComb) ∨ (f = 5 ∧ i = .fltRing) := by
  rcases field_cases f with rfl | rfl | rfl | rfl | rfl | rfl | rfl | rfl <;>
    first
    | exact nomatch (show none = some i from h)
    | (obtain rfl := Option.some.inj h; simp)

/-- A shape field spells an operation exactly when it is below N_SHAPES. -/
theorem decodeShape_isSome (f : BitVec 3) : (decodeShape (S := S) f).isSome = decide (f.toNat < Config.N_SHAPES) := by
  rcases field_cases f with rfl | rfl | rfl | rfl | rfl | rfl | rfl | rfl <;> rfl

/-- A mode field spells an operation exactly when it is below N_MODES. -/
theorem decodeMode_isSome (f : BitVec 3) : (decodeMode (S := S) f).isSome = decide (f.toNat < Config.N_MODES) := by
  rcases field_cases f with rfl | rfl | rfl | rfl | rfl | rfl | rfl | rfl <;> rfl

/-- A vowel field names a row exactly when it is below N_VOWELS, and then it is the number of that row. -/
theorem decodeVowel_eq {f : BitVec 3} {v : Fin Config.N_VOWELS} : decodeVowel f = some v ↔ f.toNat = v.val := by
  unfold decodeVowel
  split
  · simp [Fin.ext_iff]
  · next h => exact ⟨(fun e => nomatch e), fun e => absurd (e ▸ v.isLt) h⟩

/-- A shape field that spells an operation is the code of that operation. -/
theorem encode_of_decodeShape {f : BitVec 3} {i : Instr S} (h : decodeShape f = some i) :
    encode i = .shape f ∧ i.wf = true := by
  rcases decodeShape_cases h with ⟨rfl, rfl⟩ | ⟨rfl, rfl⟩ | ⟨rfl, rfl⟩ | ⟨rfl, rfl⟩ | ⟨rfl, rfl⟩ | ⟨rfl, rfl⟩ <;> exact ⟨rfl, rfl⟩

/-- A mode field that spells an operation is the code of that operation. -/
theorem encode_of_decodeMode {f : BitVec 3} {i : Instr S} (h : decodeMode f = some i) :
    encode i = .mode f ∧ i.wf = true := by
  rcases decodeMode_cases h with ⟨rfl, rfl⟩ | ⟨rfl, rfl⟩ | ⟨rfl, rfl⟩ | ⟨rfl, rfl⟩ | ⟨rfl, rfl⟩ | ⟨rfl, rfl⟩ <;> exact ⟨rfl, rfl⟩

/-- A slot number that spells an operation is the code of that operation. -/
theorem encode_of_decodeSlot {f : BitVec 3} {i : Instr S} (h : decodeSlot f = .ok i) :
    encode i = .slot f ∧ i.wf = true := by
  rcases field_cases f with rfl | rfl | rfl | rfl | rfl | rfl | rfl | rfl <;> simp [decodeSlot] at h <;> subst h <;> exact ⟨rfl, rfl⟩

/-- A source of the kind of its port is read back from its operand. -/
theorem decodeBind_encodeSource (c : BitVec 3) {port : Port} {source : Source} (h : source.fits port = true) :
    decodeBind c [.port (portNumber port), encodeSource port source] = .ok (.bind port source : Instr S) := by
  obtain ⟨base, len⟩ := source
  cases hp : port.isAudio with
  | true => simp [encodeSource, decodeBind, hp]
  | false =>
    simp [Source.fits, hp] at h
    simp [encodeSource, decodeBind, hp, h]

end Sys2Proof
end

