-- ==== Sys2Proof/Laws/Memory.lean ====
section
/-! SUPPORT. The laws of the two memory primitives (20_memory.md R51): a read after a write, and that a write keeps the canonical form.
-/

namespace Sys2Proof.Machine

variable {α : Type}

@[simp] theorem Memory.read_nil (d : α) (a : Nat) : Memory.read d [] a = d := rfl

theorem Memory.read_cons (d : α) (k : Nat) (v : α) (m : Memory α) (a : Nat) :
    Memory.read d ((k, v) :: m) a = if k = a then v else Memory.read d m a := rfl

theorem Memory.read_erase_same (d : α) (m : Memory α) (a : Nat) : Memory.read d (Memory.erase m a) a = d := by
  induction m with
  | nil => rfl
  | cons c m ih =>
    obtain ⟨k, v⟩ := c
    by_cases h : k = a
    · simpa [Memory.erase, h] using ih
    · simpa [Memory.erase, h, Memory.read_cons] using ih

theorem Memory.read_erase_other (d : α) (m : Memory α) {a b : Nat} (hab : b ≠ a) :
    Memory.read d (Memory.erase m a) b = Memory.read d m b := by
  induction m with
  | nil => rfl
  | cons c m ih =>
    obtain ⟨k, v⟩ := c
    by_cases h : k = a
    · subst h
      have : Memory.erase ((k, v) :: m) k = Memory.erase m k := by simp [Memory.erase]
      rw [this, ih, Memory.read_cons, if_neg (Ne.symm hab)]
    · have : Memory.erase ((k, v) :: m) a = (k, v) :: Memory.erase m a := by simp [Memory.erase, h]
      rw [this, Memory.read_cons, Memory.read_cons, ih]

theorem Memory.not_mem_erase (m : Memory α) (a : Nat) : ∀ c ∈ Memory.erase m a, c.1 ≠ a := by
  intro c hc
  simpa [Memory.erase] using (List.mem_filter.mp hc).2

theorem Memory.read_insert_same (d : α) (m : Memory α) (a : Nat) (v : α) (h : ∀ c ∈ m, c.1 ≠ a) :
    Memory.read d (Memory.insert m a v) a = v := by
  induction m with
  | nil => simp [Memory.insert, Memory.read_cons]
  | cons c m ih =>
    obtain ⟨k, u⟩ := c
    have hk : k ≠ a := h (k, u) (by simp)
    unfold Memory.insert
    split
    · simp [Memory.read_cons]
    · rw [Memory.read_cons, if_neg hk]
      exact ih fun c hc => h c (by simp [hc])

theorem Memory.read_insert_other (d : α) (m : Memory α) {a b : Nat} (v : α) (hab : b ≠ a) :
    Memory.read d (Memory.insert m a v) b = Memory.read d m b := by
  induction m with
  | nil => simp [Memory.insert, Memory.read_cons, Ne.symm hab]
  | cons c m ih =>
    obtain ⟨k, u⟩ := c
    unfold Memory.insert
    split
    · rw [Memory.read_cons, if_neg (Ne.symm hab)]
    · rw [Memory.read_cons, Memory.read_cons, ih]

section
variable [DecidableEq α]

/-- A read after a write to the same cell gives the value written. -/
theorem Memory.read_write_same (d : α) (m : Memory α) (a : Nat) (v : α) :
    Memory.read d (Memory.write d m a v) a = v := by
  unfold Memory.write
  split
  · next h => rw [h]; exact Memory.read_erase_same d m a
  · exact Memory.read_insert_same d _ a v (Memory.not_mem_erase m a)

/-- A write leaves every other cell alone. -/
theorem Memory.read_write_other (d : α) (m : Memory α) {a b : Nat} (v : α) (hab : b ≠ a) :
    Memory.read d (Memory.write d m a v) b = Memory.read d m b := by
  unfold Memory.write
  split
  · exact Memory.read_erase_other d m hab
  · rw [Memory.read_insert_other d _ v hab, Memory.read_erase_other d m hab]

theorem Memory.mem_insert (m : Memory α) (a : Nat) (v : α) (c : Nat × α) :
    c ∈ Memory.insert m a v ↔ c = (a, v) ∨ c ∈ m := by
  induction m with
  | nil => simp [Memory.insert]
  | cons e m ih =>
    obtain ⟨k, u⟩ := e
    unfold Memory.insert
    split
    · simp
    · simp only [List.mem_cons, ih]
      tauto

theorem Memory.pairwise_insert (m : Memory α) (a : Nat) (v : α)
    (hm : m.Pairwise (fun c d => c.1 < d.1)) (ha : ∀ c ∈ m, c.1 ≠ a) :
    (Memory.insert m a v).Pairwise (fun c d => c.1 < d.1) := by
  induction m with
  | nil => simp [Memory.insert]
  | cons e m ih =>
    obtain ⟨k, u⟩ := e
    have hk : k ≠ a := ha (k, u) (by simp)
    rw [List.pairwise_cons] at hm
    unfold Memory.insert
    split
    · next hlt =>
      refine List.pairwise_cons.mpr ⟨fun c hc => ?_, List.pairwise_cons.mpr hm⟩
      rcases List.mem_cons.mp hc with rfl | hc
      · exact hlt
      · exact hlt.trans (hm.1 c hc)
    · next hge =>
      refine List.pairwise_cons.mpr ⟨fun c hc => ?_, ih hm.2 fun c hc => ha c (by simp [hc])⟩
      rcases (Memory.mem_insert m a v c).mp hc with rfl | hc
      · show k < a
        omega
      · exact hm.1 c hc

theorem Memory.wf_iff (d : α) (m : Memory α) :
    Memory.wf d m = true ↔ m.Pairwise (fun c e => c.1 < e.1) ∧ ∀ c ∈ m, c.2 ≠ d := by
  simp [Memory.wf, List.all_eq_true]

/-- A write keeps the canonical form. -/
theorem Memory.wf_write (d : α) (m : Memory α) (a : Nat) (v : α) (h : Memory.wf d m = true) :
    Memory.wf d (Memory.write d m a v) = true := by
  rw [Memory.wf_iff] at h ⊢
  have he : (Memory.erase m a).Pairwise (fun c e => c.1 < e.1) := h.1.filter _
  have hv : ∀ c ∈ Memory.erase m a, c.2 ≠ d := fun c hc => h.2 c (List.mem_filter.mp hc).1
  unfold Memory.write
  split
  · exact ⟨he, hv⟩
  · next hne =>
    refine ⟨Memory.pairwise_insert _ a v he (Memory.not_mem_erase m a), fun c hc => ?_⟩
    rcases (Memory.mem_insert _ a v c).mp hc with rfl | hc
    · exact hne
    · exact hv c hc

/-- A write lists no cell but its own that was not listed before. -/
theorem Memory.mem_write (d : α) (m : Memory α) (a : Nat) (v : α) (c : Nat × α)
    (h : c ∈ Memory.write d m a v) : c = (a, v) ∨ c ∈ m := by
  unfold Memory.write at h
  split at h
  · exact .inr (List.mem_filter.mp h).1
  · rcases (Memory.mem_insert _ a v c).mp h with h | h
    · exact .inl h
    · exact .inr (List.mem_filter.mp h).1

end

/-! ### The same, for host memory -/

section
variable {S : Type} [Arith S] [DecidableEq S] (s : Any.State S)

theorem Any.State.hostRead_hostWrite_same (a : Nat) (v : Sample S) : (s.hostWrite a v).hostRead a = v :=
  Memory.read_write_same _ _ _ _

theorem Any.State.hostRead_hostWrite_other {a b : Nat} (v : Sample S) (h : b ≠ a) :
    (s.hostWrite a v).hostRead b = s.hostRead b :=
  Memory.read_write_other _ _ _ h

theorem Any.State.wf_hostWrite (a : Nat) (v : Sample S) (h : Memory.wf hostUnlisted s.host = true) :
    Memory.wf hostUnlisted (s.hostWrite a v).host = true :=
  Memory.wf_write _ _ _ _ h

end

theorem Memory.wf_nil [DecidableEq α] (d : α) : Memory.wf d [] = true := by simp [Memory.wf]

end Sys2Proof.Machine
end

