-- ==== Sys2Proof/Laws/Numbers.lean ====
section
/-! SUPPORT. The Boolean wires on any number system; facts about the reference instantiation (00_scope.md R7, R9): the
constants and the primitives as real numbers and real functions, the clamp, one step of a phase, and rounding.
-/

namespace Sys2Proof.Machine

open Sys2Proof

/-! ### On any number system: the Boolean wires (10_state.md R33) -/

section
variable {S : Type} [Arith S] [DecidableLE S] (H : Hardware S) (N : Num S)

theorem wrapFlag_iff (phase inc : S) : wrapFlag N phase inc = true ↔ N.twoPi ≤ phase + inc := decide_eq_true_iff

theorem bypassFlag_iff (step : S) : bypassFlag H step = true ↔ step ≤ H.stepEps := decide_eq_true_iff

theorem latchFlag_iff (stepCnt hold : Nat) : latchFlag stepCnt hold = true ↔ hold ≤ stepCnt := decide_eq_true_iff

theorem rateAdmitted_iff [DecidableLT S] (rate sr : S) : rateAdmitted rate sr = true ↔ 0 ≤ rate ∧ rate < sr := by
  rw [rateAdmitted, Bool.and_eq_true, decide_eq_true_iff, decide_eq_true_iff]

theorem drawable_iff [DecidableLT S] (d : S) : drawable d = true ↔ 0 ≤ d ∧ d < 1 := by
  rw [drawable, Bool.and_eq_true, decide_eq_true_iff, decide_eq_true_iff]

theorem drawDue_iff (shape : Int) (phase inc : S) :
    drawDue N shape phase inc = true ↔ N.twoPi ≤ phase + inc ∧ shape = 5 := by
  rw [drawDue, Bool.and_eq_true, wrapFlag_iff, decide_eq_true_iff]

theorem advancePhase_eq (phase inc : S) :
    advancePhase N phase inc = if N.twoPi ≤ phase + inc then phase + inc - N.twoPi else phase + inc := by
  simp only [advancePhase, wrapFlag_iff]

end

/-! ### The primitives of the reference -/

section
variable (x b e : ℝ)

@[simp] theorem Reference.num_sin : Reference.num.sin x = Real.sin x := rfl
@[simp] theorem Reference.num_cos : Reference.num.cos x = Real.cos x := rfl
@[simp] theorem Reference.num_tan : Reference.num.tan x = Real.tan x := rfl
@[simp] theorem Reference.num_tanh : Reference.num.tanh x = Real.tanh x := rfl
@[simp] theorem Reference.num_exp : Reference.num.exp x = Real.exp x := rfl
@[simp] theorem Reference.num_pi : Reference.num.pi = Real.pi := rfl
@[simp] theorem Reference.num_twoPi : Reference.num.twoPi = 2 * Real.pi := rfl
@[simp] theorem Reference.num_floor : Reference.num.floor x = ⌊x⌋ := rfl
@[simp] theorem Reference.num_rnd : Reference.num.rnd x = nearest Int.floor x := rfl

/-- `pow` on a positive base is the real power. -/
theorem Reference.num_pow {b : ℝ} (hb : 0 < b) : Reference.num.pow b e = b ^ e := by
  rw [Real.rpow_def_of_pos hb, mul_comm]
  rfl

end

/-! ### The constants of R7 as real numbers -/

@[simp] theorem lit_CUT_MIN : (lit Config.CUT_MIN : ℝ) = 20 := by norm_num [Config.CUT_MIN]
@[simp] theorem lit_CUT_MAX_FRAC : (lit Config.CUT_MAX_FRAC : ℝ) = 49 / 100 := by norm_num [Config.CUT_MAX_FRAC]
@[simp] theorem lit_RES_MIN : (lit Config.RES_MIN : ℝ) = 707 / 1000 := by norm_num [Config.RES_MIN]
@[simp] theorem lit_RES_MAX : (lit Config.RES_MAX : ℝ) = 20 := by norm_num [Config.RES_MAX]
@[simp] theorem lit_RES_SPAN : (lit Config.RES_SPAN : ℝ) = 19293 / 1000 := by norm_num [Config.RES_SPAN]
@[simp] theorem lit_LAD_K : (lit Config.LAD_K : ℝ) = 42 / 10 := by norm_num [Config.LAD_K]
@[simp] theorem lit_VOW_REF : (lit Config.VOW_REF : ℝ) = 1000 := by norm_num [Config.VOW_REF]
@[simp] theorem lit_VOW_OCT : (lit Config.VOW_OCT : ℝ) = 1000 := by norm_num [Config.VOW_OCT]
@[simp] theorem lit_VOW_QSCALE : (lit Config.VOW_QSCALE : ℝ) = 1 / 2 := by norm_num [Config.VOW_QSCALE]
@[simp] theorem lit_VOW_GAIN : (lit Config.VOW_GAIN : ℝ) = 3 := by norm_num [Config.VOW_GAIN]
@[simp] theorem lit_COMB_FB : (lit Config.COMB_FB : ℝ) = 99 / 100 := by norm_num [Config.COMB_FB]
@[simp] theorem lit_SLEW_BASE : (lit Config.SLEW_BASE : ℝ) = 1 / 1000 := by norm_num [Config.SLEW_BASE]

/-! ### The functions of one expression -/

theorem conditionCutoff_eq (l : Latches ℝ) (sr modv : ℝ) :
    conditionCutoff l sr modv = min (max (l.cutoff + modv * l.cdepth) 20) (49 / 100 * sr) := by
  simp [conditionCutoff, clamp]

theorem conditionRes_eq (l : Latches ℝ) (modv : ℝ) :
    conditionRes l modv = min (max (l.res + modv * l.rdepth) (707 / 1000)) 20 := by
  simp [conditionRes, clamp]

theorem normalizeRes_eq (q : ℝ) : normalizeRes q = (q - 707 / 1000) / (19293 / 1000) := by simp [normalizeRes]

theorem ladFeedback_eq (nres : ℝ) : ladFeedback nres = nres * (42 / 10) := by simp [ladFeedback]

theorem formantGain_eq (nres : ℝ) : formantGain nres = 1 + 3 * nres := by simp [formantGain]

theorem leastSampleRate_eq : (leastSampleRate : ℝ) = 20 / (49 / 100) := by simp [leastSampleRate]

theorem slewCoeff_eq (k : ℝ) : slewCoeff Reference.num k = (1 / 1000 : ℝ) ^ k := by
  rw [slewCoeff, lit_SLEW_BASE, Reference.num_pow _ (by norm_num)]

theorem formantRatio_eq (fc : ℝ) : formantRatio Reference.num fc = (2 : ℝ) ^ ((fc - 1000) / 1000) := by
  rw [formantRatio, lit_VOW_REF, lit_VOW_OCT, Reference.num_pow _ (by norm_num)]

theorem phaseInc_eq (f sr : ℝ) : phaseInc Reference.num f sr = 2 * Real.pi * f / sr := rfl

theorem angle_eq (f sr : ℝ) : angle Reference.num f sr = 2 * Real.pi * f / sr := rfl

/-- The comb delay with the capacity as a natural number. -/
theorem combDelay_eq (sr fc : ℝ) (cap : Nat) : combDelay sr fc cap = min (max (sr / fc) 1) ((cap : ℝ) - 1) := by
  simp [combDelay, clamp]

/-! ### The clamps -/

/-- At an admitted sample rate the two bounds of the cutoff are in order (00_scope.md R6). -/
theorem conditionCutoff_mem (l : Latches ℝ) {sr : ℝ} (modv : ℝ) (h : 20 / (49 / 100) ≤ sr) :
    20 ≤ conditionCutoff l sr modv ∧ conditionCutoff l sr modv ≤ 49 / 100 * sr := by
  rw [conditionCutoff_eq]
  exact ⟨le_min (le_max_right _ _) (by linarith), min_le_right _ _⟩

theorem conditionRes_mem (l : Latches ℝ) (modv : ℝ) : 707 / 1000 ≤ conditionRes l modv ∧ conditionRes l modv ≤ 20 := by
  rw [conditionRes_eq]
  exact ⟨le_min (le_max_right _ _) (by norm_num), min_le_right _ _⟩

theorem sr_pos {sr : ℝ} (h : 20 / (49 / 100) ≤ sr) : 0 < sr := by linarith

/-! ### Angles -/

theorem angle_pos {f sr : ℝ} (hf : 0 < f) (hs : 0 < sr) : 0 < angle Reference.num f sr := by
  rw [angle_eq]
  positivity

/-- A frequency of at most `c · sr` is an angle of at most `c · 2π`. -/
theorem angle_le {f sr c : ℝ} (hs : 0 < sr) (h : f ≤ c * sr) : angle Reference.num f sr ≤ c * (2 * Real.pi) := by
  have := Real.pi_pos
  rw [angle_eq, div_le_iff₀ hs]
  nlinarith

/-! ### One step of a phase -/

theorem Reference.wrapFlag_iff (phase inc : ℝ) :
    wrapFlag Reference.num phase inc = true ↔ 2 * Real.pi ≤ phase + inc := decide_eq_true_iff

theorem Reference.advancePhase_eq (phase inc : ℝ) :
    advancePhase Reference.num phase inc =
      if 2 * Real.pi ≤ phase + inc then phase + inc - 2 * Real.pi else phase + inc :=
  Sys2Proof.Machine.advancePhase_eq _ _ _

/-- A phase in [0, 2π) and an increment in [0, 2π) leave a phase in [0, 2π). -/
theorem advancePhase_mem {phase inc : ℝ} (h0 : 0 ≤ phase) (h1 : phase < 2 * Real.pi) (i0 : 0 ≤ inc)
    (i1 : inc < 2 * Real.pi) :
    0 ≤ advancePhase Reference.num phase inc ∧ advancePhase Reference.num phase inc < 2 * Real.pi := by
  rw [Reference.advancePhase_eq]
  split <;> constructor <;> linarith

/-! ### Functions that Mathlib states otherwise -/

theorem tanh_lt_one (x : ℝ) : Real.tanh x < 1 := by
  rw [Real.tanh_eq_sinh_div_cosh, div_lt_one (Real.cosh_pos x)]
  exact Real.sinh_lt_cosh x

theorem neg_one_lt_tanh (x : ℝ) : -1 < Real.tanh x := by
  have h := tanh_lt_one (-x)
  rw [Real.tanh_neg] at h
  linarith

theorem exp_neg_lt_one {x : ℝ} (h : x < 0) : Real.exp x < 1 := by
  rw [← Real.exp_zero]
  exact Real.exp_lt_exp.mpr h

/-- The sine has the period 2π, any number of times. -/
theorem sin_sub_mul_two_pi (x : ℝ) (k : Nat) : Real.sin (x - k * (2 * Real.pi)) = Real.sin x :=
  Real.sin_sub_nat_mul_two_pi x k

/-! ### Rounding -/

/-- `rnd` takes non-negative values to the floor of the value and a half. -/
theorem nearest_of_nonneg {x : ℝ} (h : 0 ≤ x) : nearest Int.floor x = ⌊x + 1 / 2⌋ := if_pos h

theorem nearest_of_neg {x : ℝ} (h : x < 0) : nearest Int.floor x = -⌊-x + 1 / 2⌋ := if_neg (not_le.mpr h)

end Sys2Proof.Machine
end

