-- ==== Sys2Proof/Laws/Ports.lean ====
section
/-! SUPPORT. The laws of the port table (10_state.md R32) and of the searches and checks over it.
-/

namespace Sys2Proof.Machine

open Sys2Proof

@[simp] theorem Ports.get_set_same (p : Ports) (port : Port) (v : Option Source) : (p.set port v).get port = v := by
  cases port <;> rfl

theorem Ports.get_set_other (p : Ports) {port other : Port} (v : Option Source) (h : other ≠ port) :
    (p.set port v).get other = p.get other := by
  cases port <;> cases other <;> first | rfl | exact absurd rfl h

@[simp] theorem Ports.get_none (port : Port) : Ports.none.get port = Option.none := by cases port <;> rfl

/-- Two port tables are equal if every port is. -/
theorem Ports.ext_get {p q : Ports} (h : ∀ port : Port, p.get port = q.get port) : p = q := by
  cases p
  cases q
  rw [Ports.mk.injEq]
  exact ⟨h .ain, h .aoutL, h .aoutR, h .cutoff, h .res, h .mix, h .mode, h .vowel, h .rate, h .shape, h .cdepth,
    h .rdepth, h .slew, h .step⟩

theorem Ports.bound_iff (p : Ports) (port : Port) : p.bound port = true ↔ ∃ source, p.get port = some source :=
  Option.isSome_iff_exists

theorem Ports.not_bound_iff (p : Ports) (port : Port) : p.bound port = false ↔ p.get port = Option.none := by
  simp [Ports.bound]

theorem Port.mem_all (port : Port) : port ∈ Port.all := by cases port <;> decide

/-- `skip` (10_state.md R33): one of the three required ports is unbound. -/
theorem Ports.skipFlag_iff (p : Ports) :
    p.skipFlag = true ↔ p.bound .cutoff = false ∨ p.bound .rate = false ∨ p.bound .slew = false := by
  unfold Ports.skipFlag
  cases p.bound .cutoff <;> cases p.bound .rate <;> cases p.bound .slew <;> decide

/-- Check 3 finds nothing exactly when every port is bound. -/
theorem Ports.firstUnbound_eq_none (p : Ports) : p.firstUnbound = Option.none ↔ ∀ port : Port, p.bound port = true := by
  unfold Ports.firstUnbound
  rw [List.find?_eq_none]
  constructor
  · intro h port
    simpa using h port (Port.mem_all port)
  · intro h port _
    simp [h port]

/-- The port that check 3 finds is unbound. -/
theorem Ports.firstUnbound_unbound (p : Ports) {port : Port} (h : p.firstUnbound = some port) : p.bound port = false := by
  simpa using List.find?_some h

/-- Two streams are disjoint exactly when no cell lies in both. -/
theorem disjointSources_iff (a b : Source) :
    disjointSources a b = true ↔
      ∀ cell : Nat, ¬((a.base ≤ cell ∧ cell < a.base + a.len) ∧ (b.base ≤ cell ∧ cell < b.base + b.len)) := by
  simp only [disjointSources, Bool.or_eq_true, decide_eq_true_eq, beq_iff_eq]
  constructor
  · intro h cell
    omega
  · intro h
    have := h (max a.base b.base)
    omega

end Sys2Proof.Machine
end

