-- ==== Sys2Proof/Laws/State.lean ====
section
/-! SUPPORT. One lemma for each field and each update of State, true by rfl, so that no later proof unfolds a record update.
-/

namespace Sys2Proof.Machine

open Sys2Proof

variable {S : Type}

/-! ### pass -/

section
variable (s : Any.State S) (wires : Wires S) (slot : Slot)

@[simp] theorem Any.State.pass_sr : (s.pass wires slot).sr = s.sr := rfl
@[simp] theorem Any.State.pass_cap : (s.pass wires slot).cap = s.cap := rfl
@[simp] theorem Any.State.pass_life : (s.pass wires slot).life = s.life := rfl
@[simp] theorem Any.State.pass_lfo : (s.pass wires slot).lfo = s.lfo := rfl
@[simp] theorem Any.State.pass_bq : (s.pass wires slot).bq = s.bq := rfl
@[simp] theorem Any.State.pass_svf : (s.pass wires slot).svf = s.svf := rfl
@[simp] theorem Any.State.pass_lad : (s.pass wires slot).lad = s.lad := rfl
@[simp] theorem Any.State.pass_fmt : (s.pass wires slot).fmt = s.fmt := rfl
@[simp] theorem Any.State.pass_comb : (s.pass wires slot).comb = s.comb := rfl
@[simp] theorem Any.State.pass_ringPhase : (s.pass wires slot).ringPhase = s.ringPhase := rfl
@[simp] theorem Any.State.pass_ports : (s.pass wires slot).ports = s.ports := rfl
@[simp] theorem Any.State.pass_host : (s.pass wires slot).host = s.host := rfl
@[simp] theorem Any.State.pass_queue : (s.pass wires slot).queue = s.queue := rfl
@[simp] theorem Any.State.pass_rnd : (s.pass wires slot).rnd = s.rnd := rfl
@[simp] theorem Any.State.pass_alloc : (s.pass wires slot).alloc = s.alloc := rfl
@[simp] theorem Any.State.pass_unit : (s.pass wires slot).unit = s.unit := rfl
@[simp] theorem Any.State.pass_outcome : (s.pass wires slot).outcome = s.outcome := rfl
@[simp] theorem Any.State.pass_running : (s.pass wires slot).blk.running = s.blk.running := rfl
@[simp] theorem Any.State.pass_latches : (s.pass wires slot).blk.latches = s.blk.latches := rfl
@[simp] theorem Any.State.pass_n : (s.pass wires slot).blk.n = s.blk.n := rfl
@[simp] theorem Any.State.pass_len : (s.pass wires slot).blk.len = s.blk.len := rfl
@[simp] theorem Any.State.pass_slot : (s.pass wires slot).blk.slot = slot := rfl
@[simp] theorem Any.State.pass_wires : (s.pass wires slot).blk.wires = wires := rfl

end

/-! ### finishBlock, endSample -/

section
variable [Arith S] (s : Any.State S)

@[simp] theorem Any.State.finishBlock_blk : s.finishBlock.blk = .idle := rfl
@[simp] theorem Any.State.finishBlock_outcome : s.finishBlock.outcome = .ok := rfl
@[simp] theorem Any.State.finishBlock_sr : s.finishBlock.sr = s.sr := rfl
@[simp] theorem Any.State.finishBlock_cap : s.finishBlock.cap = s.cap := rfl
@[simp] theorem Any.State.finishBlock_life : s.finishBlock.life = s.life := rfl
@[simp] theorem Any.State.finishBlock_lfo : s.finishBlock.lfo = s.lfo := rfl
@[simp] theorem Any.State.finishBlock_bq : s.finishBlock.bq = s.bq := rfl
@[simp] theorem Any.State.finishBlock_svf : s.finishBlock.svf = s.svf := rfl
@[simp] theorem Any.State.finishBlock_lad : s.finishBlock.lad = s.lad := rfl
@[simp] theorem Any.State.finishBlock_fmt : s.finishBlock.fmt = s.fmt := rfl
@[simp] theorem Any.State.finishBlock_comb : s.finishBlock.comb = s.comb := rfl
@[simp] theorem Any.State.finishBlock_ringPhase : s.finishBlock.ringPhase = s.ringPhase := rfl
@[simp] theorem Any.State.finishBlock_ports : s.finishBlock.ports = s.ports := rfl
@[simp] theorem Any.State.finishBlock_host : s.finishBlock.host = s.host := rfl
@[simp] theorem Any.State.finishBlock_queue : s.finishBlock.queue = s.queue := rfl
@[simp] theorem Any.State.finishBlock_rnd : s.finishBlock.rnd = s.rnd := rfl
@[simp] theorem Any.State.finishBlock_alloc : s.finishBlock.alloc = s.alloc := rfl
@[simp] theorem Any.State.finishBlock_unit : s.finishBlock.unit = s.unit := rfl

@[simp] theorem Any.State.endSample_sr : s.endSample.sr = s.sr := by unfold Any.State.endSample; split <;> rfl
@[simp] theorem Any.State.endSample_cap : s.endSample.cap = s.cap := by unfold Any.State.endSample; split <;> rfl
@[simp] theorem Any.State.endSample_life : s.endSample.life = s.life := by unfold Any.State.endSample; split <;> rfl
@[simp] theorem Any.State.endSample_lfo : s.endSample.lfo = s.lfo := by unfold Any.State.endSample; split <;> rfl
@[simp] theorem Any.State.endSample_bq : s.endSample.bq = s.bq := by unfold Any.State.endSample; split <;> rfl
@[simp] theorem Any.State.endSample_svf : s.endSample.svf = s.svf := by unfold Any.State.endSample; split <;> rfl
@[simp] theorem Any.State.endSample_lad : s.endSample.lad = s.lad := by unfold Any.State.endSample; split <;> rfl
@[simp] theorem Any.State.endSample_fmt : s.endSample.fmt = s.fmt := by unfold Any.State.endSample; split <;> rfl
@[simp] theorem Any.State.endSample_comb : s.endSample.comb = s.comb := by unfold Any.State.endSample; split <;> rfl
@[simp] theorem Any.State.endSample_ringPhase : s.endSample.ringPhase = s.ringPhase := by unfold Any.State.endSample; split <;> rfl
@[simp] theorem Any.State.endSample_ports : s.endSample.ports = s.ports := by unfold Any.State.endSample; split <;> rfl
@[simp] theorem Any.State.endSample_host : s.endSample.host = s.host := by unfold Any.State.endSample; split <;> rfl
@[simp] theorem Any.State.endSample_queue : s.endSample.queue = s.queue := by unfold Any.State.endSample; split <;> rfl
@[simp] theorem Any.State.endSample_rnd : s.endSample.rnd = s.rnd := by unfold Any.State.endSample; split <;> rfl
@[simp] theorem Any.State.endSample_alloc : s.endSample.alloc = s.alloc := by unfold Any.State.endSample; split <;> rfl
@[simp] theorem Any.State.endSample_unit : s.endSample.unit = s.unit := by unfold Any.State.endSample; split <;> rfl

end

/-! ### hostWrite, writeOut -/

section
variable [Arith S] [DecidableEq S] (s : Any.State S) (a : Nat) (v : Sample S) (left right : Source) (n : Nat) (out : S)

@[simp] theorem Any.State.hostWrite_host : (s.hostWrite a v).host = Memory.write hostUnlisted s.host a v := rfl
@[simp] theorem Any.State.hostWrite_sr : (s.hostWrite a v).sr = s.sr := rfl
@[simp] theorem Any.State.hostWrite_cap : (s.hostWrite a v).cap = s.cap := rfl
@[simp] theorem Any.State.hostWrite_life : (s.hostWrite a v).life = s.life := rfl
@[simp] theorem Any.State.hostWrite_lfo : (s.hostWrite a v).lfo = s.lfo := rfl
@[simp] theorem Any.State.hostWrite_bq : (s.hostWrite a v).bq = s.bq := rfl
@[simp] theorem Any.State.hostWrite_svf : (s.hostWrite a v).svf = s.svf := rfl
@[simp] theorem Any.State.hostWrite_lad : (s.hostWrite a v).lad = s.lad := rfl
@[simp] theorem Any.State.hostWrite_fmt : (s.hostWrite a v).fmt = s.fmt := rfl
@[simp] theorem Any.State.hostWrite_comb : (s.hostWrite a v).comb = s.comb := rfl
@[simp] theorem Any.State.hostWrite_ringPhase : (s.hostWrite a v).ringPhase = s.ringPhase := rfl
@[simp] theorem Any.State.hostWrite_ports : (s.hostWrite a v).ports = s.ports := rfl
@[simp] theorem Any.State.hostWrite_blk : (s.hostWrite a v).blk = s.blk := rfl
@[simp] theorem Any.State.hostWrite_queue : (s.hostWrite a v).queue = s.queue := rfl
@[simp] theorem Any.State.hostWrite_rnd : (s.hostWrite a v).rnd = s.rnd := rfl
@[simp] theorem Any.State.hostWrite_alloc : (s.hostWrite a v).alloc = s.alloc := rfl
@[simp] theorem Any.State.hostWrite_unit : (s.hostWrite a v).unit = s.unit := rfl
@[simp] theorem Any.State.hostWrite_outcome : (s.hostWrite a v).outcome = s.outcome := rfl

@[simp] theorem Any.State.writeOut_sr : (s.writeOut left right n out).sr = s.sr := rfl
@[simp] theorem Any.State.writeOut_cap : (s.writeOut left right n out).cap = s.cap := rfl
@[simp] theorem Any.State.writeOut_life : (s.writeOut left right n out).life = s.life := rfl
@[simp] theorem Any.State.writeOut_lfo : (s.writeOut left right n out).lfo = s.lfo := rfl
@[simp] theorem Any.State.writeOut_bq : (s.writeOut left right n out).bq = s.bq := rfl
@[simp] theorem Any.State.writeOut_svf : (s.writeOut left right n out).svf = s.svf := rfl
@[simp] theorem Any.State.writeOut_lad : (s.writeOut left right n out).lad = s.lad := rfl
@[simp] theorem Any.State.writeOut_fmt : (s.writeOut left right n out).fmt = s.fmt := rfl
@[simp] theorem Any.State.writeOut_comb : (s.writeOut left right n out).comb = s.comb := rfl
@[simp] theorem Any.State.writeOut_ringPhase : (s.writeOut left right n out).ringPhase = s.ringPhase := rfl
@[simp] theorem Any.State.writeOut_ports : (s.writeOut left right n out).ports = s.ports := rfl
@[simp] theorem Any.State.writeOut_blk : (s.writeOut left right n out).blk = s.blk := rfl
@[simp] theorem Any.State.writeOut_queue : (s.writeOut left right n out).queue = s.queue := rfl
@[simp] theorem Any.State.writeOut_rnd : (s.writeOut left right n out).rnd = s.rnd := rfl
@[simp] theorem Any.State.writeOut_alloc : (s.writeOut left right n out).alloc = s.alloc := rfl
@[simp] theorem Any.State.writeOut_unit : (s.writeOut left right n out).unit = s.unit := rfl
@[simp] theorem Any.State.writeOut_outcome : (s.writeOut left right n out).outcome = s.outcome := rfl

end

/-! ### zeroRegs, created, destroyed -/

section
variable [Arith S] (H : Hardware S) (s : Any.State S) (sr : S)

@[simp] theorem Any.State.zeroRegs_sr : s.zeroRegs.sr = s.sr := rfl
@[simp] theorem Any.State.zeroRegs_cap : s.zeroRegs.cap = s.cap := rfl
@[simp] theorem Any.State.zeroRegs_life : s.zeroRegs.life = s.life := rfl
@[simp] theorem Any.State.zeroRegs_lfo : s.zeroRegs.lfo = .zero := rfl
@[simp] theorem Any.State.zeroRegs_bq : s.zeroRegs.bq = .zero := rfl
@[simp] theorem Any.State.zeroRegs_svf : s.zeroRegs.svf = .zero := rfl
@[simp] theorem Any.State.zeroRegs_lad : s.zeroRegs.lad = LadRegs.zero := rfl
@[simp] theorem Any.State.zeroRegs_fmt : s.zeroRegs.fmt = FmtRegs.zero := rfl
@[simp] theorem Any.State.zeroRegs_comb : s.zeroRegs.comb = .zero := rfl
@[simp] theorem Any.State.zeroRegs_ringPhase : s.zeroRegs.ringPhase = 0 := rfl
@[simp] theorem Any.State.zeroRegs_ports : s.zeroRegs.ports = s.ports := rfl
@[simp] theorem Any.State.zeroRegs_blk : s.zeroRegs.blk = s.blk := rfl
@[simp] theorem Any.State.zeroRegs_host : s.zeroRegs.host = s.host := rfl
@[simp] theorem Any.State.zeroRegs_queue : s.zeroRegs.queue = s.queue := rfl
@[simp] theorem Any.State.zeroRegs_rnd : s.zeroRegs.rnd = s.rnd := rfl
@[simp] theorem Any.State.zeroRegs_alloc : s.zeroRegs.alloc = s.alloc := rfl
@[simp] theorem Any.State.zeroRegs_unit : s.zeroRegs.unit = s.unit := rfl
@[simp] theorem Any.State.zeroRegs_outcome : s.zeroRegs.outcome = s.outcome := rfl

@[simp] theorem Any.State.created_sr : (s.created H sr).sr = sr := rfl
@[simp] theorem Any.State.created_cap : (s.created H sr).cap = H.cap := rfl
@[simp] theorem Any.State.created_life : (s.created H sr).life = .inactive := rfl
@[simp] theorem Any.State.created_ports : (s.created H sr).ports = .none := rfl
@[simp] theorem Any.State.created_blk : (s.created H sr).blk = .idle := rfl
@[simp] theorem Any.State.created_host : (s.created H sr).host = s.host := rfl
@[simp] theorem Any.State.created_unit : (s.created H sr).unit = s.unit := rfl
@[simp] theorem Any.State.created_outcome : (s.created H sr).outcome = .ok := rfl

@[simp] theorem Any.State.destroyed_sr : (s.destroyed H).sr = 0 := rfl
@[simp] theorem Any.State.destroyed_cap : (s.destroyed H).cap = H.cap := rfl
@[simp] theorem Any.State.destroyed_life : (s.destroyed H).life = .absent := rfl
@[simp] theorem Any.State.destroyed_ports : (s.destroyed H).ports = .none := rfl
@[simp] theorem Any.State.destroyed_blk : (s.destroyed H).blk = .idle := rfl
@[simp] theorem Any.State.destroyed_host : (s.destroyed H).host = s.host := rfl
@[simp] theorem Any.State.destroyed_unit : (s.destroyed H).unit = s.unit := rfl
@[simp] theorem Any.State.destroyed_outcome : (s.destroyed H).outcome = .ok := rfl

end

end Sys2Proof.Machine
end

