-- ==== Sys2Proof/Laws/Ops.lean ====
section
/-! SUPPORT. For each shared operation, once, everything it can do: later proofs cite these and unfold nothing.
-/

namespace Sys2Proof.Machine

open Sys2Proof

variable {S : Type}

/-- A cause that leaves a next state leaves the state as it was, but for the record of the outcome (60_exceptions.md R215). -/
theorem Any.raise_next {c : Cause} {s t : Any.State S} (h : Any.raise c s = .next t) :
    (c = .ok ∧ t = { s with outcome := .ok }) ∨ (c = .skipped ∧ t = { s with outcome := .skipped }) ∨
      (c = .createFailed ∧ t = { s with outcome := .createFailed }) := by
  cases c <;> simp [Any.raise] at h <;> simp [← h]

@[simp] theorem Any.raise_ok (s : Any.State S) : Any.raise .ok s = .next { s with outcome := .ok } := rfl

@[simp] theorem Any.raise_badLifecycle (s : Any.State S) : Any.raise .badLifecycle s = .refused .badLifecycle := rfl

@[simp] theorem Any.andThen_next (s : Any.State S) (rest : Any.State S → Any.Outcome S) : Any.andThen (.next s) rest = rest s := rfl

/-- Three parts of a step, one after another. -/
theorem Any.andThen_assoc (o : Any.Outcome S) (f g : Any.State S → Any.Outcome S) :
    Any.andThen (Any.andThen o f) g = Any.andThen o fun s => Any.andThen (f s) g := by
  cases o <;> rfl

/-- Two parts of a step that have a next state together have one each. -/
theorem Any.andThen_eq_next {o : Any.Outcome S} {rest : Any.State S → Any.Outcome S} {t : Any.State S}
    (h : Any.andThen o rest = .next t) : ∃ s, o = .next s ∧ rest s = .next t := by
  cases o with
  | next s => exact ⟨s, rfl, h⟩
  | fault r => cases h
  | refused r => cases h

/-- When a command is looked at: no block runs and LIFE is one that admits it. -/
theorem Any.State.admits_iff (s : Any.State S) (lives : List Life) :
    s.admits lives = true ↔ s.blk.running = false ∧ s.life ∈ lives := by
  simp [Any.State.admits]

variable [Arith S]

omit [Arith S] in
/-- The scalar of a value of the host: the value is a scalar that NUM calls finite. -/
theorem Sample.scalar?_eq_some {N : Num S} {v : Sample S} {x : S} : v.scalar? N = some x ↔ v = .value x ∧ N.isFinite x = true := by
  cases v <;> simp [Sample.scalar?]
  exact ⟨fun h => ⟨h.2, h.2 ▸ h.1⟩, fun h => ⟨h.1 ▸ h.2, h.1⟩⟩

omit [Arith S] in
/-- A value of the host has no scalar exactly when it is not finite. -/
theorem Sample.scalar?_eq_none {N : Num S} {v : Sample S} : v.scalar? N = none ↔ v.notFinite N := by
  cases v <;> simp [Sample.scalar?, Sample.notFinite]

/-- A read of host memory looks at host memory alone. -/
theorem Any.State.hostRead_congr {s t : Any.State S} (h : t.host = s.host) (a : Nat) : t.hostRead a = s.hostRead a := by
  rw [Any.State.hostRead, Any.State.hostRead, h]

variable {N : Num S}

/-- A sample that a block can read is a finite scalar of the stream bound to P_AIN. -/
theorem Any.State.readIn_ok {s : Any.State S} {n : Nat} {x : S} (h : s.readIn N n = .ok x) :
    ∃ input, s.ports.ain = some input ∧ s.hostRead (input.base + n) = .value x ∧ N.isFinite x = true := by
  unfold Any.State.readIn at h
  split at h
  · cases h
  · next input hi =>
    split at h
    · cases h
    · next y hy =>
      cases h
      exact ⟨input, hi, Sample.scalar?_eq_some.mp hy⟩

theorem Any.State.readIn_of_value {s : Any.State S} {n : Nat} {x : S} {input : Source} (hi : s.ports.ain = some input)
    (hx : s.hostRead (input.base + n) = .value x) (hf : N.isFinite x = true) : s.readIn N n = .ok x := by
  simp [Any.State.readIn, hi, Sample.scalar?_eq_some.mpr ⟨hx, hf⟩]

/-- Reading a sample never ends with an outcome that leaves a next state. -/
theorem Any.State.readIn_error {s : Any.State S} {n : Nat} {c : Cause} (h : s.readIn N n = .error c) :
    c = .unboundPort .ain ∨ c = .nonFinite := by
  unfold Any.State.readIn at h
  split at h
  · cases h; exact .inl rfl
  · split at h
    · cases h; exact .inr rfl
    · cases h

/-- A sample step that begins has read its dry sample, and nothing else has happened. -/
theorem Any.State.beginSample_next {s t : Any.State S} (h : s.beginSample N = .next t) :
    ∃ x, s.readIn N s.blk.n = .ok x ∧ t = s.pass { s.blk.wires with x := x } s.blk.slot := by
  unfold Any.State.beginSample at h
  split at h
  · next c hc => rcases Any.State.readIn_error hc with rfl | rfl <;> cases h
  · next x hx => exact ⟨x, hx, (Host.Outcome.next.inj h).symm⟩

/-- A sample step whose dry sample can be read begins. -/
theorem Any.State.beginSample_of_read {s : Any.State S} {x : S} (hx : s.readIn N s.blk.n = .ok x) :
    s.beginSample N = .next (s.pass { s.blk.wires with x := x } s.blk.slot) := by
  unfold Any.State.beginSample
  rw [hx]

/-- Before the last sample the index advances. -/
theorem Any.State.endSample_of_lt {s : Any.State S} (h : s.blk.n + 1 < s.blk.len) :
    s.endSample = { s with blk := { s.blk with n := s.blk.n + 1, slot := .lfo, wires := .zero } } := if_pos h

/-- After the last sample the block is over. -/
theorem Any.State.endSample_of_ge {s : Any.State S} (h : s.blk.len ≤ s.blk.n + 1) : s.endSample = s.finishBlock :=
  if_neg (not_lt.mpr h)

/-- A block of some samples starts at sample 0. -/
theorem Any.State.startBlock_of_pos (s : Any.State S) (l : Latches S) {count : Nat} (h : 0 < count) :
    s.startBlock l count = { s with blk := ⟨true, l, 0, count, .lfo, .zero⟩ } := if_pos h

/-- A block of no sample is over at once. -/
theorem Any.State.startBlock_zero (s : Any.State S) (l : Latches S) : s.startBlock l 0 = s.finishBlock := rfl

/-- The samples that check 5 has looked at can be read. -/
theorem Any.State.inputsFinite_read {s : Any.State S} {count k : Nat} (h : s.inputsFinite N count = true) (hk : k < count) :
    ∃ x, s.readIn N k = .ok x := by
  induction count with
  | zero => omega
  | succ n ih =>
    simp only [Any.State.inputsFinite, Bool.and_eq_true] at h
    rcases Nat.lt_succ_iff_lt_or_eq.mp hk with hlt | rfl
    · exact ih h.1 hlt
    · revert h
      cases s.readIn N k with
      | error _ => simp
      | ok x => exact fun _ => ⟨x, rfl⟩

/-- Reading a sample looks at the ports and at host memory alone. -/
theorem Any.State.readIn_congr {s t : Any.State S} (hp : t.ports = s.ports) (hh : t.host = s.host) (n : Nat) :
    t.readIn N n = s.readIn N n := by
  simp [Any.State.readIn, Any.State.hostRead, hp, hh]

/-- An admitted PROCESS: what every check has found (45_lifecycle_commands.md R188). -/
theorem Any.State.admission_ok [DecidableLT S] [DecidableLE S] {s : Any.State S} {count : Nat} {l : Latches S}
    (h : s.admission N count = .ok l) :
    s.blk.running = false ∧ s.life = .active ∧ (∀ port : Port, s.ports.bound port = true) ∧
      s.ports.streamsOk count = true ∧ s.latch N = some l ∧ s.inputsFinite N count = true ∧ l.firstReserved = none ∧
      rateAdmitted l.rate s.sr = true := by
  unfold Any.State.admission at h
  split at h
  · cases h
  · next ha =>
    split at h
    · cases h
    · split at h
      · cases h
      · next hu =>
        split at h
        · cases h
        · next hs =>
          split at h
          · cases h
          · cases h
          · next l' hl hi =>
            split at h
            · cases h
            · next hr =>
              split at h
              · next hrate =>
                cases h
                simp only [Bool.not_eq_true', Bool.not_eq_false, Any.State.admits_iff, List.mem_singleton] at ha
                exact ⟨ha.1, ha.2, (Ports.firstUnbound_eq_none _).mp hu, by simpa using hs, hl, hi, hr, hrate⟩
              · cases h

omit [Arith S] in
/-- The operation whose code stands in a block's slot. -/
theorem runOperation_eq {meaning : Instr S → Any.State S → Any.Outcome S} {s : Any.State S} {c : Code S} {i : Instr S}
    (hc : s.blk.code = some c) (hd : decode c = .ok i) : runOperation meaning s = meaning i s := by
  simp [runOperation, hc, hd]

/-- An admitted CREATE completes in one of its two ways, as the allocator answers (45_lifecycle_commands.md R185). -/
theorem Any.execCreate_of_admitted [DecidableLE S] {H : Hardware S} {s : Any.State S} {x : S} (hr : s.blk.running = false)
    (hl : s.life = .absent) (hf : H.num.isFinite x = true) (hx : leastSampleRate ≤ x) :
    Any.execCreate H (.value x) s =
      .next
        (if s.alloc.fails H s.unit then { s with alloc := s.alloc.consume, outcome := .createFailed }
        else { s.created H x with alloc := s.alloc.consume }) := by
  rw [Any.execCreate, if_pos ((s.admits_iff _).mpr ⟨hr, by simp [hl]⟩), Sample.scalar?_eq_some.mpr ⟨rfl, hf⟩]
  simp only [if_pos hx]
  split <;> rfl

/-- A step of a running block whose dry sample can be read: the operations that are left, then the end of the sample step. -/
theorem stepBy_running [DecidableEq S] {meaning : Instr S → Any.State S → Any.Outcome S} {s : Any.State S} {x : S}
    (hr : s.blk.running = true) (hx : s.readIn N s.blk.n = .ok x) :
    stepBy meaning N s =
      Any.andThen (runSlots meaning s.blk.slot.left (s.pass { s.blk.wires with x := x } s.blk.slot)) fun u => .next u.endSample := by
  rw [stepBy, if_pos hr, stepSample, Any.State.beginSample_of_read hx, Any.andThen_next]

variable [DecidableEq S]

/-- The two stores of MIX: both cells hold the sample, every other cell what it held. -/
theorem Any.State.hostRead_writeOut (s : Any.State S) (left right : Source) (n : Nat) (out : S) (a : Nat) :
    (s.writeOut left right n out).hostRead a =
      if a = left.base + n ∨ a = right.base + n then .value out else s.hostRead a := by
  unfold Any.State.writeOut
  by_cases hr : a = right.base + n
  · rw [hr, Any.State.hostRead_hostWrite_same, if_pos (.inr rfl)]
  · rw [Any.State.hostRead_hostWrite_other _ _ hr]
    by_cases hl : a = left.base + n
    · rw [hl, Any.State.hostRead_hostWrite_same, if_pos (.inl rfl)]
    · rw [Any.State.hostRead_hostWrite_other _ _ hl, if_neg (not_or.mpr ⟨hl, hr⟩)]

/-- MIX with a next state: both outputs are bound, and the two stores are all it does. -/
theorem Any.execMix_next {s t : Any.State S} (h : Any.execMix s = .next t) :
    ∃ left right, s.ports.aoutL = some left ∧ s.ports.aoutR = some right ∧
      t = s.writeOut left right s.blk.n (mixOut s.blk.latches.mix s.blk.wires.wet s.blk.wires.x) := by
  unfold Any.execMix at h
  split at h
  · cases h
  · cases h
  · next left right hl hr => exact ⟨left, right, hl, hr, (Host.Outcome.next.inj h).symm⟩

end Sys2Proof.Machine
end

