-- ==== Sys2Proof/Laws/PerInstr.lean ====
section
/-! SUPPORT. The family RoundTrip of LAWS.json, one lemma for each constructor of Instr: the code of a well-formed instruction
decodes to it (30_encoding.md R70 to R79).
-/

namespace Sys2Proof.Laws

/-- The decoder reads the encoder's code back, with every operand. -/
def RoundTrip.Statement (i : Instr) : Prop := i.wf = true → decode (encode i) = .ok i

theorem RoundTrip.create (sr : Sample Scalar) : RoundTrip.Statement (.create sr) := fun _ => rfl

theorem RoundTrip.bind (port : Port) (source : Source) : RoundTrip.Statement (.bind port source) := fun h => by
  have hd : decodeCmd 1 _ = .ok _ := decodeBind_encodeSource (S := Scalar) 1 h
  simp only [encode, decode, hd]

theorem RoundTrip.process (count : Nat) : RoundTrip.Statement (.process count) := fun _ => rfl

theorem RoundTrip.activate : RoundTrip.Statement .activate := fun _ => rfl

theorem RoundTrip.deactivate : RoundTrip.Statement .deactivate := fun _ => rfl

theorem RoundTrip.destroy : RoundTrip.Statement .destroy := fun _ => rfl

theorem RoundTrip.lfoSin : RoundTrip.Statement .lfoSin := fun _ => rfl

theorem RoundTrip.lfoTri : RoundTrip.Statement .lfoTri := fun _ => rfl

theorem RoundTrip.lfoRup : RoundTrip.Statement .lfoRup := fun _ => rfl

theorem RoundTrip.lfoRdn : RoundTrip.Statement .lfoRdn := fun _ => rfl

theorem RoundTrip.lfoSqr : RoundTrip.Statement .lfoSqr := fun _ => rfl

theorem RoundTrip.lfoSnh : RoundTrip.Statement .lfoSnh := fun _ => rfl

theorem RoundTrip.fltBq : RoundTrip.Statement .fltBq := fun _ => rfl

theorem RoundTrip.fltSvf : RoundTrip.Statement .fltSvf := fun _ => rfl

theorem RoundTrip.fltLad : RoundTrip.Statement .fltLad := fun _ => rfl

theorem RoundTrip.fltVow : RoundTrip.Statement .fltVow := fun _ => rfl

theorem RoundTrip.fltComb : RoundTrip.Statement .fltComb := fun _ => rfl

theorem RoundTrip.fltRing : RoundTrip.Statement .fltRing := fun _ => rfl

theorem RoundTrip.lfoAdv : RoundTrip.Statement .lfoAdv := fun _ => rfl

theorem RoundTrip.stepq : RoundTrip.Statement .stepq := fun _ => rfl

theorem RoundTrip.slew : RoundTrip.Statement .slew := fun _ => rfl

theorem RoundTrip.cond : RoundTrip.Statement .cond := fun _ => rfl

theorem RoundTrip.mix : RoundTrip.Statement .mix := fun _ => rfl

end Sys2Proof.Laws
end

