-- ==== Sys2Proof/Laws/Step.lean ====
section
/-! SUPPORT. What one operation and a whole step of a running block can be, once and for all, and what a step outside a block can be.
-/

namespace Sys2Proof.Machine

open Sys2Proof

/-! ### The host's machine is the machine at the host's parameters -/

theorem exec_eq (i : Instr) (s : State) : exec i s = Any.exec Config.hardware i s := by cases i <;> rfl

theorem step_eq (s : State) : step s = Any.step Config.hardware s := by
  rw [show step s = stepBy exec Config.num s from rfl, show exec = Any.exec Config.hardware from funext fun i => funext (exec_eq i)]
  rfl

/-! ### On any parameters -/

variable {S : Type}

/-- The cause that the step reports for a reserved selector never leaves a next state. -/
theorem Any.raise_selectorCause (b : Block S) (s : Any.State S) : ∃ r, Any.raise b.selectorCause s = .fault r := by
  unfold Block.selectorCause
  split <;> exact ⟨_, rfl⟩

variable [Arith S]

/-- A field that a selector decodes to is the selector. -/
theorem selectorField_some {k : Int} {f : BitVec 3} (h : selectorField k = some f) : k = f.toNat ∧ 0 ≤ k ∧ k < 8 := by
  unfold selectorField at h
  split at h
  · next hk =>
    cases h
    refine ⟨?_, hk⟩
    simp only [BitVec.toNat_ofNat]
    omega
  · cases h

omit [Arith S] in
/-- A selector with an operation or a row, by its value (30_encoding.md R75 to R77). -/
theorem selector_isSome (k : Int) :
    ((modeOp (S := S) k).isSome = true ↔ 0 ≤ k ∧ k ≤ 5) ∧ ((shapeOp (S := S) k).isSome = true ↔ 0 ≤ k ∧ k ≤ 5) ∧
      ((vowelRow k).isSome = true ↔ 0 ≤ k ∧ k ≤ 4) := by
  by_cases hk : 0 ≤ k ∧ k < 8
  · have : k = 0 ∨ k = 1 ∨ k = 2 ∨ k = 3 ∨ k = 4 ∨ k = 5 ∨ k = 6 ∨ k = 7 := by omega
    rcases this with rfl | rfl | rfl | rfl | rfl | rfl | rfl | rfl <;>
      exact ⟨by first | exact iff_of_true rfl (by decide) | exact iff_of_false Bool.false_ne_true (by decide),
        by first | exact iff_of_true rfl (by decide) | exact iff_of_false Bool.false_ne_true (by decide), by decide⟩
  · simp [modeOp, shapeOp, vowelRow, selectorField, hk]
    omega

omit [Arith S] in
/-- The legal selectors, with their bounds as numbers. -/
theorem Latches.legal_iff (l : Latches S) :
    l.legal ↔ (0 ≤ l.mode ∧ l.mode ≤ 5) ∧ (0 ≤ l.shape ∧ l.shape ≤ 5) ∧ (0 ≤ l.vowel ∧ l.vowel ≤ 4) := by
  simp only [Latches.legal, Config.N_MODES, Config.N_SHAPES, Config.N_VOWELS]
  omega

omit [Arith S] in
/-- Check 6 of PROCESS finds nothing exactly when the selectors are legal (45_lifecycle_commands.md R188). -/
theorem Latches.firstReserved_eq_none (l : Latches S) : l.firstReserved = none ↔ l.legal := by
  rw [Latches.legal_iff, ← (selector_isSome (S := S) l.mode).1, ← (selector_isSome (S := S) l.shape).2.1, ← (selector_isSome (S := S) l.vowel).2.2]
  unfold Latches.firstReserved
  cases modeOp (S := S) l.mode <;> cases shapeOp (S := S) l.shape <;> cases vowelRow l.vowel <;> simp

variable [DecidableLT S] [DecidableLE S] [DecidableEq S] {H : Hardware S}

/-- Every shape operation leaves its raw value to slot 1 and completes. -/
theorem Any.exec_shape {f : BitVec 3} {i : Instr S} (h : decodeShape f = some i) (s : Any.State S) :
    ∃ raw, Any.exec H i s = .next (s.passRaw raw) := by
  rcases decodeShape_cases h with ⟨-, rfl⟩ | ⟨-, rfl⟩ | ⟨-, rfl⟩ | ⟨-, rfl⟩ | ⟨-, rfl⟩ | ⟨-, rfl⟩ <;> exact ⟨_, rfl⟩

/-- An operation of a running block, by its slot; in slots 0 and 5 the one that the selector picks. -/
theorem Any.runOperation_cases {s t : Any.State S} (h : runOperation (Any.exec H) s = .next t) :
    (s.blk.slot = .lfo ∧ ∃ f raw, selectorField s.blk.latches.shape = some f ∧ (decodeShape (S := S) f).isSome ∧
        t = s.passRaw raw) ∨
      (s.blk.slot = .adv ∧ Any.execLfoAdv H s = .next t) ∨ (s.blk.slot = .stepq ∧ Any.execStepq H s = .next t) ∨
      (s.blk.slot = .slew ∧ Any.execSlew H s = .next t) ∨ (s.blk.slot = .cond ∧ Any.execCond s = .next t) ∨
      (s.blk.slot = .flt ∧ ∃ f i, selectorField s.blk.latches.mode = some f ∧ decodeMode f = some i ∧
        Any.exec H i s = .next t) ∨
      (s.blk.slot = .mix ∧ Any.execMix s = .next t) := by
  obtain ⟨r, hstop⟩ := Any.raise_selectorCause s.blk s
  simp only [runOperation] at h
  cases hs : s.blk.slot <;> simp only [Block.code, hs, Slot.number] at h
  · cases hf : selectorField s.blk.latches.shape with
    | none => simp [hf, hstop] at h
    | some f =>
      simp only [hf, Option.map_some, decode] at h
      cases hd : decodeShape (S := S) f with
      | none => simp [hd, hstop] at h
      | some i =>
        obtain ⟨raw, hraw⟩ := Any.exec_shape (H := H) hd s
        simp only [hd, hraw, Host.Outcome.next.injEq] at h
        exact .inl ⟨rfl, f, raw, rfl, by simp [hd], h.symm⟩
  · exact .inr (.inl ⟨rfl, h⟩)
  · exact .inr (.inr (.inl ⟨rfl, h⟩))
  · exact .inr (.inr (.inr (.inl ⟨rfl, h⟩)))
  · exact .inr (.inr (.inr (.inr (.inl ⟨rfl, h⟩))))
  · cases hf : selectorField s.blk.latches.mode with
    | none => simp [hf, hstop] at h
    | some f =>
      simp only [hf, Option.map_some, decode] at h
      cases hd : decodeMode (S := S) f with
      | none => simp [hd, hstop] at h
      | some i =>
        simp only [hd] at h
        exact .inr (.inr (.inr (.inr (.inr (.inl ⟨rfl, f, i, rfl, hd, h⟩)))))
  · exact .inr (.inr (.inr (.inr (.inr (.inr ⟨rfl, h⟩)))))

/-- What no operation of a block touches, and where it leaves the block: in the next slot, or, after MIX, in its own. -/
theorem Any.runOperation_frame {s t : Any.State S} (h : runOperation (Any.exec H) s = .next t) :
    t.sr = s.sr ∧ t.cap = s.cap ∧ t.life = s.life ∧ t.ports = s.ports ∧ t.queue = s.queue ∧ t.alloc = s.alloc ∧ t.unit = s.unit ∧
      t.outcome = s.outcome ∧ t.blk.running = s.blk.running ∧ t.blk.latches = s.blk.latches ∧ t.blk.n = s.blk.n ∧
      t.blk.len = s.blk.len ∧ (s.blk.slot ≠ .mix → t.host = s.host ∧ t.blk.slot.left + 1 = s.blk.slot.left) := by
  rcases Any.runOperation_cases h with ⟨hs, f, raw, -, -, rfl⟩ | ⟨hs, h⟩ | ⟨hs, h⟩ | ⟨hs, h⟩ | ⟨hs, h⟩ | ⟨hs, f, i, -, hd, h⟩ | ⟨hs, h⟩
  · exact ⟨rfl, rfl, rfl, rfl, rfl, rfl, rfl, rfl, rfl, rfl, rfl, rfl, fun _ => ⟨rfl, by rw [hs]; rfl⟩⟩
  · cases h; exact ⟨rfl, rfl, rfl, rfl, rfl, rfl, rfl, rfl, rfl, rfl, rfl, rfl, fun _ => ⟨rfl, by rw [hs]; rfl⟩⟩
  · cases h; exact ⟨rfl, rfl, rfl, rfl, rfl, rfl, rfl, rfl, rfl, rfl, rfl, rfl, fun _ => ⟨rfl, by rw [hs]; rfl⟩⟩
  · cases h; exact ⟨rfl, rfl, rfl, rfl, rfl, rfl, rfl, rfl, rfl, rfl, rfl, rfl, fun _ => ⟨rfl, by rw [hs]; rfl⟩⟩
  · cases h; exact ⟨rfl, rfl, rfl, rfl, rfl, rfl, rfl, rfl, rfl, rfl, rfl, rfl, fun _ => ⟨rfl, by rw [hs]; rfl⟩⟩
  · rcases decodeMode_cases hd with ⟨-, rfl⟩ | ⟨-, rfl⟩ | ⟨-, rfl⟩ | ⟨-, rfl⟩ | ⟨-, rfl⟩ | ⟨-, rfl⟩
    case inr.inr.inr.inl =>
      change Any.execFltVow H s = .next t at h
      unfold Any.execFltVow at h
      split at h
      · cases h
      · cases h; exact ⟨rfl, rfl, rfl, rfl, rfl, rfl, rfl, rfl, rfl, rfl, rfl, rfl, fun _ => ⟨rfl, by rw [hs]; rfl⟩⟩
    all_goals cases h; exact ⟨rfl, rfl, rfl, rfl, rfl, rfl, rfl, rfl, rfl, rfl, rfl, rfl, fun _ => ⟨rfl, by rw [hs]; rfl⟩⟩
  · obtain ⟨left, right, -, -, rfl⟩ := Any.execMix_next h
    exact ⟨rfl, rfl, rfl, rfl, rfl, rfl, rfl, rfl, rfl, rfl, rfl, rfl, fun hne => absurd hs hne⟩

/-- A step of a running block: the dry sample is read, the operations that are left run, and the sample ends. -/
theorem Any.step_running {s t : Any.State S} (hr : s.blk.running = true) (h : Any.step H s = .next t) :
    ∃ x u, s.readIn H.num s.blk.n = .ok x ∧
      runSlots (Any.exec H) s.blk.slot.left (s.pass { s.blk.wires with x := x } s.blk.slot) = .next u ∧ t = u.endSample := by
  simp only [Any.step, stepBy, hr, if_true, stepSample] at h
  obtain ⟨v, hv, h⟩ := Any.andThen_eq_next h
  obtain ⟨x, hx, rfl⟩ := Any.State.beginSample_next hv
  obtain ⟨u, hu, h⟩ := Any.andThen_eq_next h
  exact ⟨x, u, hx, hu, (Host.Outcome.next.inj h).symm⟩

/-- A step of a running block whose operations have a next state. -/
theorem Any.step_of_runSlots {s u : Any.State S} {x : S} (hr : s.blk.running = true) (hx : s.readIn H.num s.blk.n = .ok x)
    (hu : runSlots (Any.exec H) s.blk.slot.left (s.pass { s.blk.wires with x := x } s.blk.slot) = .next u) :
    Any.step H s = .next u.endSample := by
  rw [Any.step, stepBy_running hr hx, hu, Any.andThen_next]

/-- A step outside a block is the host's next move: nothing, a command, a write of host memory, or answers fixed in advance. -/
theorem Any.step_idle_cases {s t : Any.State S} (hr : s.blk.running = false) (h : Any.step H s = .next t) :
    (s.queue = [] ∧ t = s) ∨
      (∃ c operands rest i, s.queue = .command c operands :: rest ∧ decodeCmd c operands = .ok i ∧
        Any.exec H i { s with queue := rest } = .next t) ∨
      (∃ a v rest, s.queue = .store a v :: rest ∧ t = { s with queue := rest }.hostWrite a v) ∨
      (∃ answers rest, s.queue = .draws answers :: rest ∧
        t = { s with queue := rest, rnd := { s.rnd with fixed := s.rnd.fixed ++ answers } }) ∨
      (∃ answers rest, s.queue = .allocs answers :: rest ∧
        t = { s with queue := rest, alloc := { s.alloc with fixed := s.alloc.fixed ++ answers } }) := by
  simp only [Any.step, stepBy, hr, Bool.false_eq_true, if_false, stepMove] at h
  cases hq : s.queue with
  | nil => simp only [hq, Host.Outcome.next.injEq] at h; exact .inl ⟨rfl, h.symm⟩
  | cons m rest =>
    cases m with
    | command c operands =>
      simp only [hq] at h
      cases hd : decodeCmd c operands with
      | error e => simp [hd] at h
      | ok i =>
        simp only [hd] at h
        exact .inr (.inl ⟨c, operands, rest, i, rfl, hd, h⟩)
    | store a v =>
      simp only [hq, Host.Outcome.next.injEq] at h
      exact .inr (.inr (.inl ⟨a, v, rest, rfl, h.symm⟩))
    | draws answers =>
      simp only [hq, Host.Outcome.next.injEq] at h
      exact .inr (.inr (.inr (.inl ⟨answers, rest, rfl, h.symm⟩)))
    | allocs answers =>
      simp only [hq, Host.Outcome.next.injEq] at h
      exact .inr (.inr (.inr (.inr ⟨answers, rest, rfl, h.symm⟩)))

/-- A run takes one step and goes on. -/
theorem Any.run_next {s t : Any.State S} {k : Nat} (h : Any.step H s = .next t) :
    Host.Core.run (Any.core H) (k + 1) s = Host.Core.run (Any.core H) k t := by
  simp only [Host.Core.run]
  rw [show (Any.core H).step s = .next t from h]

/-- A run of `j + k` steps is a run of `k` steps after a run of `j`. -/
theorem Any.run_add {j k : Nat} {s t : Any.State S} (h : Host.Core.run (Any.core H) j s = .next t) :
    Host.Core.run (Any.core H) (j + k) s = Host.Core.run (Any.core H) k t := by
  induction j generalizing s with
  | zero =>
    simp only [Host.Core.run] at h
    cases h
    rw [Nat.zero_add]
  | succ j ih =>
    simp only [Host.Core.run] at h
    cases hs : Any.step H s with
    | next u =>
      rw [show (Any.core H).step s = .next u from hs] at h
      rw [Nat.add_right_comm, Any.run_next hs]
      exact ih h
    | fault r => rw [show (Any.core H).step s = .fault r from hs] at h; cases h
    | refused r => rw [show (Any.core H).step s = .refused r from hs] at h; cases h

omit [Arith S] [DecidableLT S] [DecidableLE S] [DecidableEq S] in
/-- What a command spells: one of the six lifecycle instructions. -/
theorem decodeCmd_cases {c : BitVec 3} {operands : List (Operand S)} {i : Instr S} (h : decodeCmd c operands = .ok i) :
    (c = 0 ∧ ∃ sr, i = .create sr) ∨ (c = 1 ∧ ∃ port source, i = .bind port source) ∨ (c = 2 ∧ i = .activate) ∨
      (c = 3 ∧ ∃ count, i = .process count) ∨ (c = 4 ∧ i = .deactivate) ∨ (c = 5 ∧ i = .destroy) := by
  have hc : ∀ n, c.toNat = n → c = BitVec.ofNat 3 n := fun n hn => by rw [← hn, BitVec.ofNat_toNat, BitVec.setWidth_eq]
  unfold decodeCmd at h
  split at h
  · next hn =>
    unfold decodeCreate at h
    split at h
    · cases h; exact .inl ⟨hc _ hn, _, rfl⟩
    · cases h
  · next hn =>
    unfold decodeBind at h
    repeat' split at h
    all_goals cases h
    all_goals exact .inr (.inl ⟨hc _ hn, _, _, rfl⟩)
  · next hn =>
    unfold decodePlain at h
    split at h
    · cases h; exact .inr (.inr (.inl ⟨hc _ hn, rfl⟩))
    · cases h
  · next hn =>
    unfold decodeProcess at h
    split at h
    · cases h; exact .inr (.inr (.inr (.inl ⟨hc _ hn, _, rfl⟩)))
    · cases h
  · next hn =>
    unfold decodePlain at h
    split at h
    · cases h; exact .inr (.inr (.inr (.inr (.inl ⟨hc _ hn, rfl⟩))))
    · cases h
  · next hn =>
    unfold decodePlain at h
    split at h
    · cases h; exact .inr (.inr (.inr (.inr (.inr ⟨hc _ hn, rfl⟩))))
    · cases h
  · cases h

end Sys2Proof.Machine
end

