-- ==== Sys2Proof/Laws/Sample.lean ====
section
/-! SUPPORT. What one sample step and a block in the spec's form (Machine/Sample.lean) can do, and when each of its parts has a value.
-/

namespace Sys2Proof.Machine

open Sys2Proof

variable {S : Type} [Arith S]

variable [DecidableLE S] [DecidableEq S]

/-! ### Inputs -/

omit [DecidableLE S] in
/-- The two stores of MIX at one index leave the input at every other index of the block as it is: an output stream is apart from the
input or is the same region (20_memory.md R65). -/
theorem Any.State.readIn_writeOut {N : Num S} {s t : Any.State S} {left right : Source} {n k count : Nat} {out : S}
    (hs : s.ports.streamsOk count = true) (hl : s.ports.aoutL = some left) (hr : s.ports.aoutR = some right)
    (hp : t.ports = s.ports) (hn : n < count) (hk : k < count) (hne : k ≠ n) :
    (t.writeOut left right n out).readIn N k = t.readIn N k := by
  unfold Ports.streamsOk at hs
  split at hs
  · next input l r hi hl' hr' =>
    obtain rfl : left = l := Option.some.inj (hl.symm.trans hl')
    obtain rfl : right = r := Option.some.inj (hr.symm.trans hr')
    simp only [Bool.and_eq_true, decide_eq_true_eq] at hs
    obtain ⟨⟨⟨⟨⟨hi', hl'⟩, hr'⟩, cl⟩, cr⟩, -⟩ := hs
    have apart : ∀ o : Source, compatibleSources input o = true → count ≤ o.len → input.base + k ≠ o.base + n := by
      intro o ho hlen he
      rcases Bool.or_eq_true_iff.mp ho with h | h
      · exact (disjointSources_iff input o).mp h (input.base + k) ⟨by omega, by omega⟩
      · obtain rfl : input = o := by simpa using h
        omega
    unfold Any.State.readIn
    rw [Any.State.writeOut_ports, hp, hi]
    simp only [Any.State.hostRead_writeOut]
    rw [if_neg (not_or.mpr ⟨apart left cl hl', apart right cr hr'⟩)]
  · cases hs

/-! ### The filter unit and the sample step -/

/-- A filter unit touches nothing but its own registers. -/
theorem filterUnit_frame {H : Hardware S} {l : Latches S} {fc q nres x wet : S} {s t : Any.State S}
    (h : filterUnit H l fc q nres x s = some (wet, t)) :
    t.sr = s.sr ∧ t.cap = s.cap ∧ t.life = s.life ∧ t.lfo = s.lfo ∧ t.ports = s.ports ∧ t.blk = s.blk ∧ t.host = s.host ∧
      t.queue = s.queue ∧ t.rnd = s.rnd ∧ t.alloc = s.alloc ∧ t.unit = s.unit ∧ t.outcome = s.outcome := by
  unfold filterUnit at h
  repeat' split at h
  all_goals first
    | (cases h; done)
    | (cases h; exact ⟨rfl, rfl, rfl, rfl, rfl, rfl, rfl, rfl, rfl, rfl, rfl, rfl⟩)

/-- With legal selectors one filter unit runs. -/
theorem filterUnit_of_legal {H : Hardware S} {l : Latches S} (h : l.legal) (fc q nres x : S) (s : Any.State S) :
    ∃ w, filterUnit H l fc q nres x s = some w := by
  obtain ⟨⟨h0, h1⟩, -, hv⟩ := l.legal_iff.mp h
  obtain ⟨v, hv⟩ := Option.isSome_iff_exists.mp ((selector_isSome (S := S) l.vowel).2.2.mpr hv)
  have : l.mode = 0 ∨ l.mode = 1 ∨ l.mode = 2 ∨ l.mode = 3 ∨ l.mode = 4 ∨ l.mode = 5 := by omega
  rcases this with e | e | e | e | e | e <;> simp [filterUnit, e, hv]

variable [DecidableLT S]

omit [DecidableLE S] [DecidableEq S] in
/-- With legal selectors one shape operation runs. -/
theorem shapeRaw_of_legal {N : Num S} {l : Latches S} (h : l.legal) (g : LfoRegs S) : ∃ raw, shapeRaw N l.shape g = some raw := by
  obtain ⟨-, ⟨h0, h1⟩, -⟩ := l.legal_iff.mp h
  have : l.shape = 0 ∨ l.shape = 1 ∨ l.shape = 2 ∨ l.shape = 3 ∨ l.shape = 4 ∨ l.shape = 5 := by omega
  rcases this with e | e | e | e | e | e <;> simp [shapeRaw, e]

/-- A sample step writes one sample to both outputs at its index, in a state that differs from the one before in the registers and the
random source alone. -/
theorem sampleStep_frame {H : Hardware S} {l : Latches S} {n : Nat} {x : S} {s t : Any.State S} (h : sampleStep H l n x s = some t) :
    ∃ left right out u, s.ports.aoutL = some left ∧ s.ports.aoutR = some right ∧ t = Any.State.writeOut u left right n out ∧
      u.sr = s.sr ∧ u.cap = s.cap ∧ u.life = s.life ∧ u.ports = s.ports ∧ u.blk = s.blk ∧ u.host = s.host ∧
      u.queue = s.queue ∧ u.alloc = s.alloc ∧ u.unit = s.unit ∧ u.outcome = s.outcome := by
  unfold sampleStep at h
  simp only [Option.bind_eq_bind, Option.bind_eq_some_iff] at h
  obtain ⟨raw, -, ⟨wet, u⟩, hf, hm⟩ := h
  obtain ⟨sr, cap, life, -, ports, blk, host, queue, -, alloc, unit, outcome⟩ := filterUnit_frame hf
  unfold mixTo at hm
  split at hm
  · next left right hl hr =>
    exact ⟨left, right, _, u, ports ▸ hl, ports ▸ hr, (Option.some.inj hm).symm, sr, cap, life, ports, blk, host, queue,
      alloc, unit, outcome⟩
  · cases hm

/-- With legal selectors and bound outputs a sample step has a result. -/
theorem sampleStep_of_legal {H : Hardware S} {l : Latches S} (h : l.legal) {s : Any.State S} {left right : Source}
    (hl : s.ports.aoutL = some left) (hr : s.ports.aoutR = some right) (n : Nat) (x : S) : ∃ t, sampleStep H l n x s = some t := by
  obtain ⟨raw, hraw⟩ := shapeRaw_of_legal (N := H.num) h s.lfo
  let g := modulate H l s.sr raw (s.rnd.answer H s.unit) s.lfo
  let q := conditionRes l g.smooth
  obtain ⟨⟨wet, u⟩, hu⟩ := filterUnit_of_legal (H := H) h (conditionCutoff l s.sr g.smooth) q (normalizeRes q) x
    { s with lfo := g, rnd := lfoDraw H.num l s.sr s.lfo s.rnd }
  have ports := (filterUnit_frame hu).2.2.2.2.1
  refine ⟨Any.State.writeOut u left right n (mixOut l.mix wet x), ?_⟩
  unfold sampleStep
  simp only [hraw, Option.bind_eq_bind, Option.bind_some]
  rw [show filterUnit H l _ _ _ x _ = some (wet, u) from hu]
  simp only [Option.bind_some, mixTo, ports, hl, hr]

/-! ### Runs of sample steps -/

/-- One more sample step at the front of a run. -/
theorem runSamples_succ {H : Hardware S} {l : Latches S} {n k : Nat} {s t : Any.State S} (h : runSamples H l n (k + 1) s = some t) :
    ∃ x u, s.readIn H.num n = .ok x ∧ sampleStep H l n x s = some u ∧ runSamples H l (n + 1) k u = some t := by
  simp only [runSamples] at h
  split at h
  · cases h
  · next x hx =>
    split at h
    · cases h
    · next u hu => exact ⟨x, u, hx, hu, h⟩

/-- A run of `j + k` sample steps is a run of `k` after a run of `j`. -/
theorem runSamples_add {H : Hardware S} {l : Latches S} {j k n : Nat} {s t : Any.State S} (h : runSamples H l n j s = some t) :
    runSamples H l n (j + k) s = runSamples H l (n + j) k t := by
  induction j generalizing n s with
  | zero =>
    cases h
    rw [Nat.zero_add, Nat.add_zero]
  | succ j ih =>
    obtain ⟨x, u, hx, hu, hrun⟩ := runSamples_succ h
    rw [Nat.add_right_comm, ← Nat.add_assoc, Nat.add_right_comm n j 1, ← ih hrun]
    simp only [runSamples, hx, hu]

/-- A run of sample steps keeps what no sample step writes. -/
theorem runSamples_frame {H : Hardware S} {l : Latches S} {n k : Nat} {s t : Any.State S} (h : runSamples H l n k s = some t) :
    t.sr = s.sr ∧ t.cap = s.cap ∧ t.life = s.life ∧ t.ports = s.ports ∧ t.blk = s.blk ∧ t.unit = s.unit := by
  induction k generalizing n s with
  | zero =>
    cases h
    exact ⟨rfl, rfl, rfl, rfl, rfl, rfl⟩
  | succ k ih =>
    obtain ⟨x, u, -, hu, hrun⟩ := runSamples_succ h
    obtain ⟨left, right, out, v, -, -, rfl, sr, cap, life, ports, blk, -, -, -, unit, -⟩ := sampleStep_frame hu
    obtain ⟨sr', cap', life', ports', blk', unit'⟩ := ih hrun
    exact ⟨sr'.trans sr, cap'.trans cap, life'.trans life, ports'.trans ports, blk'.trans blk, unit'.trans unit⟩

end Sys2Proof.Machine
end

