-- ==== Sys2Proof/Tests/Slice0.lean ====
section
/-! SUPPORT. Tests of single steps, with expected results from spec/95_test_vectors.md (the vector's name stands in the comment) or
from the examples in the rules; and for each obligation with hypotheses a theorem `witness_…` that meets them. What rests on π or a
transcendental function is tested on the reals, the rest on the host's machine.
-/

-- A `decide +kernel` waits for every theorem before it; elaborated side by side, each waiting theorem would hold a thread's stack.
set_option Elab.async false

namespace Sys2Proof.Tests

open Sys2Proof Sys2Proof.Machine

/-! ### Helpers -/

def next? {S : Type} : Any.Outcome S → Option (Any.State S)
  | .next t => some t
  | .fault _ => none
  | .refused _ => none

def fault? : Host.Outcome State Fault Refusal → Option Fault
  | .next _ => none
  | .fault r => some r
  | .refused _ => none

def refusal? : Host.Outcome State Fault Refusal → Option Refusal
  | .next _ => none
  | .fault _ => none
  | .refused r => some r

theorem next_of_view {S α : Type} {view : Any.State S → α} {o : Any.Outcome S} {a : α}
    (h : (next? o).map view = some a) : ∃ t, o = .next t ∧ view t = a := by
  cases o with
  | next t => exact ⟨t, rfl, Option.some.inj h⟩
  | fault r => cases h
  | refused r => cases h

section
variable {S : Type} [Arith S]

/-- An active instance at 48000 Hz: control port `k` is bound to the cell `k`, with the defaults of 95_test_vectors.md; the
streams hold eight samples from the cells 100, 200 and 300 on. -/
def benchOf : Any.State S :=
  { Any.State.reset 4096 0 with
    sr := lit 48000
    life := .active
    ports := ⟨some ⟨100, 8⟩, some ⟨200, 8⟩, some ⟨300, 8⟩, some ⟨3, 1⟩, some ⟨4, 1⟩, some ⟨5, 1⟩, some ⟨6, 1⟩,
      some ⟨7, 1⟩, some ⟨8, 1⟩, some ⟨9, 1⟩, some ⟨10, 1⟩, some ⟨11, 1⟩, some ⟨12, 1⟩, some ⟨13, 1⟩⟩
    host := [(3, .value (lit 1000)), (4, .value (lit (707 / 1000))), (5, .value 1), (8, .value 1)] }

/-- The latches of the bench. -/
def latchesOf : Latches S := ⟨lit 1000, lit (707 / 1000), 1, 0, 0, 1, 0, 0, 0, 0, 0⟩

/-- A block of eight samples at index 0 in a slot of the bench. -/
def inSlot (slot : Slot) (l : Latches S) (w : Wires S) : Any.State S := { benchOf with blk := ⟨true, l, 0, 8, slot, w⟩ }

/-- Slot 0 at a phase. -/
def atPhase (p : S) : Any.State S := { inSlot .lfo latchesOf .zero with lfo := ⟨p, lit (1 / 4), 0, 0, 0⟩ }

/-- The wires of slot 5. -/
def conditioned (x fc q nres : S) : Wires S := ⟨x, 0, 0, 0, fc, q, nres, 0⟩

end

/-- The bench and its latches on the host's machine. -/
abbrev bench : State := benchOf

abbrev latches : Latches Scalar := latchesOf

/-- The bench with a control value changed. -/
def set (port : Port) (v : Sample Scalar) (s : State) : State := s.hostWrite (portNumber port).toNat v

/-- The command at the head of the host's moves. -/
def issue (c : BitVec 3) (operands : List Operand) (s : State) : State := { s with queue := [.command c operands] }

/-- An instance that has been created and not activated. -/
def inactive : State := { bench with life := .inactive }

/-- A machine on the reals, with some values for the parameters that 00_scope.md R6 leaves open. -/
noncomputable def realMachine : Hardware ℝ where
  num := Reference.num
  cap := 4096
  stepEps := 1 / 1000
  vowelTable := fun _ _ => ⟨500, 1, by norm_num, by norm_num⟩
  freeDraw := fun _ _ => 0
  freeAllocFails := fun _ _ => false
  cap_pow := ⟨12, by decide, rfl⟩
  stepEps_nonneg := by norm_num
  draw_nonneg := fun _ _ => le_refl _
  draw_lt_one := fun _ _ => by norm_num

/-- The hypothesis of every statement about the reference instantiation. -/
theorem witness_IsReference : realMachine.IsReference := rfl

/-! ### Well-formedness -/

theorem test_control_port_takes_one_cell : (Instr.bind .cutoff ⟨0, 2⟩ : Instr).wf = false := by decide

theorem test_control_port_takes_no_empty_stream : (Instr.bind .step ⟨0, 0⟩ : Instr).wf = false := by decide

theorem test_audio_port_takes_any_stream : (Instr.bind .aoutR ⟨5, 0⟩ : Instr).wf = true := by decide

/-! ### Decoding: the words of 30_encoding.md, bit by bit -/

theorem test_decode_commands :
    decode (.cmd 0b000#3 [.scalar (.value 48000)] : Code) = .ok (.create (.value 48000)) ∧
    decode (.cmd 0b001#3 [.port 0b1100#4, .location 5] : Code) = .ok (.bind .slew ⟨5, 1⟩) ∧
    decode (.cmd 0b001#3 [.port 0b0010#4, .stream 5 8] : Code) = .ok (.bind .aoutR ⟨5, 8⟩) ∧
    decode (.cmd 0b010#3 [] : Code) = .ok .activate ∧
    decode (.cmd 0b011#3 [.natural 8] : Code) = .ok (.process 8) ∧
    decode (.cmd 0b100#3 [] : Code) = .ok .deactivate ∧
    decode (.cmd 0b101#3 [] : Code) = .ok .destroy := by decide

theorem test_decode_shapes :
    decode (.shape 0b000#3 : Code) = .ok .lfoSin ∧ decode (.shape 0b001#3 : Code) = .ok .lfoTri ∧
    decode (.shape 0b010#3 : Code) = .ok .lfoRup ∧ decode (.shape 0b011#3 : Code) = .ok .lfoRdn ∧
    decode (.shape 0b100#3 : Code) = .ok .lfoSqr ∧ decode (.shape 0b101#3 : Code) = .ok .lfoSnh := by decide

theorem test_decode_modes :
    decode (.mode 0b000#3 : Code) = .ok .fltBq ∧ decode (.mode 0b001#3 : Code) = .ok .fltSvf ∧
    decode (.mode 0b010#3 : Code) = .ok .fltLad ∧ decode (.mode 0b011#3 : Code) = .ok .fltVow ∧
    decode (.mode 0b100#3 : Code) = .ok .fltComb ∧ decode (.mode 0b101#3 : Code) = .ok .fltRing := by decide

theorem test_decode_slots :
    decode (.slot 0b001#3 : Code) = .ok .lfoAdv ∧ decode (.slot 0b010#3 : Code) = .ok .stepq ∧
    decode (.slot 0b011#3 : Code) = .ok .slew ∧ decode (.slot 0b100#3 : Code) = .ok .cond ∧
    decode (.slot 0b110#3 : Code) = .ok .mix := by decide

/-- 30_encoding.md R72. -/
theorem test_decode_ports :
    [0b0000#4, 0b0001#4, 0b0010#4, 0b0011#4, 0b0100#4, 0b0101#4, 0b0110#4].map decodePort =
      [some .ain, some .aoutL, some .aoutR, some .cutoff, some .res, some .mix, some .mode] ∧
    [0b0111#4, 0b1000#4, 0b1001#4, 0b1010#4, 0b1011#4, 0b1100#4, 0b1101#4].map decodePort =
      [some .vowel, some .rate, some .shape, some .cdepth, some .rdepth, some .slew, some .step] ∧
    decodePort 0b1110#4 = none ∧ decodePort 0b1111#4 = none := by decide

/-- 30_encoding.md R78, R79, R81: reserved codes, and operands a command does not take. -/
theorem test_decode_rejects :
    decode (.shape 7 : Code) = .error (.reservedShape 7) ∧ decode (.mode 6 : Code) = .error (.reservedMode 6) ∧
    decode (.slot 0 : Code) = .error (.selectorSlot 0) ∧ decode (.slot 5 : Code) = .error (.selectorSlot 5) ∧
    decode (.cmd 1 [.port 3, .stream 0 2] : Code) = .error (.cmd (.badOperands 1)) ∧
    decode (.cmd 2 [.natural 0] : Code) = .error (.cmd (.badOperands 2)) := by decide

/-- The table's numbering: a plain word is a command, 110 is MIX, a format bit above names the other formats (log entry 5). -/
theorem test_table_words :
    decodeTableWord 8 0b010 = some .activate ∧ decodeTableWord 8 0b110 = some .mix ∧ decodeTableWord 8 0b111 = none ∧
    decodeTableWord 8 (32 + 0b100) = some .fltComb ∧ decodeTableWord 8 (64 + 0b001) = some .lfoTri ∧
    decodeTableWord 8 (128 + 0b011) = some .slew ∧ decodeTableWord 3 8 = none := by decide

/-- V-ENC-1: the decoded integer of a selector value. -/
theorem test_selector_rounding :
    [0, 49 / 100, 1 / 2, 249 / 100, 5 / 2, 44 / 10, 9 / 2, 549 / 100, 11 / 2, -4 / 10, -1 / 2, 1000000000].map Config.num.rnd =
      [0, 0, 1, 2, 3, 4, 5, 5, 6, 0, -1, 1000000000] := by decide +kernel

/-- V-ENC-1: what the decoded integers select. -/
theorem test_selector_rows :
    (modeOp 4 : Option Instr) = some .fltComb ∧ (modeOp 6 : Option Instr) = none ∧ (modeOp (-1) : Option Instr) = none ∧
    (shapeOp 5 : Option Instr) = some .lfoSnh ∧ (shapeOp 1000000000 : Option Instr) = none ∧ vowelRow 4 = some 4 ∧ vowelRow 5 = none := by decide

/-- 30_encoding.md R73: each scalar latch is the value of its own port. -/
theorem test_latch_ports :
    Any.State.latch Config.num
      { bench with host := [(3, .value 3), (4, .value 4), (5, .value 5), (6, .value 6), (7, .value 7), (8, .value 8),
        (9, .value 9), (10, .value 10), (11, .value 11), (12, .value 12), (13, .value 13)] } =
      some { cutoff := 3, res := 4, mix := 5, mode := 6, vowel := 7, rate := 8, shape := 9, cdepth := 10, rdepth := 11,
             slew := 12, step := 13 } := by decide +kernel

/-! ### Slots 0 and 1 -/

/-- The raw value that a shape operation leaves. -/
def raw? {S : Type} (o : Any.Outcome S) : Option S := (next? o).map (fun t => t.blk.wires.raw)

/-- V-LFO-1, n = 2: phase π/2. -/
theorem test_lfoSin : raw? (Any.exec realMachine .lfoSin (atPhase (Real.pi / 2))) = some 1 := by
  show some ((Real.sin (Real.pi / 2) + 1) / 2) = some 1
  rw [Real.sin_pi_div_two]
  norm_num

/-- V-LFO-1, n = 1 and n = 5: phases π/4 and 5π/4. -/
theorem test_lfoTri :
    raw? (Any.exec realMachine .lfoTri (atPhase (Real.pi / 4))) = some (1 / 4) ∧
    raw? (Any.exec realMachine .lfoTri (atPhase (5 * Real.pi / 4))) = some (3 / 4) := by
  have hp := Real.pi_pos
  constructor
  · show some (shapeTri Reference.num (Real.pi / 4)) = _
    rw [shapeTri, Reference.num_pi, if_pos (by linarith)]
    congr 1
    field_simp
  · show some (shapeTri Reference.num (5 * Real.pi / 4)) = _
    rw [shapeTri, Reference.num_pi, if_neg (by linarith)]
    congr 1
    field_simp
    norm_num

/-- V-LFO-1, n = 3: phase 3π/4. -/
theorem test_lfoRup : raw? (Any.exec realMachine .lfoRup (atPhase (3 * Real.pi / 4))) = some (375 / 1000) := by
  have hp := Real.pi_pos
  show some (3 * Real.pi / 4 / (2 * Real.pi)) = _
  congr 1
  field_simp
  norm_num

/-- V-LFO-1, n = 3: phase 3π/4. -/
theorem test_lfoRdn : raw? (Any.exec realMachine .lfoRdn (atPhase (3 * Real.pi / 4))) = some (625 / 1000) := by
  have hp := Real.pi_pos
  show some (1 - 3 * Real.pi / 4 / (2 * Real.pi)) = _
  congr 1
  field_simp
  norm_num

/-- V-LFO-1, n = 4: the comparison with π is strict. -/
theorem test_lfoSqr :
    raw? (Any.exec realMachine .lfoSqr (atPhase Real.pi)) = some 0 ∧ raw? (Any.exec realMachine .lfoSqr (atPhase 0)) = some 1 :=
  ⟨congrArg some (if_neg (lt_irrefl _)), congrArg some (if_pos Real.pi_pos)⟩

/-- R106: `LFO_SH = 0.25` gives `raw = 0.25`. -/
theorem test_lfoSnh : raw? (exec .lfoSnh (atPhase 0)) = some (1 / 4) := by decide +kernel

/-- A wrap step of the sample-and-hold shape, SR = 1000, rate = 250 (V-SNH-1, step 3). -/
noncomputable def wrapStep (shape : Int) : Any.State ℝ :=
  { inSlot .adv ({ latchesOf with rate := 250, shape := shape } : Latches ℝ) .zero with
    sr := 1000
    lfo := ⟨3 * Real.pi / 2, 0, 0, 0, 0⟩
    rnd := ⟨[1 / 4, 3 / 4], 0⟩ }

/-- The increment of the wrap step reaches 2π exactly. -/
theorem wrapStep_wraps : Reference.num.twoPi ≤ 3 * Real.pi / 2 + phaseInc Reference.num 250 1000 := by
  rw [phaseInc_eq, Reference.num_twoPi]
  linarith

/-- V-SNH-1, step 3: a draw is made and cached, the phase wraps to 0. -/
theorem test_lfoAdv_draw :
    ∃ t, Any.exec realMachine .lfoAdv (wrapStep 5) = .next t ∧ t.lfo.phase = 0 ∧ t.lfo.sh = 1 / 4 ∧ t.rnd.taken = 1 := by
  have hw : drawDue Reference.num 5 (3 * Real.pi / 2) (phaseInc Reference.num 250 1000) = true :=
    (drawDue_iff _ _ _ _).mpr ⟨wrapStep_wraps, rfl⟩
  refine ⟨_, rfl, ?_, ?_, ?_⟩
  · show advancePhase Reference.num (3 * Real.pi / 2) (phaseInc Reference.num 250 1000) = 0
    rw [advancePhase_eq, if_pos wrapStep_wraps, phaseInc_eq, Reference.num_twoPi]
    ring
  · show (if drawDue Reference.num 5 (3 * Real.pi / 2) (phaseInc Reference.num 250 1000) then
      (if drawable (1 / 4 : ℝ) then 1 / 4 else realMachine.freeDraw 0 0) else 0) = 1 / 4
    rw [if_pos hw, if_pos ((drawable_iff _).mpr (by norm_num))]
  · show (if drawDue Reference.num 5 (3 * Real.pi / 2) (phaseInc Reference.num 250 1000) then
      RandomSource.consume ⟨_, 0⟩ else ⟨_, 0⟩).taken = 1
    rw [if_pos hw]
    rfl

/-- V-SNH-1: the same run with shape 0 consumes no draw and leaves `LFO_SH` 0. -/
theorem test_lfoAdv_no_draw :
    ∃ t, Any.exec realMachine .lfoAdv (wrapStep 0) = .next t ∧ t.lfo.sh = 0 ∧ t.rnd.taken = 0 := by
  have hw : drawDue Reference.num 0 (3 * Real.pi / 2) (phaseInc Reference.num 250 1000) = false := by
    rw [← Bool.not_eq_true, drawDue_iff]
    exact fun h => absurd h.2 (by decide)
  refine ⟨_, rfl, ?_, ?_⟩
  · show (if drawDue Reference.num 0 (3 * Real.pi / 2) (phaseInc Reference.num 250 1000) then
      (if drawable (1 / 4 : ℝ) then 1 / 4 else realMachine.freeDraw 0 0) else 0) = 0
    rw [hw]
    rfl
  · show (if drawDue Reference.num 0 (3 * Real.pi / 2) (phaseInc Reference.num 250 1000) then
      RandomSource.consume ⟨_, 0⟩ else ⟨_, 0⟩).taken = 0
    rw [hw]
    rfl

/-- 60_exceptions.md R220: without a DRAWS directive the draw is the free answer of the instance and the position. -/
theorem test_free_draw (unit position : Nat) :
    (RandomSource.mk [] position).answer Config.hardware unit = (Config.freeDraw unit position).val := rfl

/-- 1 is no value of the random source (40_lfo_modulation.md R108): the draw stays free (log entry 29). -/
theorem test_no_draw_of_one (position : Nat) :
    (RandomSource.mk [1] position).answer Config.hardware 0 = (Config.freeDraw 0 position).val := by
  have h : drawable (1 : Scalar) = false := by decide +kernel
  simp only [RandomSource.answer, h, Bool.false_eq_true, if_false]
  rfl

/-! ### Slots 2 to 4 -/

/-- Slot 2 with the counter at 5, the cached value 0.3 and the raw value 0.5, at SR = 1000. -/
def stepState (l : Latches Scalar) : State :=
  { inSlot .stepq l { Wires.zero with raw := 1 / 2 } with sr := 1000, lfo := ⟨0, 0, 5, 3 / 10, 0⟩ }

/-- S3: with the knob at 0 the stepped value is the raw value, and the counter stands. -/
theorem test_stepq_bypass :
    (next? (exec .stepq (stepState latches))).map (fun t => (t.blk.wires.stepped, t.lfo.stepCnt, t.lfo.stepVal)) =
      some (1 / 2, 5, 3 / 10) := by
  have h : bypassFlag Config.hardware 0 = true := (bypassFlag_iff _ 0).mpr Config.hardware.stepEps_nonneg
  show some ((if bypassFlag Config.hardware 0 then (1 / 2 : Scalar) else _),
    LfoRegs.stepCnt (if bypassFlag Config.hardware 0 then _ else _),
    LfoRegs.stepVal (if bypassFlag Config.hardware 0 then _ else _)) = _
  rw [h]
  rfl

/-- V-STEP-3: a counter left above a shrunken hold period (`hold = 2`) latches at once. -/
theorem test_stepq_shrunken_hold (h : Config.stepEps.val < 65 / 10000) :
    stepQuantize Config.hardware { latches with step := 65 / 10000 } 48000 (1 / 2) ⟨0, 0, 5, 3 / 10, 0⟩ =
      ⟨0, 0, 0, 1 / 2, 0⟩ := by
  have hb : bypassFlag Config.hardware (65 / 10000) = false := decide_eq_false (not_le.mpr h)
  have hl : latchFlag (5 + 1) (holdPeriod Config.hardware.num (65 / 10000) 48000) = true := by decide +kernel
  simp only [stepQuantize, hb, hl, Bool.false_eq_true, if_false, if_true]

/-- S4: with the slew knob at 0 the smoothed value follows at once. -/
theorem test_slew_follows :
    ∃ t, Any.exec realMachine .slew (inSlot .slew latchesOf { Wires.zero with stepped := 1 / 2 }) = .next t ∧ t.lfo.smooth = 1 / 2 := by
  refine ⟨_, rfl, ?_⟩
  show slewStep 0 (1 / 2) (slewCoeff Reference.num 0) = 1 / 2
  rw [slewCoeff_eq]
  norm_num [slewStep]

/-- V-SLEW-2: steps of the slew filter with `sf = 0.1`, also after the input has fallen; R112: `sf` at the knob 1/3. -/
theorem test_slew_steps :
    slewStep (1355 / 10000 : Scalar) (1 / 2) (1 / 10) = 17195 / 100000 ∧
    slewStep (2342795 / 10000000 : Scalar) (1 / 10) (1 / 10) = 22085155 / 100000000 ∧
    slewCoeff Reference.num (1 / 3) = 1 / 10 := by
  refine ⟨by decide +kernel, by decide +kernel, ?_⟩
  rw [slewCoeff_eq, show (1 / 1000 : ℝ) = (1 / 10) ^ (3 : ℝ) by norm_num, ← Real.rpow_mul (by norm_num)]
  norm_num

/-- Slot 4: the triple (fc, q, nres). -/
def cond? (l : Latches Scalar) (modv : Scalar) : Option (Scalar × Scalar × Scalar) :=
  (next? (exec .cond (inSlot .cond l { Wires.zero with modv := modv }))).map
    (fun t => (t.blk.wires.fc, t.blk.wires.q, t.blk.wires.nres))

/-- V-COND: rows with no clamp, and with the clamp at either end. -/
theorem test_cond :
    cond? { latches with cdepth := 4000, res := 103535 / 10000 } (1 / 2) = some (3000, 103535 / 10000, 1 / 2) ∧
    cond? { latches with cutoff := 30000, res := 5, rdepth := 30 } 1 = some (23520, 20, 1) ∧
    cond? { latches with cdepth := -2000, res := 1 / 10 } 1 = some (20, 707 / 1000, 0) := by decide +kernel

/-! ### Slot 5 -/

/-- R131 worked out by hand at `w0 = π/2`, `Q = 1`: `alpha = 1/2`, `a0 = 3/2`. -/
theorem coeffs_quarter : lowpassCoeffs Reference.num 48000 12000 1 = ⟨1 / 3, 2 / 3, 1 / 3, 0, 1 / 3⟩ := by
  have ha : angle Reference.num 12000 48000 = Real.pi / 2 := by rw [angle_eq]; ring
  simp only [lowpassCoeffs, alphaOf, ha, Reference.num_sin, Reference.num_cos, Real.sin_pi_div_two, Real.cos_pi_div_two]
  norm_num

/-- The first sample of the impulse response of V-SVF-2, which R136 gives for FLT.BQ too. -/
theorem test_fltBq :
    ∃ t, Any.exec realMachine .fltBq { inSlot .flt latchesOf (conditioned 1 12000 1 0) with sr := 48000 } = .next t ∧
      t.blk.wires.wet = 1 / 3 ∧ t.bq = ⟨2 / 3, 2 / 9⟩ := by
  refine ⟨_, rfl, ?_, ?_⟩
  · show sectionOut (lowpassCoeffs Reference.num 48000 12000 1) 1 .zero = _
    rw [coeffs_quarter]
    norm_num [sectionOut, Delays.zero]
  · show sectionNext (lowpassCoeffs Reference.num 48000 12000 1) 1 .zero = _
    rw [coeffs_quarter]
    norm_num [sectionNext, sectionOut, Delays.zero]

/-- V-SVF-2, third step: `out = 2/9`, `SVF_S1 = −2/9`, `SVF_S2 = −2/9`. -/
theorem test_fltSvf :
    ∃ t, Any.exec realMachine .fltSvf
        { inSlot .flt latchesOf (conditioned 0 12000 1 0) with sr := 48000, svf := ⟨-(2 / 3), 2 / 3⟩ } = .next t ∧
      t.blk.wires.wet = 2 / 9 ∧ t.svf = ⟨-(2 / 9), -(2 / 9)⟩ := by
  have hg : svfGain Reference.num 48000 12000 = 1 := by
    rw [svfGain, Reference.num_tan, Reference.num_pi, ← Real.tan_pi_div_four]
    congr 1
    ring
  refine ⟨_, rfl, ?_, ?_⟩
  · show svfLp (svfGain Reference.num 48000 12000) (svfDamping 1) 0 ⟨-(2 / 3), 2 / 3⟩ = _
    rw [hg]
    norm_num [svfLp, svfBp, svfHp, svfDen, svfDamping]
  · show svfNext (svfGain Reference.num 48000 12000) (svfDamping 1) 0 ⟨-(2 / 3), 2 / 3⟩ = _
    rw [hg]
    norm_num [svfNext, svfLp, svfBp, svfHp, svfDen, svfDamping]

/-- V-LAD-1: the first sample does not depend on the feedback, because that is the previous step's last stage. -/
theorem test_fltLad_first_sample (gl x : ℝ) :
    ladNext Reference.num gl 0 x LadRegs.zero = ladNext Reference.num gl (42 / 10) x LadRegs.zero := by
  simp [ladNext, LadRegs.zero, ladLast]

/-- R231: the first sample after a reset is `gl·tanh(gl·tanh(gl·tanh(gl·tanh(x))))`. -/
theorem test_fltLad (gl x : ℝ) :
    ladLast (ladNext Reference.num gl 0 x LadRegs.zero) =
      gl * Real.tanh (gl * Real.tanh (gl * Real.tanh (gl * Real.tanh x))) := by
  simp [ladNext, ladLast, ladCascade, ladStage, LadRegs.zero, List.replicate]

/-- V-VOW-1: at cutoff 1000 the formants stand at the table's frequencies, up to the clamp; V-VOW-3: at 2000 an octave higher. -/
theorem test_formant_shift (e : Formant ℝ) :
    formantFreq Reference.num 48000 1000 e = min e.freq 23520 ∧
    formantFreq Reference.num 48000 2000 e = min (e.freq * 2) 23520 := by
  constructor <;> rw [formantFreq, formantRatio_eq, lit_CUT_MAX_FRAC] <;> norm_num

/-- R187: zero state and silence give silence, for the last vowel. -/
theorem test_fltVow :
    ∃ t, Any.exec realMachine .fltVow (inSlot .flt { latchesOf with mode := 3, vowel := 4 } (conditioned 0 1000 2 (1 / 2))) =
        .next t ∧ t.blk.wires.wet = 0 := by
  refine ⟨_, rfl, ?_⟩
  show formantSum realMachine _ 1000 2 0 4 FmtRegs.zero * _ = 0
  simp [formantSum, sectionOut, FmtRegs.zero, Delays.zero, List.finRange]

/-- V-COMB-2, step 2: `rp = −0.5`, slots 4095 and 0, `dl = 0.5`, `y = 0.2475`. -/
theorem test_fltComb_fraction :
    (next? (exec .fltComb
        { inSlot .flt latches (conditioned 0 19200 (103535 / 10000) (1 / 2)) with comb := ⟨[(0, 1)], 2⟩ })).map
      (fun t => (t.blk.wires.wet, t.comb.read 2, t.comb.w)) = some (2475 / 10000, 2475 / 10000, 3) := by decide +kernel

/-- V-COMB-4, step 0: the cursor wraps from 4095 to 0. -/
theorem test_fltComb_wrap :
    (next? (exec .fltComb
        { inSlot .flt latches (conditioned 0 12000 (103535 / 10000) (1 / 2)) with comb := ⟨[(4091, 2)], 4095⟩ })).map
      (fun t => (t.blk.wires.wet, t.comb.read 4095, t.comb.w)) = some (99 / 100, 99 / 100, 0) := by decide +kernel

/-- V-RING-1, first two steps at `nres = 0.5` (phases 0 and π/2). -/
theorem test_fltRing :
    (∃ t, Any.exec realMachine .fltRing { inSlot .flt latchesOf (conditioned 1 12000 (103535 / 10000) (1 / 2)) with sr := 48000 } =
        .next t ∧ t.blk.wires.wet = 1 / 4 ∧ t.ringPhase = Real.pi / 2) ∧
    ringModulator Reference.num (Real.pi / 2) (1 / 2) = 1 := by
  have hp := Real.pi_pos
  refine ⟨⟨_, rfl, ?_, ?_⟩, ?_⟩
  · show 1 * ringModulator Reference.num 0 (1 / 2) = 1 / 4
    simp only [ringModulator, amSignal, ringSignal, Reference.num_sin, Real.sin_zero]
    norm_num
  · show advancePhase Reference.num 0 (phaseInc Reference.num 12000 48000) = Real.pi / 2
    rw [phaseInc_eq, Reference.advancePhase_eq, if_neg (by linarith)]
    ring
  · simp only [ringModulator, amSignal, ringSignal, Reference.num_sin, Real.sin_pi_div_two]
    norm_num

/-! ### Slot 6 -/

/-- V-MIX: `mix = 0.25`, wet 0.5, dry 1 gives 0.875 on both channels. -/
theorem test_mix :
    (next? (exec .mix (inSlot .mix { latches with mix := 1 / 4 } { Wires.zero with x := 1, wet := 1 / 2 }))).map
      (fun t => (t.hostRead 200, t.hostRead 300)) = some (.value (875 / 1000), .value (875 / 1000)) := by decide +kernel

/-- V-MIX: `mix = 1.5` is computed as written. -/
theorem test_mix_unclamped : mixOut (3 / 2 : Scalar) (1 / 2) 1 = 1 / 4 := by decide +kernel

/-! ### Lifecycle and outcomes -/

/-- V-LIFE-1: CREATE from Absent, with an allocation that succeeds, and one that fails (R203). -/
theorem test_create :
    (next? (step (issue 0 [.scalar (.value 48000)] { State.reset with alloc := ⟨[false], 0⟩ }))).map
      (fun t => (t.life, t.sr, t.outcome)) = some (.inactive, 48000, .ok) ∧
    (next? (step (issue 0 [.scalar (.value 48000)] { State.reset with alloc := ⟨[true], 0⟩ }))).map
      (fun t => (t.life, t.sr, t.outcome)) = some (.absent, 0, .createFailed) := by decide +kernel

/-- V-LIFE-1: `40 < 20/0.49 <= 40.82`; lifecycle before sample rate (R213). -/
theorem test_create_refused :
    refusal? (exec (.create (.value 40)) State.reset) = some .badSampleRate ∧
    refusal? (exec (.create .nan) State.reset) = some .badSampleRate ∧
    refusal? (exec (.create (.value (4082 / 100))) { State.reset with alloc := ⟨[false], 0⟩ }) = none ∧
    refusal? (exec (.create (.value 40)) bench) = some .badLifecycle := by decide +kernel

/-- R186: BIND replaces one binding and leaves the registers. -/
theorem test_bind :
    (next? (step (issue 1 [.port 3, .location 50] bench))).map (fun t => (t.ports.cutoff, t.ports.res, t.life)) =
      some (some ⟨50, 1⟩, some ⟨4, 1⟩, .active) := by decide +kernel

/-- 60_exceptions.md R201, code 6. -/
theorem test_bind_bad_port : refusal? (step (issue 1 [.port 14, .location 0] bench)) = some (.badPort 14) := by
  decide +kernel

/-- V-LIFE-2: ACTIVATE empties the comb buffer of P3. -/
theorem test_activate :
    (next? (step (issue 2 [] { bench with comb := ⟨[(0, 1), (4, 495 / 1000)], 10⟩, life := .inactive }))).map
      (fun t => (t.comb.buf, t.comb.w, t.life)) = some ([], 0, .active) := by decide +kernel

/-- P1, line 17 on the bench: the latches are taken and the block stands before sample 0. V-EXC-1, last row: with `N = 0` the
outcome is Ok and nothing changes. -/
theorem test_process :
    (next? (step (issue 3 [.natural 8] bench))).map (fun t => (t.blk.latches, t.blk.len, t.blk.n, t.blk.slot)) =
      some (latches, 8, 0, .lfo) ∧
    next? (step (issue 3 [.natural 0] bench)) = some bench := by decide +kernel

/-- V-LIFE-1: DEACTIVATE, and its refusal when Inactive. -/
theorem test_deactivate :
    (next? (step (issue 4 [] bench))).map Any.State.life = some .inactive ∧
    refusal? (step (issue 4 [] inactive)) = some .badLifecycle := by decide +kernel

/-- V-LIFE-1 and R191: DESTROY, then PROCESS is refused. -/
theorem test_destroy :
    (next? (step (issue 5 [] bench))).map Any.State.life = some .absent ∧
    refusal? (step (issue 3 [.natural 1] (Any.State.destroyed Config.hardware bench))) = some .badLifecycle := by decide +kernel

/-- V-EXC-1. First row: Skipped wins over another unbound port and a reserved selector. -/
theorem test_process_outcomes :
    (next? (exec (.process 8)
      (set .mode (.value 9) { bench with ports := { bench.ports with slew := none, mix := none } }))).map
      (fun t => (t.outcome, t.hostRead 200)) = some (.skipped, .value 0) ∧
    refusal? (exec (.process 8) { bench with ports := { bench.ports with mix := none } }) = some (.unboundPort .mix) ∧
    refusal? (exec (.process 8) { bench with ports := { bench.ports with aoutL := some ⟨200, 4⟩ } }) = some .badStreams ∧
    fault? (exec (.process 8) (set .rate (.value (-1)) (set .mode (.value 9) bench))) =
      some (.reservedSelector .mode 9) ∧
    refusal? (exec (.process 8) (set .rate (.value 48000) bench)) = some .rateOutOfRange ∧
    fault? (exec (.process 8) (set .vowel (.value 5) (set .shape (.value 7) bench))) =
      some (.reservedSelector .shape 7) ∧
    refusal? (exec (.process 8) (set .res .posInf bench)) = some .nonFinite := by decide +kernel

/-- R65: in-place processing is admitted, a shifted overlap is not. -/
theorem test_streams :
    ({ bench.ports with aoutL := some ⟨100, 8⟩, aoutR := some ⟨100, 8⟩ }).streamsOk 8 = true ∧
    ({ bench.ports with aoutL := some ⟨101, 8⟩ }).streamsOk 8 = false := by decide

/-- Words of the table run in the first step after reset, or stop where the spec says so (log entries 4 and 5): an operation of the
sequence first in its sample step, after which the block of one sample is over. -/
theorem test_first_step :
    (next? (step (State.reset.withFetchWord 8 6))).map Any.State.outcome = some .ok ∧
    (next? (step (State.reset.withFetchWord 8 (32 + 4)))).map (fun t => (t.comb.w, t.blk.running)) = some (1, false) ∧
    (next? (step (State.reset.withFetchWord 8 (64 + 2)))).map (fun t => t.blk.running) = some false ∧
    (next? (step (State.reset.withFetchWord 8 (128 + 2)))).map (fun t => t.blk.running) = some false ∧
    refusal? (step (State.reset.withFetchWord 8 2)) = some .badLifecycle := by decide +kernel

/-! ### A whole sample step -/

/-- R170, R171: with `mix = 0` one step writes the dry sample to both outputs, and the block stands before the next sample. -/
theorem test_dry_sample_step :
    ∃ t, Any.step realMachine
        { inSlot .lfo ({ latchesOf with mix := 0 } : Latches ℝ) .zero with host := [(100, .value 1)] } = .next t ∧
      t.hostRead 200 = .value 1 ∧ t.hostRead 300 = .value 1 ∧ t.blk.n = 1 ∧ t.blk.slot = .lfo := by
  have out (y : ℝ) : mixOut 0 y (1 : ℝ) = 1 := by
    rw [mixOut, zero_mul]
    norm_num
  refine ⟨_, rfl, ?_, ?_, rfl, rfl⟩
  · rw [Any.State.hostRead_congr (Any.State.endSample_host _), Any.State.hostRead_writeOut, if_pos (.inl rfl)]
    exact congrArg Sample.value (out _)
  · rw [Any.State.hostRead_congr (Any.State.endSample_host _), Any.State.hostRead_writeOut, if_pos (.inr rfl)]
    exact congrArg Sample.value (out _)

/-! ### Witnesses: states and operands that meet the hypotheses of the obligations -/

theorem witness_DecodeOfEncodeIsIdentity :
    (Instr.bind .step ⟨9, 1⟩ : Instr).wf = true ∧ (Instr.bind .ain ⟨0, 0⟩ : Instr).wf = true ∧ (Instr.mix : Instr).wf = true := by decide

theorem witness_EncodeOfDecodeIsIdentity :
    decode (.cmd 1 [.port 13, .location 9] : Code) = .ok (.bind .step ⟨9, 1⟩) ∧
    decode (.cmd 1 [.port 2, .stream 0 0] : Code) = .ok (.bind .aoutR ⟨0, 0⟩) ∧ decode (.slot 6 : Code) = .ok .mix := by decide

/-- The latches exist, with a tie on the mode port; a member of each list; the three ranges of `k` at their ends. -/
theorem witness_SelectorsRoundToNearest :
    (set .mode (.value (5 / 2)) bench).latch Config.num = some { latches with mode := 3 } ∧
    (bench.ports.res, latches.res) ∈ [(bench.ports.cutoff, latches.cutoff), (bench.ports.res, latches.res)] ∧
    (bench.ports.vowel, latches.vowel) ∈ [(bench.ports.mode, latches.mode), (bench.ports.vowel, latches.vowel)] ∧
    Config.num.rnd (1 / 2) = 1 ∧ Config.num.rnd (499 / 1000) = 0 ∧ Config.num.rnd (-499 / 1000) = 0 ∧
    Config.num.rnd (-1 / 2) = -1 := by
  refine ⟨by decide +kernel, by simp, by simp, ?_⟩
  decide +kernel

/-- The phases of the corner cases and examples of the shapes, and one just below 2π. -/
theorem witness_shapes :
    ∀ p ∈ [0, Real.pi / 4, Real.pi / 2, 3, Real.pi, 32 / 10, 5 * Real.pi / 4, 3 * Real.pi / 2, 2 * Real.pi - 1 / 1000],
      0 ≤ (atPhase p).lfo.phase ∧ (atPhase p).lfo.phase < 2 * Real.pi := by
  have h1 := Real.pi_gt_three
  have h2 := Real.pi_lt_d2
  intro p hp
  show 0 ≤ p ∧ p < 2 * Real.pi
  simp only [List.mem_cons, List.not_mem_nil, or_false] at hp
  rcases hp with rfl | rfl | rfl | rfl | rfl | rfl | rfl | rfl | rfl <;> constructor <;> linarith

theorem witness_SampleHoldShape :
    (∃ t, exec .lfoSnh (atPhase 0) = .next t) ∧
    ∃ u, exec .lfoSnh { (atPhase 0 : State) with lfo := { (atPhase 0 : State).lfo with phase := 1 }, rnd := ⟨[], 7⟩ } = .next u :=
  ⟨⟨_, rfl⟩, ⟨_, rfl⟩⟩

/-- The rate at both ends of its range, a phase and an increment at the ends of theirs, a wrap on 2π exactly. -/
theorem witness_PhaseAdvance :
    ((0 : ℝ) ≤ 0 ∧ (0 : ℝ) < 48000) ∧ ((0 : ℝ) ≤ 47999 ∧ (47999 : ℝ) < 48000) ∧
    (0 ≤ 2 * Real.pi - 1 / 1000 ∧ 2 * Real.pi - 1 / 1000 < 2 * Real.pi) ∧ Real.pi + Real.pi = 2 * Real.pi := by
  have h1 := Real.pi_gt_three
  exact ⟨by norm_num, by norm_num, ⟨by linarith, by linarith⟩, by ring⟩

/-- Both branches: a wrap step of shape 5, whatever the value of TWO_PI is, and a step of shape 0. -/
theorem witness_SampleHoldDraw :
    let s : State :=
      { inSlot .adv { latches with shape := 5, rate := 0 } .zero with lfo := { LfoRegs.zero with phase := Config.num.twoPi } }
    (Config.num.twoPi ≤ s.lfo.phase + Config.num.twoPi * s.blk.latches.rate / s.sr ∧ s.blk.latches.shape = 5) ∧
      (inSlot .adv latches .zero).blk.latches.shape ≠ 5 ∧ (0 : ℝ) ≤ 0 ∧ (0 : ℝ) < 1 ∧ (999 / 1000 : ℝ) < 1 := by
  refine ⟨⟨?_, rfl⟩, by decide, by norm_num⟩
  show Config.num.twoPi ≤ Config.num.twoPi + Config.num.twoPi * 0 / _
  simp

/-- A hold period of 1 just below the bound, and of 2 on it. -/
theorem witness_HoldPeriod :
    (0 : ℝ) < 2 - 1 / 1000 ∧ (1 : ℝ) * 1 * (2 - 1 / 1000) < 2 ∧ (0 : ℝ) < 2 ∧ ¬(1 : ℝ) * 1 * 2 < 2 := by norm_num

/-- Latches whose step knob is above the bypass threshold. -/
noncomputable def stepping : Latches ℝ := { latchesOf with step := 1 }

/-- At the sample rate 1 the hold period of `stepping` is 1, at 4 it is 3. -/
theorem stepping_hold :
    realMachine.stepEps < stepping.step ∧ holdPeriod Reference.num stepping.step 1 = 1 ∧
    holdPeriod Reference.num stepping.step 4 = 3 := by
  refine ⟨by norm_num [realMachine, stepping], ?_, ?_⟩
  · have : ⌊(1 : ℝ) * 1 * 1 / 2⌋ = 0 := by norm_num
    simp only [holdPeriod, stepping, Reference.num_floor, this]
    rfl
  · have : ⌊(1 : ℝ) * 1 * 4 / 2⌋ = 2 := by norm_num
    simp only [holdPeriod, stepping, Reference.num_floor, this]
    rfl

/-- The bypass, and the knob above the threshold, at the hold period 1. -/
theorem witness_StepQuantizer :
    (inSlot .stepq (latchesOf : Latches ℝ) .zero).blk.latches.step = 0 ∧
    realMachine.IsReference ∧ realMachine.stepEps < (inSlot .stepq stepping .zero).blk.latches.step ∧
    0 < ({ inSlot .stepq stepping .zero with sr := 1 }).sr ∧ holdPeriod Reference.num stepping.step 1 = 1 :=
  ⟨rfl, rfl, stepping_hold.1, zero_lt_one, stepping_hold.2.1⟩

/-- Both clauses at the hold period 3: two steps taken, and three. -/
theorem witness_StepQuantizerTiming :
    realMachine.IsReference ∧ realMachine.stepEps < stepping.step ∧ (0 : ℝ) < 4 ∧ (LfoRegs.zero : LfoRegs ℝ).stepCnt = 0 ∧
    ([0, 0] : List ℝ).length < holdPeriod Reference.num stepping.step 4 ∧
    ¬([0, 0, 0] : List ℝ).length < holdPeriod Reference.num stepping.step 4 := by
  rw [stepping_hold.2.2]
  exact ⟨rfl, stepping_hold.1, by norm_num, rfl, by decide, by decide⟩

/-- The coefficient at both ends of its range, with registers and input at the ends of theirs. -/
theorem witness_SlewFilter :
    ((0 : ℝ) < 1 ∧ (1 : ℝ) ≤ 1) ∧ ((0 : ℝ) < 1 / 1000 ∧ (1 / 1000 : ℝ) ≤ 1) ∧ slewStep (1 : ℝ) 0 (1 / 1000) = 999 / 1000 := by
  norm_num [slewStep]

/-- The ranges of the knob and their ends. -/
theorem witness_SlewCoefficient :
    ((0 : ℝ) ≤ 0 ∧ (0 : ℝ) ≤ 1) ∧ ((0 : ℝ) ≤ 1 ∧ (1 : ℝ) ≤ 1) ∧ (-(1 / 2) : ℝ) < 0 ∧ (1 : ℝ) < 11 / 10 := by norm_num

/-- The least admitted sample rate: there both bounds of the cutoff are 20. -/
theorem witness_leastSampleRate :
    20 / (49 / 100) ≤ (20 / (49 / 100) : ℝ) ∧ conditionCutoff latchesOf (20 / (49 / 100) : ℝ) 0 = 20 := by
  rw [conditionCutoff_eq]
  norm_num [latchesOf]

theorem witness_ConditionedCutoff :
    20 / (49 / 100) ≤ (inSlot .cond latchesOf .zero : Any.State ℝ).sr ∧
    (let l : Latches ℝ := { latchesOf with cutoff := 0 }; l.cutoff + 1 * l.cdepth ≤ 0) ∧
    (let l : Latches ℝ := { latchesOf with cdepth := 4000 }; l.cutoff = 1000 ∧ l.cdepth = 4000) ∧
    (let l : Latches ℝ := { latchesOf with cutoff := 30000 }; l.cdepth = 0 ∧ l.cutoff = 30000) ∧
    (let l : Latches ℝ := { latchesOf with cutoff := 5 }; l.cdepth = 0 ∧ l.cutoff = 5) := by
  norm_num [inSlot, benchOf, latchesOf]

theorem witness_ConditionedResonance :
    (let l : Latches ℝ := { latchesOf with res := 1 / 10 }; l.res = 1 / 10 ∧ l.rdepth = 0) ∧
    (let l : Latches ℝ := { latchesOf with res := 5, rdepth := 30 }; l.res = 5 ∧ l.rdepth = 30) := by
  simp [latchesOf]

theorem witness_ConditionerWritesNoRegister :
    let s : Any.State ℝ := inSlot .cond latchesOf .zero
    s.sr = 48000 ∧ s.blk.latches.cutoff = 1000 ∧ s.blk.latches.res = 707 / 1000 ∧ s.blk.latches.cdepth = 0 ∧
      s.blk.latches.rdepth = 0 ∧ 20 / (49 / 100) ≤ s.sr := by
  norm_num [inSlot, benchOf, latchesOf]

theorem witness_BiquadLowpass :
    (inSlot .flt latchesOf (conditioned 0 1000 1 0) : Any.State ℝ).bq = .zero ∧
    (inSlot .flt latchesOf (conditioned 0 1000 1 0) : Any.State ℝ).blk.wires.x = 0 := ⟨rfl, rfl⟩

/-- Ladder registers at both ends of their range, the least cutoff. -/
theorem witness_LadderStaysBounded :
    LadRegs.bounded #v[1, -1, 1, -1] ∧ LadRegs.bounded LadRegs.zero ∧ (0 : ℝ) < 48000 ∧ (0 : ℝ) < 20 := by
  refine ⟨?_, ?_, by norm_num, by norm_num⟩ <;> intro u hu
  · have h : u = 1 ∨ u = -1 ∨ u = 1 ∨ u = -1 := by simpa using hu
    rcases h with rfl | rfl | rfl | rfl <;> norm_num
  · have h : u = 0 := by simpa [LadRegs.zero] using hu
    rw [h]
    norm_num

/-- The first and the last vowel, on the host's machine and on the reals. -/
theorem witness_VowelFormantBank :
    (inSlot .flt latches .zero).blk.latches.vowel = (((0 : Fin 5).val : Nat) : Int) ∧
    (inSlot .flt { latches with vowel := 4 } .zero).blk.latches.vowel = (((4 : Fin 5).val : Nat) : Int) ∧
    (inSlot .flt (latchesOf : Latches ℝ) .zero).blk.latches.vowel = (((0 : Fin 5).val : Nat) : Int) :=
  ⟨rfl, rfl, rfl⟩

/-- V-COMB-6 and V-COMB-5: a delay that is not clamped, and one that is. -/
theorem witness_CombDelayRange :
    let l : Latches ℝ := { latchesOf with cutoff := 20 }
    ¬4095 < 48000 / conditionCutoff l 48000 0 ∧ 4095 < 96000 / conditionCutoff l 96000 0 := by
  simp only [conditionCutoff_eq]
  norm_num

/-- The cursor and the delay at their ends. -/
theorem witness_CombReadsOldSlots :
    ((⟨[], 4095⟩ : CombRegs ℝ).w < 4096 ∧ (2 : ℝ) < 4095 ∧ (4095 : ℝ) ≤ 4095) ∧
    ((⟨[], 0⟩ : CombRegs ℝ).w < 4096 ∧ (2 : ℝ) < 2 + 1 / 1000 ∧ (2 + 1 / 1000 : ℝ) ≤ 4095) := by norm_num

theorem witness_CombFilter :
    bench.cap = 4096 ∧ bench.comb.w < 4096 ∧ ({ bench with comb := ⟨[], 4095⟩ }).comb.w < 4096 ∧
    Memory.wf combUnlisted bench.comb.buf = true ∧ (benchOf : Any.State ℝ).cap = 4096 :=
  ⟨rfl, by decide, by decide, rfl, rfl⟩

theorem witness_CombZeroFeedbackIsDry :
    (inSlot .flt latchesOf (conditioned 1 12000 (707 / 1000) 0) : Any.State ℝ).blk.wires.nres = normalizeRes (707 / 1000) := by
  rw [normalizeRes_eq]
  norm_num [inSlot, conditioned]

/-- A delay of 3 after three steps, and the greatest delay after 4095 steps that have passed the wrap of the cursor. -/
theorem witness_CombRecursion :
    (2 < 3 ∧ 3 ≤ 4095 ∧ 3 ≤ ([1, 2, 3] : List ℝ).length) ∧
    ((⟨[], 4095⟩ : CombRegs ℝ).w < 4096 ∧ 4095 ≤ (List.replicate 4095 (0 : ℝ)).length) :=
  ⟨⟨by norm_num, by norm_num, le_refl _⟩, by decide, by rw [List.length_replicate]⟩

/-- The normalized resonance at both ends of its range. -/
theorem witness_RingModulatorUnit :
    (0 : ℝ) ≤ normalizeRes (707 / 1000) ∧ normalizeRes (20 : ℝ) ≤ 1 ∧ 20 / (49 / 100) ≤ (48000 : ℝ) := by
  rw [normalizeRes_eq, normalizeRes_eq]
  norm_num

theorem witness_RingPhaseStaysInRange :
    20 / (49 / 100) ≤ (48000 : ℝ) ∧ 0 ≤ 2 * Real.pi - 1 / 1000 ∧ 2 * Real.pi - 1 / 1000 < 2 * Real.pi := by
  have h1 := Real.pi_gt_three
  exact ⟨by norm_num, by linarith, by linarith⟩

/-- The source's scenario, and the modulator frequency 0. -/
theorem witness_RingScenarioIsSine :
    ((0 : ℝ) ≤ 100 ∧ (100 : ℝ) < 48000) ∧ ((0 : ℝ) ≤ 0 ∧ (0 : ℝ) < 48000) := by norm_num

/-- The last sample of a block of eight. -/
def lastSample : State := { inSlot .lfo latches .zero with blk := ⟨true, latches, 7, 8, .lfo, .zero⟩ }

/-- The first index and the last. -/
theorem witness_MixWritesBothOutputs :
    ((inSlot .mix latches .zero).ports.aoutL = some ⟨200, 8⟩ ∧ (inSlot .mix latches .zero).ports.aoutR = some ⟨300, 8⟩) ∧
    lastSample.ports.aoutL = some ⟨200, 8⟩ ∧ lastSample.ports.aoutR = some ⟨300, 8⟩ := by decide

/-- Every mode has a step that completes. -/
theorem witness_OneFilterUnitPerStep :
    ∀ m ∈ [(0 : BitVec 3), 1, 2, 3, 4, 5],
      ∃ i t, decode (.mode m : Code) = .ok i ∧ exec i (inSlot .flt latches (conditioned 1 1000 1 0)) = .next t := by
  intro m hm
  simp only [List.mem_cons, List.not_mem_nil, or_false] at hm
  rcases hm with rfl | rfl | rfl | rfl | rfl | rfl <;> exact ⟨_, _, rfl, rfl⟩

/-- A running block in each kind of slot, a command, no move, each other move of the host, and each kind of rejected command. -/
theorem witness_StepRunsDecodedInstruction :
    ((inSlot .lfo latches .zero).blk.running = true ∧ (inSlot .lfo latches .zero).blk.slot = .lfo ∧
      (inSlot .lfo latches .zero).readIn Config.num 0 = .ok 0 ∧ latches.shape = ((0 : BitVec 3).toNat : Int) ∧
      latches.mode = ((0 : BitVec 3).toNat : Int) ∧ decode (.mode 0 : Code) = .ok .fltBq) ∧
    ((inSlot .lfo latches .zero).blk.code = some (.shape 0) ∧ decode (.shape 0 : Code) = .ok .lfoSin) ∧
    ((inSlot .flt { latches with mode := 5 } .zero).blk.code = some (.mode 5) ∧ decode (.mode 5 : Code) = .ok .fltRing) ∧
    ((inSlot .mix latches .zero).blk.code = some (.slot 6) ∧ decode (.slot 6 : Code) = .ok .mix) ∧
    (bench.blk.running = false ∧ (issue 2 [] bench).queue = .command 2 [] :: [] ∧ decode (.cmd 2 [] : Code) = .ok .activate) ∧
    bench.queue = [] ∧ ({ bench with queue := [.store 3 (.value 5)] }).queue = .store 3 (.value 5) :: [] ∧
    ({ bench with queue := [.draws [1 / 2]] }).queue = .draws [1 / 2] :: [] ∧
    ({ bench with queue := [.allocs [true]] }).queue = .allocs [true] :: [] ∧
    (issue 1 [.port 15, .stream 0 2] bench).queue = .command 1 [.port 15, .stream 0 2] :: [] ∧
    decode (.cmd 2 [.natural 0] : Code) = .error (.cmd (.badOperands 2)) := by
  decide +kernel

/-- A step before the last sample of a block, and on it; a cell that is no output cell of the sample. -/
theorem witness_NoHostMoveDuringBlock :
    (∃ t, step (inSlot .lfo latches .zero) = .next t ∧ t.blk.running = true) ∧
    (∃ t, step lastSample = .next t ∧ t.blk.running = false) ∧
    (0 + 1 < 8 ∧ 8 ≤ 7 + 1) ∧ 201 ≠ (⟨200, 8⟩ : Source).base + 0 := by
  have h (s : State) (b : Bool) (e : (next? (step s)).map (fun t => t.blk.running) = some b) :=
    next_of_view (o := step s) (view := fun t => t.blk.running) e
  exact ⟨h _ _ (by decide +kernel), h _ _ (by decide +kernel), by decide, by decide⟩

/-- Outside a block: a step that keeps the registers, and ACTIVATE; both keep SR and CAP. -/
theorem witness_RegistersWrittenOnlyByTheCore :
    bench.blk.running = false ∧ bench.life ≠ .absent ∧ (∃ t, step (issue 4 [] bench) = .next t ∧ t.life ≠ .absent) ∧
    ∃ t, step (issue 2 [] bench) = .next t ∧ t.life ≠ .absent :=
  ⟨rfl, by decide, ⟨_, rfl, by decide⟩, ⟨_, rfl, by decide⟩⟩

theorem witness_SampleRateImmutable :
    bench.life ≠ .absent ∧ ∃ t, step (issue 4 [] bench) = .next t ∧ t.life ≠ .absent :=
  ⟨by decide, ⟨_, rfl, by decide⟩⟩

/-- The least admitted sample rate, an irrational one, an allocation fixed in advance, and values that are refused. -/
theorem witness_CreateInstance :
    State.reset.blk.running = false ∧ State.reset.life = .absent ∧ 20 / (49 / 100) ≤ (20 / (49 / 100) : Scalar) ∧
    ({ State.reset with alloc := ⟨[true], 0⟩ }).alloc.fixed = true :: [] ∧
    (Any.State.reset 4096 0 : Any.State ℝ).life = .absent ∧ 20 / (49 / 100) ≤ 10000 * Real.sqrt 2 ∧
    bench.life ≠ .absent ∧ (40 : Scalar) < 20 / (49 / 100) ∧ ∀ x : Scalar, Sample.nan = .value x → x < 20 / (49 / 100) := by
  refine ⟨rfl, rfl, le_refl _, rfl, rfl, ?_, by decide, by norm_num, ?_⟩
  · have : 1 ≤ Real.sqrt 2 := Real.one_le_sqrt.mpr (by norm_num)
    linarith
  · intro x h
    cases h

theorem witness_BindPort :
    inactive.blk.running = false ∧ inactive.life ≠ .absent ∧ bench.blk.running = false ∧ bench.life ≠ .absent := by
  decide

theorem witness_ActivateZeroesState :
    ({ inactive with comb := ⟨[(0, 1)], 1⟩ }).blk.running = false ∧ ({ inactive with comb := ⟨[(0, 1)], 1⟩ }).life ≠ .absent := by
  decide

theorem witness_DeactivateAndDestroy :
    bench.blk.running = false ∧ bench.life = .active ∧ inactive.blk.running = false ∧ inactive.life ≠ .absent := by decide

/-- A state for each row of the table, and a command that completes in each. -/
theorem witness_LifecycleTable :
    (State.reset.blk.running = false ∧ State.reset.life = .absent ∧
      ∃ t, exec (.create (.value 48000)) { State.reset with alloc := ⟨[false], 0⟩ } = .next t) ∧
    (inactive.blk.running = false ∧ inactive.life = .inactive) ∧
    (bench.blk.running = false ∧ bench.life = .active ∧ ∃ t, exec (.process 0) bench = .next t) := by
  refine ⟨⟨rfl, rfl, ?_⟩, ⟨rfl, rfl⟩, ⟨rfl, rfl, ?_⟩⟩
  · obtain ⟨t, ht, -⟩ := next_of_view (view := Any.State.life) (a := .inactive)
      (o := exec (.create (.value 48000)) { State.reset with alloc := ⟨[false], 0⟩ }) (by decide +kernel)
    exact ⟨t, ht⟩
  · obtain ⟨t, ht, -⟩ := next_of_view (view := Any.State.life) (a := .active) (o := exec (.process 0) bench) (by decide +kernel)
    exact ⟨t, ht⟩

/-- Each of the three ports unbound. -/
theorem witness_SkippedBlockChangesNothing :
    bench.blk.running = false ∧ bench.life = .active ∧ ({ bench.ports with cutoff := none }).cutoff = none ∧
    ({ bench.ports with rate := none }).rate = none ∧ ({ bench.ports with slew := none }).slew = none := by decide

/-- A state for each check of PROCESS that meets the premises of that check. -/
theorem witness_ProcessChecksInOrder :
    inactive.life ≠ .active ∧
    (bench.life = .active ∧ bench.ports.bound .cutoff = true ∧ bench.ports.bound .rate = true ∧
      bench.ports.bound .slew = true) ∧
    ({ bench.ports with mix := none }).bound .mix = false ∧
    (∀ port : Port, bench.ports.bound port = true) ∧
    bench.ports.streamsOk 9 = false ∧ bench.ports.streamsOk 8 = true ∧
    (set .res .nan bench).latch Config.num = none ∧ (Any.State.hostWrite bench 107 .posInf).inputsFinite Config.num 8 = false ∧
    (set .mode (.value 6) bench).latch Config.num = some { latches with mode := 6 } ∧
    (set .shape (.value 6) bench).latch Config.num = some { latches with shape := 6 } ∧
    (set .vowel (.value 5) bench).latch Config.num = some { latches with vowel := 5 } ∧
    (set .rate (.value 48000) bench).latch Config.num = some { latches with rate := 48000 } ∧
    bench.inputsFinite Config.num 8 = true := by
  refine ⟨by decide, by decide, by decide, fun port => by cases port <;> rfl, by decide, by decide, ?_⟩
  decide +kernel

/-- A number system that calls the scalars from 10⁶ on not finite, as a format with an overflow value does. -/
def overflowing : Hardware Scalar := { Config.hardware with num := { Config.num with isFinite := fun x => decide (x < 1000000) } }

/-- A control value and an input sample that are not finite, as a tag and as a scalar; what the overflowing format does with them. -/
theorem witness_NonFiniteValuesAreRefused :
    (bench.blk.running = false ∧ bench.life = .active ∧ (∀ port : Port, bench.ports.bound port = true) ∧
      bench.ports.streamsOk 8 = true) ∧
    (Port.res.isAudio = false ∧ bench.ports.get .res = some ⟨4, 1⟩ ∧ ((set .res .nan bench).hostRead 4).notFinite Config.num) ∧
    ((set .res (.value 1000000) bench).hostRead 4).notFinite overflowing.num ∧
    refusal? (Any.exec overflowing (.process 8) (set .res (.value 1000000) bench)) = some .nonFinite ∧
    refusal? (Any.exec overflowing (.process 8) (Any.State.hostWrite bench 107 (.value 1000000))) = some .nonFinite ∧
    refusal? (Any.exec overflowing (.create (.value 1000000)) State.reset) = some .badSampleRate ∧
    ¬(Sample.value (999999 : Scalar)).notFinite overflowing.num := by
  have h1 : (set .res .nan bench).hostRead 4 = .nan := by decide +kernel
  have h2 : (set .res (.value 1000000) bench).hostRead 4 = .value 1000000 := by decide +kernel
  refine ⟨⟨rfl, rfl, fun port => by cases port <;> rfl, by decide⟩, ⟨rfl, rfl, ?_⟩, ?_, by decide +kernel, by decide +kernel,
    by decide +kernel, fun h => ?_⟩
  · rw [h1]
    exact fun x hx => nomatch hx
  · rw [h2]
    intro x hx
    cases hx
    decide +kernel
  · exact absurd (h _ rfl) (by decide +kernel)

/-- Streams apart, streams that are the same region, an overlap, and a stream that is too short. -/
theorem witness_StreamRule :
    bench.ports.ain = some ⟨100, 8⟩ ∧ bench.ports.aoutL = some ⟨200, 8⟩ ∧ bench.ports.aoutR = some ⟨300, 8⟩ ∧
    ({ bench.ports with aoutR := some ⟨207, 8⟩ }).streamsOk 8 = false ∧
    ({ bench.ports with aoutR := some ⟨208, 8⟩ }).streamsOk 8 = true ∧
    ({ bench.ports with aoutR := some ⟨200, 8⟩ }).streamsOk 8 = true ∧ bench.ports.streamsOk 9 = false := by decide

/-- The rate at both ends of its range; blocks of 0 and of 8 samples. -/
theorem witness_ProcessStartsBlock :
    bench.blk = .idle ∧ bench.life = .active ∧ (∀ port : Port, bench.ports.bound port = true) ∧
    bench.ports.streamsOk 0 = true ∧ bench.ports.streamsOk 8 = true ∧ bench.inputsFinite Config.num 8 = true ∧
    (set .rate (.value 0) bench).latch Config.num = some { latches with rate := 0 } ∧
    (set .rate (.value 47999) bench).latch Config.num = some { latches with rate := 47999 } ∧
    latches.legal ∧ (0 : Scalar) ≤ 0 ∧ (47999 : Scalar) < bench.sr := by
  refine ⟨rfl, rfl, fun port => by cases port <;> rfl, by decide, by decide, by decide +kernel, by decide +kernel,
    by decide +kernel, by unfold Latches.legal; decide, le_refl _, by decide +kernel⟩

/-! #### Blocks, on any number system -/

section
variable {S : Type} [Arith S] [DecidableLT S] [DecidableLE S] [DecidableEq S] (H : Hardware S)

/-- One sample step of the bench, in mode 0. -/
theorem bench_sampleStep (x : S) (s : Any.State S) (hl : s.ports.aoutL = some ⟨200, 8⟩) (hr : s.ports.aoutR = some ⟨300, 8⟩) :
    ∃ t, sampleStep H latchesOf 0 x s = some t := by
  simp only [sampleStep, shapeRaw, filterUnit, mixTo, latchesOf, hl, hr, if_true, Option.bind_eq_bind, Option.bind_some]
  exact ⟨_, rfl⟩

/-- One sample step from index 0 on streams of eight samples. -/
theorem bench_runSamples (s : Any.State S) (hp : s.ports = (benchOf : Any.State S).ports) {x : S}
    (hx : s.hostRead 100 = .value x) (hf : H.num.isFinite x = true) : ∃ t, runSamples H latchesOf 0 1 s = some t := by
  obtain ⟨t, ht⟩ := bench_sampleStep H x s (by rw [hp]; rfl) (by rw [hp]; rfl)
  have hr : s.readIn H.num 0 = .ok x :=
    Any.State.readIn_of_value (input := ⟨100, 8⟩) (by rw [hp]; rfl) hx hf
  exact ⟨t, by simp only [runSamples, hr, ht]⟩

end

/-- A sample before the last, and the last. -/
theorem witness_OneStepIsOneSampleStep :
    ((inSlot .lfo latches .zero).blk.running = true ∧ (inSlot .lfo latches .zero).blk.slot = .lfo ∧
      (inSlot .lfo latches .zero).readIn Config.num 0 = .ok 0 ∧
      ∃ t, sampleStep Config.hardware latches 0 0 { inSlot .lfo latches .zero with blk := .idle } = some t) ∧
    lastSample.blk.running = true ∧ lastSample.blk.slot = .lfo ∧ lastSample.readIn Config.num 7 = .ok 0 :=
  ⟨⟨rfl, rfl, by decide +kernel, bench_sampleStep _ _ _ rfl rfl⟩, rfl, rfl, by decide +kernel⟩

/-- The bench is sound. -/
theorem bench_sound : bench.Sound Config.hardware where
  capacity := rfl
  sampleRate := fun _ => by decide +kernel
  absent := fun h => nomatch h
  comb := ⟨by decide, by decide, by decide⟩
  host := by decide +kernel
  idle := fun _ => rfl
  block := fun h => nomatch h

/-- Blocks of 0 and of 8 samples, the length of the streams, are admitted. -/
theorem witness_ProcessRunsTheWholeBlock :
    bench.Sound Config.hardware ∧ bench.blk.running = false ∧ bench.admission Config.hardware.num 0 = .ok latches ∧
    bench.admission Config.hardware.num 8 = .ok latches :=
  ⟨bench_sound, rfl, by decide +kernel, by decide +kernel⟩

theorem witness_SplittingABlockChangesNothing :
    bench.ports.ain = some ⟨100, 8⟩ ∧ bench.ports.aoutL = some ⟨200, 8⟩ ∧ bench.ports.aoutR = some ⟨300, 8⟩ ∧
    (∃ t, runSamples Config.hardware latches 0 0 bench = some t) ∧ ∃ t, runSamples Config.hardware latches 0 1 bench = some t :=
  ⟨rfl, rfl, rfl, ⟨_, rfl⟩, bench_runSamples _ _ rfl rfl rfl⟩

theorem witness_SilenceAfterActivation :
    realMachine.IsReference ∧
    ∃ a, Any.exec realMachine .activate { (benchOf : Any.State ℝ) with comb := ⟨[(0, 1)], 1⟩ } = .next a ∧
      a.ports.ain = some ⟨100, 8⟩ ∧ a.ports.aoutL = some ⟨200, 8⟩ ∧ a.ports.aoutR = some ⟨300, 8⟩ ∧
      (∀ k : Nat, k < 1 → a.hostRead (100 + k) = .value 0) ∧ ∃ t, runSamples realMachine latchesOf 0 1 a = some t := by
  refine ⟨rfl, _, rfl, rfl, rfl, rfl, ?_, bench_runSamples _ _ rfl rfl rfl⟩
  intro k hk
  obtain rfl : k = 0 := by omega
  rfl

theorem witness_BlockFillsBothOutputs :
    bench.ports.aoutL = some ⟨200, 8⟩ ∧ bench.ports.aoutR = some ⟨300, 8⟩ ∧ bench.ports.streamsOk 1 = true ∧
    (∃ t, runSamples Config.hardware latches 0 1 bench = some t) ∧
    ∀ k : Nat, k < 1 → 201 ≠ 200 + k ∧ 201 ≠ 300 + k :=
  ⟨rfl, rfl, by decide, bench_runSamples _ _ rfl rfl rfl, fun k hk => by omega⟩

/-- A block of the bench at its first step. -/
theorem running_sound : (inSlot .lfo latches .zero).Sound Config.hardware :=
  { bench_sound with
    absent := fun h => nomatch h
    idle := fun h => nomatch h
    block := fun _ =>
      { active := rfl
        index := by decide
        selectors := by
          show Latches.legal latches
          unfold Latches.legal
          decide
        rate := by decide +kernel
        bound := fun port => by cases port <;> rfl
        streams := by decide
        slot := rfl
        wires := rfl
        inputs := fun k _ hk => Any.State.inputsFinite_read (by decide +kernel) hk } }

/-- A block of the bench on the reals. -/
noncomputable def realRunning : Any.State ℝ := inSlot .lfo latchesOf .zero

/-- The bench on the reals, outside a block and in one, meets the whole invariant. -/
theorem real_inv : (benchOf : Any.State ℝ).Inv realMachine ∧ realRunning.Inv realMachine := by
  have host : Memory.wf hostUnlisted (benchOf : Any.State ℝ).host = true := by
    rw [Memory.wf_iff]
    constructor
    · simp [benchOf]
    · intro c hc
      simp only [benchOf, List.mem_cons, List.not_mem_nil, or_false] at hc
      rcases hc with rfl | rfl | rfl | rfl <;> simp [hostUnlisted]
  have sampleRate : leastSampleRate ≤ (benchOf : Any.State ℝ).sr := by
    rw [leastSampleRate_eq]
    norm_num [benchOf]
  have comb : (benchOf : Any.State ℝ).comb.legal 4096 := ⟨by decide, rfl, fun c hc => nomatch hc⟩
  have lfo : (benchOf : Any.State ℝ).lfo.legal :=
    ⟨le_refl _, by show (0 : ℝ) < _; positivity, le_refl _, by show (0 : ℝ) < 1; norm_num⟩
  have lad : LadRegs.bounded (benchOf : Any.State ℝ).lad := witness_LadderStaysBounded.2.1
  have ring : 0 ≤ (benchOf : Any.State ℝ).ringPhase ∧ (benchOf : Any.State ℝ).ringPhase < 2 * Real.pi :=
    ⟨le_refl _, by show (0 : ℝ) < _; positivity⟩
  refine ⟨⟨⟨rfl, fun _ => sampleRate, (fun h => nomatch h), comb, host, fun _ => rfl, (fun h => nomatch h)⟩,
    lfo, lad, ring⟩,
    ⟨rfl, fun _ => sampleRate, (fun h => nomatch h), comb, host, (fun h => nomatch h), fun _ => ?_⟩, lfo, lad, ring⟩
  refine ⟨rfl, by decide, rfl, rfl, ?_, ⟨zero_le_one, ?_⟩, fun port => by cases port <;> rfl, by decide, fun k _ hk =>
    Any.State.inputsFinite_read (count := 8) rfl hk⟩
  · rw [Latches.legal_iff]
    decide
  · show (1 : ℝ) < lit 48000
    norm_num

/-- The invariant and a step that completes, outside a block and in one. -/
theorem witness_EveryStepKeepsTheInvariant :
    (bench.Sound Config.hardware ∧ ∃ t, step bench = .next t) ∧
    ((inSlot .lfo latches .zero).Sound Config.hardware ∧ ∃ t, step (inSlot .lfo latches .zero) = .next t) ∧
    (realMachine.IsReference ∧ (benchOf : Any.State ℝ).Inv realMachine ∧ ∃ t, Any.step realMachine benchOf = .next t) ∧
    realRunning.Inv realMachine ∧ ∃ t, Any.step realMachine realRunning = .next t :=
  ⟨⟨bench_sound, ⟨_, rfl⟩⟩, ⟨running_sound, ⟨_, rfl⟩⟩, ⟨rfl, real_inv.1, ⟨_, rfl⟩⟩, real_inv.2, ⟨_, rfl⟩⟩

theorem witness_RunningBlockNeverStops :
    (inSlot .lfo latches .zero).Sound Config.hardware ∧ (inSlot .lfo latches .zero).blk.running = true :=
  ⟨running_sound, rfl⟩

end Sys2Proof.Tests
end

