-- ==== Sys2Proof/Proofs/Commands.lean ====
section
/-! PROOF. What each lifecycle command can do when it leaves a next state (45_lifecycle_commands.md), and which registers it leaves as
they were.
-/

namespace Sys2Proof.Machine

open Sys2Proof

variable {S : Type}

/-! ### The commands, one by one -/

/-- BIND with a next state: one port has a new source. -/
theorem Any.execBind_next {port : Port} {source : Source} {s t : Any.State S} (h : Any.execBind port source s = .next t) :
    s.admits [.inactive, .active] = true ∧ t = { s with ports := s.ports.set port (some source), outcome := .ok } := by
  unfold Any.execBind at h
  split at h
  · next ha => exact ⟨ha, (Host.Outcome.next.inj h).symm⟩
  · cases h

/-- DEACTIVATE with a next state: LIFE is Inactive. -/
theorem Any.execDeactivate_next {s t : Any.State S} (h : Any.execDeactivate s = .next t) :
    s.admits [.active] = true ∧ t = { s with life := .inactive, outcome := .ok } := by
  unfold Any.execDeactivate at h
  split at h
  · next ha => exact ⟨ha, (Host.Outcome.next.inj h).symm⟩
  · cases h

variable [Arith S]

/-- ACTIVATE with a next state: every register is 0 and LIFE is Active. -/
theorem Any.execActivate_next {s t : Any.State S} (h : Any.execActivate s = .next t) :
    s.admits [.inactive, .active] = true ∧ t = { s.zeroRegs with life := .active, outcome := .ok } := by
  unfold Any.execActivate at h
  split at h
  · next ha => exact ⟨ha, (Host.Outcome.next.inj h).symm⟩
  · cases h

/-- DESTROY with a next state: the one of R191, and nothing else. -/
theorem Any.execDestroy_next {H : Hardware S} {s t : Any.State S} (h : Any.execDestroy H s = .next t) :
    s.admits [.inactive, .active] = true ∧ t = s.destroyed H := by
  unfold Any.execDestroy at h
  split at h
  · next ha => exact ⟨ha, (Host.Outcome.next.inj h).symm⟩
  · cases h

/-- CREATE with a next state: its sample rate is admitted, and the allocation has failed, or has not and R185 is done. -/
theorem Any.execCreate_next [DecidableLE S] {H : Hardware S} {v : Sample S} {s t : Any.State S}
    (h : Any.execCreate H v s = .next t) :
    s.admits [.absent] = true ∧ ∃ x, v.scalar? H.num = some x ∧ leastSampleRate ≤ x ∧
      ((s.alloc.fails H s.unit = true ∧ t = { s with alloc := s.alloc.consume, outcome := .createFailed }) ∨
        (s.alloc.fails H s.unit = false ∧ t = { s.created H x with alloc := s.alloc.consume })) := by
  unfold Any.execCreate at h
  split at h
  · next ha =>
    split at h
    · cases h
    · next x hx =>
      split at h
      · next hle =>
        refine ⟨ha, x, hx, hle, ?_⟩
        split at h
        · next hf => exact .inl ⟨hf, (Host.Outcome.next.inj h).symm⟩
        · next hf => exact .inr ⟨Bool.eq_false_iff.mpr hf, (Host.Outcome.next.inj h).symm⟩
      · cases h
  · cases h

section
variable [DecidableLT S] [DecidableLE S]

/-- Of the three causes that leave a next state a check of PROCESS names Skipped alone, and only check 2 does
(45_lifecycle_commands.md R188). -/
theorem Any.State.admission_error {N : Num S} {s : Any.State S} {count : Nat} {c : Cause} (h : s.admission N count = .error c) :
    c ≠ .ok ∧ c ≠ .createFailed ∧ (c = .skipped → s.ports.skipFlag = true) := by
  unfold Any.State.admission at h
  repeat' split at h
  all_goals cases h
  case isFalse.isTrue hskip => exact ⟨nofun, nofun, fun _ => hskip⟩
  all_goals exact ⟨nofun, nofun, nofun⟩

/-- PROCESS with a next state: it is skipped, or admitted and its block starts. -/
theorem Any.execProcess_next {H : Hardware S} {count : Nat} {s t : Any.State S} (h : Any.execProcess H count s = .next t) :
    (s.ports.skipFlag = true ∧ t = { s with outcome := .skipped }) ∨
      ∃ l, s.admission H.num count = .ok l ∧ t = s.startBlock l count := by
  unfold Any.execProcess at h
  split at h
  · next c hc =>
    obtain ⟨hok, hfailed, hskip⟩ := Any.State.admission_error hc
    rcases Any.raise_next h with ⟨rfl, -⟩ | ⟨rfl, ht⟩ | ⟨rfl, -⟩
    · exact absurd rfl hok
    · exact .inl ⟨hskip rfl, ht⟩
    · exact absurd rfl hfailed
  · next l hl => exact .inr ⟨l, hl, (Host.Outcome.next.inj h).symm⟩

/-! ### The registers -/

omit [Arith S] [DecidableLT S] [DecidableLE S] in
theorem Any.State.sameRegisters_refl (s : Any.State S) : s.sameRegisters s := ⟨rfl, rfl, rfl, rfl, rfl, rfl, rfl⟩

omit [DecidableLT S] [DecidableLE S] in
/-- Starting a block writes no register. -/
theorem Any.State.sameRegisters_startBlock (s : Any.State S) (l : Latches S) (count : Nat) :
    s.sameRegisters (s.startBlock l count) := by
  unfold Any.State.startBlock
  split <;> exact s.sameRegisters_refl

variable [DecidableEq S]

/-- A lifecycle command keeps every register, or it is CREATE, ACTIVATE or DESTROY and has zeroed every one (10_state.md R40). -/
theorem Any.exec_command_registers {H : Hardware S} {c : BitVec 3} {operands : List (Operand S)} {i : Instr S} {s t : Any.State S}
    (hd : decodeCmd c operands = .ok i) (h : Any.exec H i s = .next t) :
    s.sameRegisters t ∨ s.zeroRegs.sameRegisters t ∧ (c = 0 ∨ c = 2 ∨ c = 5) := by
  rcases decodeCmd_cases hd with
    ⟨hc, sr, rfl⟩ | ⟨-, port, source, rfl⟩ | ⟨hc, rfl⟩ | ⟨-, count, rfl⟩ | ⟨-, rfl⟩ | ⟨hc, rfl⟩
  · obtain ⟨-, x, -, -, ⟨-, rfl⟩ | ⟨-, rfl⟩⟩ := Any.execCreate_next h
    · exact .inl s.sameRegisters_refl
    · exact .inr ⟨s.zeroRegs.sameRegisters_refl, .inl hc⟩
  · obtain ⟨-, rfl⟩ := Any.execBind_next h
    exact .inl s.sameRegisters_refl
  · obtain ⟨-, rfl⟩ := Any.execActivate_next h
    exact .inr ⟨s.zeroRegs.sameRegisters_refl, .inr (.inl hc)⟩
  · obtain ⟨-, rfl⟩ | ⟨l, -, rfl⟩ := Any.execProcess_next h
    · exact .inl s.sameRegisters_refl
    · exact .inl (s.sameRegisters_startBlock l count)
  · obtain ⟨-, rfl⟩ := Any.execDeactivate_next h
    exact .inl s.sameRegisters_refl
  · obtain ⟨-, rfl⟩ := Any.execDestroy_next h
    exact .inr ⟨s.zeroRegs.sameRegisters_refl, .inr (.inr hc)⟩

end

/-- Settles O41: of the host's moves only a command can write a register, and a command that does zeroes them all. -/
theorem registersWrittenOnlyByTheCore : Obligations.RegistersWrittenOnlyByTheCore := by
  intro s t hr h
  rw [step_eq] at h
  rcases Any.step_idle_cases hr h with
    ⟨-, rfl⟩ | ⟨c, operands, rest, i, hq, hd, hexec⟩ | ⟨a, v, rest, -, rfl⟩ | ⟨answers, rest, -, rfl⟩ | ⟨answers, rest, -, rfl⟩
  · exact .inl (Any.State.sameRegisters_refl _)
  · rcases Any.exec_command_registers hd hexec with hsame | ⟨⟨lfo, bq, svf, lad, fmt, comb, ringPhase⟩, hc⟩
    · exact .inl hsame
    · exact .inr ⟨lfo, bq, svf, lad, fmt, comb, ringPhase, c, operands, rest, hq, hc⟩
  · exact .inl s.sameRegisters_refl
  · exact .inl s.sameRegisters_refl
  · exact .inl s.sameRegisters_refl

end Sys2Proof.Machine
end

