-- ==== Sys2Proof/Proofs/NonFinite.lean ====
section
/-! PROOF. Check 5 of PROCESS and the check of CREATE's operand (60_exceptions.md R209).
-/

namespace Sys2Proof.Machine

open Sys2Proof

variable {S : Type} [Arith S] {N : Num S}

/-- A control port bound to a cell that is not finite has no value. -/
theorem Any.State.control_eq_none {s : Any.State S} {port : Port} {source : Source} (hp : s.ports.get port = some source)
    (hv : (s.hostRead source.base).notFinite N) : s.control N port = none := by
  simp [Any.State.control, Any.State.portValue, hp, Sample.scalar?_eq_none.mpr hv]

/-- Where the latches can be taken, every control port has a finite value. -/
theorem Any.State.control_of_latch {s : Any.State S} {l : Latches S} (h : s.latch N = some l) {port : Port}
    (hp : port.isAudio = false) : ∃ x, s.control N port = some x := by
  unfold Any.State.latch at h
  split at h
  · cases port with
    | ain | aoutL | aoutR => cases hp
    | _ => exact ⟨_, by assumption⟩
  · cases h

/-- A control port without a finite value keeps the latches from being taken. -/
theorem Any.State.latch_eq_none {s : Any.State S} {port : Port} (hp : port.isAudio = false) (h : s.control N port = none) :
    s.latch N = none := by
  cases hl : s.latch N with
  | none => rfl
  | some l =>
    obtain ⟨x, hx⟩ := Any.State.control_of_latch hl hp
    cases h.symm.trans hx

/-- Check 5 finds a sample of P_AIN that is not finite. -/
theorem Any.State.inputsFinite_eq_false {s : Any.State S} {input : Source} {k count : Nat} (hi : s.ports.ain = some input)
    (hk : k < count) (hv : (s.hostRead (input.base + k)).notFinite N) : s.inputsFinite N count = false := by
  refine Bool.eq_false_iff.mpr fun hfinite => ?_
  obtain ⟨x, hx⟩ := Any.State.inputsFinite_read hfinite hk
  obtain ⟨input', hi', hvalue, hx'⟩ := Any.State.readIn_ok hx
  obtain rfl : input = input' := Option.some.inj (hi.symm.trans hi')
  exact absurd hx' (by simp [hv x hvalue])

/-- PROCESS past its checks 1 to 4 is refused by check 5: the latches cannot be taken, or a sample of P_AIN is not finite. -/
theorem Any.execProcess_nonFinite [DecidableLT S] [DecidableLE S] {H : Hardware S} {s : Any.State S} {count : Nat}
    (hr : s.blk.running = false) (hl : s.life = .active) (hb : ∀ port : Port, s.ports.bound port = true)
    (hs : s.ports.streamsOk count = true) (h : s.latch H.num = none ∨ s.inputsFinite H.num count = false) :
    Any.execProcess H count s = .refused .nonFinite := by
  have hadmits : s.admits [.active] = true := (s.admits_iff _).mpr ⟨hr, by simp [hl]⟩
  have hskip : s.ports.skipFlag = false := by simp [Ports.skipFlag, hb]
  have hadmission : s.admission H.num count = .error .nonFinite := by
    unfold Any.State.admission
    rw [(Ports.firstUnbound_eq_none _).mpr hb]
    rcases h with h | h
    · simp [hadmits, hskip, hs, h]
    · cases hlatch : s.latch H.num <;> simp [hadmits, hskip, hs, h]
  rw [Any.execProcess, hadmission]
  rfl

/-- CREATE from Absent refuses a sample rate that is not finite. -/
theorem Any.execCreate_nonFinite [DecidableLE S] {H : Hardware S} {s : Any.State S} {v : Sample S} (hr : s.blk.running = false)
    (hl : s.life = .absent) (hv : v.notFinite H.num) : Any.execCreate H v s = .refused .badSampleRate := by
  rw [Any.execCreate, if_pos ((s.admits_iff _).mpr ⟨hr, by simp [hl]⟩), Sample.scalar?_eq_none.mpr hv]
  rfl

/-- Settles O50: a control port that is not finite stops the latches, a sample of P_AIN that is not finite stops check 5's second half,
and the sample rate of CREATE must have a scalar. -/
theorem nonFiniteValuesAreRefused : Obligations.NonFiniteValuesAreRefused := by
  refine ⟨?_, ?_, fun x hx => Bool.noConfusion (hx x rfl : true = false)⟩
  · intro S _ _ _ _ H s count hr hl hb hs
    constructor
    · intro port source hp hsource hv
      exact Any.execProcess_nonFinite hr hl hb hs (.inl (Any.State.latch_eq_none hp (Any.State.control_eq_none hsource hv)))
    · intro input k hi hk hv
      exact Any.execProcess_nonFinite hr hl hb hs (.inr (Any.State.inputsFinite_eq_false hi hk hv))
  · intro S _ _ _ _ H s v hr hl hv
    exact Any.execCreate_nonFinite hr hl hv

end Sys2Proof.Machine
end

