-- ==== Sys2Proof/Proofs/FilterUnits.lean ====
section
/-! PROOF. What each of the six filter operations leaves behind (10_state.md R38): its wet sample, and new registers of its own unit.
-/

namespace Sys2Proof.Machine

open Sys2Proof

variable {S : Type} [Arith S]

/-- FLT.VOW with a next state: new FMT_Z and nothing else but the wet sample. -/
theorem Any.execFltVow_next {H : Hardware S} {s t : Any.State S} (h : Any.execFltVow H s = .next t) :
    ∃ wet fmt, t = { s.passWet wet with fmt := fmt } := by
  unfold Any.execFltVow at h
  split at h
  · cases h
  · exact ⟨_, _, (Host.Outcome.next.inj h).symm⟩

variable [DecidableLT S] [DecidableLE S] [DecidableEq S]

/-- A filter operation with a next state, by its mode: the unit that it wrote, and for the units of which later proofs ask more, what it
wrote there. -/
theorem Any.exec_filter_next {H : Hardware S} {f : BitVec 3} {i : Instr S} {s t : Any.State S} (hd : decodeMode f = some i)
    (h : Any.exec H i s = .next t) :
    (f = 0 ∧ ∃ wet bq, t = { s.passWet wet with bq := bq }) ∨
      (f = 1 ∧ ∃ wet svf, t = { s.passWet wet with svf := svf }) ∨
      (f = 2 ∧ ∃ wet, t = { s.passWet wet with
        lad := ladNext H.num (ladCoeff H.num s.sr s.blk.wires.fc) (ladFeedback s.blk.wires.nres) s.blk.wires.x s.lad }) ∨
      (f = 3 ∧ ∃ wet fmt, t = { s.passWet wet with fmt := fmt }) ∨
      (f = 4 ∧ ∃ y, t = { s.passWet y with comb := combNext s.cap y s.comb }) ∨
      (f = 5 ∧ ∃ wet, t = { s.passWet wet with
        ringPhase := advancePhase H.num s.ringPhase (phaseInc H.num s.blk.wires.fc s.sr) }) := by
  rcases decodeMode_cases hd with ⟨hf, rfl⟩ | ⟨hf, rfl⟩ | ⟨hf, rfl⟩ | ⟨hf, rfl⟩ | ⟨hf, rfl⟩ | ⟨hf, rfl⟩
  · exact .inl ⟨hf, _, _, (Host.Outcome.next.inj h).symm⟩
  · exact .inr (.inl ⟨hf, _, _, (Host.Outcome.next.inj h).symm⟩)
  · exact .inr (.inr (.inl ⟨hf, _, (Host.Outcome.next.inj h).symm⟩))
  · exact .inr (.inr (.inr (.inl ⟨hf, Any.execFltVow_next h⟩)))
  · exact .inr (.inr (.inr (.inr (.inl ⟨hf, _, (Host.Outcome.next.inj h).symm⟩))))
  · exact .inr (.inr (.inr (.inr (.inr ⟨hf, _, (Host.Outcome.next.inj h).symm⟩))))

omit [Arith S] [DecidableLT S] [DecidableLE S] [DecidableEq S] in
/-- A MODE code that decodes is the code of a filter operation. -/
theorem decodeMode_of_decode {f : BitVec 3} {i : Instr S} (h : decode (.mode f) = .ok i) : decodeMode f = some i := by
  unfold decode at h
  cases hd : decodeMode (S := S) f with
  | none => simp [hd] at h
  | some j => simpa [hd] using h

/-- Settles O38: the state after each operation is the one before with another wet sample and another register file of one unit. -/
theorem oneFilterUnitPerStep : Obligations.OneFilterUnitPerStep := by
  intro s m i t hd h
  rw [exec_eq] at h
  rcases Any.exec_filter_next (decodeMode_of_decode hd) h with
    ⟨rfl, wet, bq, rfl⟩ | ⟨rfl, wet, svf, rfl⟩ | ⟨rfl, wet, rfl⟩ | ⟨rfl, wet, fmt, rfl⟩ | ⟨rfl, y, rfl⟩ | ⟨rfl, wet, rfl⟩ <;>
    simp [Any.State.passWet]

end Sys2Proof.Machine
end

