-- ==== Sys2Proof/Proofs/SampleRate.lean ====
section
/-! PROOF. What holds of every operation holds of a whole sample step; SR and CAP over a step (10_state.md R21).
-/

namespace Sys2Proof.Machine

open Sys2Proof

variable {S : Type} [Arith S] [DecidableLT S] [DecidableLE S] [DecidableEq S] {H : Hardware S}

/-- What every operation of a block keeps, any number of them keeps. -/
theorem Any.runSlots_keeps {P : Any.State S → Prop}
    (hop : ∀ s t : Any.State S, P s → runOperation (Any.exec H) s = .next t → P t) {k : Nat} {s t : Any.State S}
    (h : runSlots (Any.exec H) k s = .next t) (hs : P s) : P t := by
  induction k generalizing s with
  | zero => exact Host.Outcome.next.inj h ▸ hs
  | succ k ih =>
    obtain ⟨u, hu, hrest⟩ := Any.andThen_eq_next h
    exact ih hrest (hop s u hs hu)

/-- A step of a running block keeps SR and CAP. -/
theorem Any.step_running_sampleRate {s t : Any.State S} (hr : s.blk.running = true) (h : Any.step H s = .next t) :
    t.sr = s.sr ∧ t.cap = s.cap := by
  obtain ⟨x, u, -, hu, rfl⟩ := Any.step_running hr h
  rw [u.endSample_sr, u.endSample_cap]
  refine Any.runSlots_keeps (P := fun v => v.sr = s.sr ∧ v.cap = s.cap) ?_ hu ⟨rfl, rfl⟩
  intro v w ⟨hsr, hcap⟩ hop
  obtain ⟨sr, cap, -⟩ := Any.runOperation_frame hop
  exact ⟨sr.trans hsr, cap.trans hcap⟩

omit [DecidableLT S] [DecidableLE S] [DecidableEq S] in
@[simp] theorem Any.State.startBlock_sr (s : Any.State S) (l : Latches S) (count : Nat) : (s.startBlock l count).sr = s.sr := by
  unfold Any.State.startBlock
  split <;> rfl

omit [DecidableLT S] [DecidableLE S] [DecidableEq S] in
@[simp] theorem Any.State.startBlock_cap (s : Any.State S) (l : Latches S) (count : Nat) : (s.startBlock l count).cap = s.cap := by
  unfold Any.State.startBlock
  split <;> rfl

/-- A lifecycle command keeps SR and CAP where LIFE is Absent neither before nor after it. -/
theorem Any.exec_command_sampleRate {c : BitVec 3} {operands : List (Operand S)} {i : Instr S} {s t : Any.State S}
    (hd : decodeCmd c operands = .ok i) (h : Any.exec H i s = .next t) (hs : s.life ≠ .absent) (ht : t.life ≠ .absent) :
    t.sr = s.sr ∧ t.cap = s.cap := by
  rcases decodeCmd_cases hd with
    ⟨-, sr, rfl⟩ | ⟨-, port, source, rfl⟩ | ⟨-, rfl⟩ | ⟨-, count, rfl⟩ | ⟨-, rfl⟩ | ⟨-, rfl⟩
  · obtain ⟨ha, -⟩ := Any.execCreate_next h
    exact absurd (List.mem_singleton.mp ((s.admits_iff _).mp ha).2) hs
  · obtain ⟨-, rfl⟩ := Any.execBind_next h
    exact ⟨rfl, rfl⟩
  · obtain ⟨-, rfl⟩ := Any.execActivate_next h
    exact ⟨rfl, rfl⟩
  · obtain ⟨-, rfl⟩ | ⟨l, -, rfl⟩ := Any.execProcess_next h
    · exact ⟨rfl, rfl⟩
    · exact ⟨s.startBlock_sr l count, s.startBlock_cap l count⟩
  · obtain ⟨-, rfl⟩ := Any.execDeactivate_next h
    exact ⟨rfl, rfl⟩
  · obtain ⟨-, rfl⟩ := Any.execDestroy_next h
    exact absurd (s.destroyed_life H) ht

/-- Settles O42: CREATE is admitted in Absent alone, DESTROY ends in Absent, and nothing else writes SR or CAP. -/
theorem sampleRateImmutable : Obligations.SampleRateImmutable := by
  intro s t hs ht h
  rw [step_eq] at h
  cases hr : s.blk.running with
  | true => exact Any.step_running_sampleRate hr h
  | false =>
    rcases Any.step_idle_cases hr h with
      ⟨-, rfl⟩ | ⟨c, operands, rest, i, -, hd, hexec⟩ | ⟨a, v, rest, -, rfl⟩ | ⟨answers, rest, -, rfl⟩ | ⟨answers, rest, -, rfl⟩
    · exact ⟨rfl, rfl⟩
    · exact Any.exec_command_sampleRate (s := { s with queue := rest }) hd hexec hs ht
    · exact ⟨rfl, rfl⟩
    · exact ⟨rfl, rfl⟩
    · exact ⟨rfl, rfl⟩

end Sys2Proof.Machine
end

