-- ==== Sys2Proof/Proofs/Soundness.lean ====
section
/-! PROOF. The part of the invariant that rests on no law of the number system (Safety.lean, `Sound`): the lifecycle commands and the
host's other moves keep it, and a sample step does, through what holds between two of its operations (`MidSample`).
-/

namespace Sys2Proof.Machine

open Sys2Proof

variable {S : Type}

/-- A command that is not admitted in Absent finds another LIFE. -/
theorem Any.State.life_ne_absent {s : Any.State S} {lives : List Life} (h : s.admits lives = true) (hl : .absent ∉ lives) :
    s.life ≠ .absent := fun e => hl (e ▸ ((s.admits_iff lives).mp h).2)

variable [Arith S]

/-! ### Buffers and host memory -/

/-- CAP is a power of two (00_scope.md R6). -/
theorem cap_pos (H : Hardware S) : 0 < H.cap := by
  obtain ⟨k, -, hcap⟩ := H.cap_pow
  exact hcap ▸ Nat.two_pow_pos k

section
variable [DecidableEq S]

/-- The empty comb buffer is legal. -/
theorem CombRegs.legal_zero {cap : Nat} (h : 0 < cap) : (CombRegs.zero : CombRegs S).legal cap := ⟨h, Memory.wf_nil _, nofun⟩

/-- The store and the advance of FLT.COMB keep the buffer legal (10_state.md R29). -/
theorem CombRegs.legal_combNext {cap : Nat} {c : CombRegs S} (h : c.legal cap) (y : S) : (combNext cap y c).legal cap := by
  obtain ⟨hw, hwf, hslots⟩ := h
  refine ⟨Nat.mod_lt _ (Nat.zero_lt_of_lt hw), Memory.wf_write _ _ _ _ hwf, fun cell hcell => ?_⟩
  rcases Memory.mem_write _ _ _ _ cell hcell with rfl | hcell
  · exact hw
  · exact hslots cell hcell

theorem Any.State.wf_writeOut (s : Any.State S) (left right : Source) (n : Nat) (out : S) (h : Memory.wf hostUnlisted s.host = true) :
    Memory.wf hostUnlisted (s.writeOut left right n out).host = true :=
  Any.State.wf_hostWrite _ _ _ (s.wf_hostWrite _ _ h)

end

/-! ### Outside a block -/

/-- That no register holds anything, register by register. -/
theorem Any.State.zeroRegs_eq_iff (s : Any.State S) : s.zeroRegs = s ↔ s.zeroRegs.sameRegisters s := by
  cases s
  simp [Any.State.zeroRegs, Any.State.sameRegisters, eq_comm]

theorem Any.State.nothingHeld_of_same {s t : Any.State S} (h : s.nothingHeld) (hreg : s.sameRegisters t) (hports : t.ports = s.ports)
    (hsr : t.sr = s.sr) : t.nothingHeld := by
  obtain ⟨hzero, hnone, hsr0⟩ := h
  obtain ⟨lfo, bq, svf, lad, fmt, comb, ring⟩ := hreg
  obtain ⟨lfo0, bq0, svf0, lad0, fmt0, comb0, ring0⟩ := s.zeroRegs_eq_iff.mp hzero
  exact ⟨t.zeroRegs_eq_iff.mpr ⟨lfo.trans lfo0, bq.trans bq0, svf.trans svf0, lad.trans lad0, fmt.trans fmt0, comb.trans comb0,
    ring.trans ring0⟩, hports.trans hnone, hsr.trans hsr0⟩

variable [DecidableEq S] {H : Hardware S}

/-- With no block running, the invariant asks nothing of the block. -/
theorem Any.State.sound_of_idle {t : Any.State S} (hblk : t.blk = .idle) (capacity : t.cap = H.cap)
    (sampleRate : t.life ≠ .absent → leastSampleRate ≤ t.sr) (absent : t.life = .absent → t.nothingHeld)
    (comb : t.comb.legal t.cap) (host : Memory.wf hostUnlisted t.host = true) : t.Sound H :=
  { capacity, sampleRate, absent, comb, host
    idle := fun _ => hblk
    block := fun hr => by simp [hblk, Block.idle] at hr }

/-- Outside a block the invariant looks at SR, CAP, LIFE, the registers, the ports and the form of host memory alone. -/
theorem Any.State.Sound.of_same {s t : Any.State S} (hs : s.Sound H) (hblk : t.blk = .idle) (hreg : s.sameRegisters t)
    (hsr : t.sr = s.sr) (hcap : t.cap = s.cap) (hlife : t.life = s.life) (hports : t.ports = s.ports)
    (hhost : Memory.wf hostUnlisted t.host = true) : t.Sound H := by
  obtain ⟨-, -, -, -, -, comb, -⟩ := id hreg
  refine Any.State.sound_of_idle hblk (hcap.trans hs.capacity) ?_ ?_ ?_ hhost
  · rw [hlife, hsr]
    exact hs.sampleRate
  · rw [hlife]
    exact fun h => Any.State.nothingHeld_of_same (hs.absent h) hreg hports hsr
  · rw [comb, hcap]
    exact hs.comb

/-- Before the first command (10_state.md R40). -/
theorem Any.State.sound_reset (H : Hardware S) (unit : Nat) : (Any.State.reset H.cap unit : Any.State S).Sound H :=
  Any.State.sound_of_idle rfl rfl (fun h => absurd rfl h) (fun _ => ⟨rfl, rfl, rfl⟩) (CombRegs.legal_zero (cap_pos H)) (Memory.wf_nil _)

section
variable [DecidableLT S] [DecidableLE S]

/-- An admitted PROCESS starts a block that its checks leave legal (45_lifecycle_commands.md R188). -/
theorem Any.State.Sound.startBlock {s : Any.State S} {l : Latches S} {count : Nat} (hs : s.Sound H)
    (h : s.admission H.num count = .ok l) : (s.startBlock l count).Sound H := by
  obtain ⟨hr, hlife, bound, streams, -, hinputs, hselectors, hrate⟩ := Any.State.admission_ok h
  rcases Nat.eq_zero_or_pos count with rfl | hpos
  · rw [Any.State.startBlock_zero]
    exact hs.of_same rfl s.sameRegisters_refl rfl rfl rfl rfl hs.host
  · rw [Any.State.startBlock_of_pos _ _ hpos]
    exact
      { hs with
        absent := (absurd · (by simp [hlife]))
        idle := nofun
        block := fun _ =>
          { active := hlife
            index := hpos
            slot := rfl
            wires := rfl
            selectors := l.firstReserved_eq_none.mp hselectors
            rate := (rateAdmitted_iff _ _).mp hrate
            bound := bound
            streams := streams
            inputs := fun k _ hk => Any.State.inputsFinite_read (s := s) hinputs hk } }

/-- A lifecycle command keeps the invariant. -/
theorem Any.exec_command_sound {c : BitVec 3} {operands : List (Operand S)} {i : Instr S} {s t : Any.State S} (hs : s.Sound H)
    (hr : s.blk.running = false) (hd : decodeCmd c operands = .ok i) (h : Any.exec H i s = .next t) : t.Sound H := by
  have hblk := hs.idle hr
  rcases decodeCmd_cases hd with
    ⟨-, sr, rfl⟩ | ⟨-, port, source, rfl⟩ | ⟨-, rfl⟩ | ⟨-, count, rfl⟩ | ⟨-, rfl⟩ | ⟨-, rfl⟩
  · obtain ⟨-, x, -, hx, ⟨-, rfl⟩ | ⟨-, rfl⟩⟩ := Any.execCreate_next h
    · exact hs.of_same hblk s.sameRegisters_refl rfl rfl rfl rfl hs.host
    · exact Any.State.sound_of_idle rfl rfl (fun _ => hx) nofun (CombRegs.legal_zero (cap_pos H)) hs.host
  · obtain ⟨ha, rfl⟩ := Any.execBind_next h
    have hlive := Any.State.life_ne_absent ha (by decide)
    exact Any.State.sound_of_idle hblk hs.capacity hs.sampleRate (absurd · hlive) hs.comb hs.host
  · obtain ⟨ha, rfl⟩ := Any.execActivate_next h
    have hlive := Any.State.life_ne_absent ha (by decide)
    exact Any.State.sound_of_idle hblk hs.capacity (fun _ => hs.sampleRate hlive) nofun
      (CombRegs.legal_zero (hs.capacity ▸ cap_pos H)) hs.host
  · obtain ⟨-, rfl⟩ | ⟨l, hl, rfl⟩ := Any.execProcess_next h
    · exact hs.of_same hblk s.sameRegisters_refl rfl rfl rfl rfl hs.host
    · exact hs.startBlock hl
  · obtain ⟨ha, rfl⟩ := Any.execDeactivate_next h
    have hlive := Any.State.life_ne_absent ha (by decide)
    exact Any.State.sound_of_idle hblk hs.capacity (fun _ => hs.sampleRate hlive) nofun hs.comb hs.host
  · obtain ⟨-, rfl⟩ := Any.execDestroy_next h
    exact Any.State.sound_of_idle rfl rfl (fun hne => absurd rfl hne) (fun _ => ⟨rfl, rfl, rfl⟩)
      (CombRegs.legal_zero (cap_pos H)) hs.host

/-- A move of the host keeps the invariant. -/
theorem Any.step_idle_sound {s t : Any.State S} (hs : s.Sound H) (hr : s.blk.running = false) (h : Any.step H s = .next t) :
    t.Sound H := by
  have hblk := hs.idle hr
  rcases Any.step_idle_cases hr h with
    ⟨-, rfl⟩ | ⟨c, operands, rest, i, -, hd, hexec⟩ | ⟨a, v, rest, -, rfl⟩ | ⟨answers, rest, -, rfl⟩ | ⟨answers, rest, -, rfl⟩
  · exact hs
  · have hpopped : Any.State.Sound H { s with queue := rest } :=
      hs.of_same hblk s.sameRegisters_refl rfl rfl rfl rfl hs.host
    exact Any.exec_command_sound hpopped hr hd hexec
  · exact hs.of_same hblk s.sameRegisters_refl rfl rfl rfl rfl (Memory.wf_write _ _ _ _ hs.host)
  · exact hs.of_same hblk s.sameRegisters_refl rfl rfl rfl rfl hs.host
  · exact hs.of_same hblk s.sameRegisters_refl rfl rfl rfl rfl hs.host

end

/-! ### Between two operations of a sample step -/

/-- What holds between two operations of a sample step. The sample in hand has been read and may be overwritten, so that only the samples
after it are still asked to be finite; slot and wires are left open. -/
structure Any.State.MidSample (H : Hardware S) (s : Any.State S) : Prop where
  capacity : s.cap = H.cap
  sampleRate : leastSampleRate ≤ s.sr
  comb : s.comb.legal s.cap
  host : Memory.wf hostUnlisted s.host = true
  active : s.life = .active
  running : s.blk.running = true
  index : s.blk.n < s.blk.len
  selectors : s.blk.latches.legal
  rate : 0 ≤ s.blk.latches.rate ∧ s.blk.latches.rate < s.sr
  bound : ∀ port : Port, s.ports.bound port = true
  streams : s.ports.streamsOk s.blk.len = true
  inputs : ∀ k : Nat, s.blk.n < k → k < s.blk.len → ∃ x : S, s.readIn H.num k = .ok x

/-- A running block begins a sample step with some wires, in some slot. -/
theorem Any.State.Sound.midSample {s : Any.State S} (hs : s.Sound H) (hr : s.blk.running = true) (wires : Wires S) (slot : Slot) :
    (s.pass wires slot).MidSample H :=
  have hb := hs.block hr
  { hs, hb with
    sampleRate := hs.sampleRate (by simp [hb.active])
    running := hr
    inputs := fun k hk => hb.inputs k hk.le }

/-- The end of a sample step leaves the block at its next sample, or no block. -/
theorem Any.State.MidSample.endSample {s : Any.State S} (h : s.MidSample H) : s.endSample.Sound H := by
  have hlive : s.life ≠ .absent := by simp [h.active]
  rcases Nat.lt_or_ge (s.blk.n + 1) s.blk.len with hlt | hge
  · rw [Any.State.endSample_of_lt hlt]
    exact
      { h with
        sampleRate := fun _ => h.sampleRate
        absent := (absurd · hlive)
        idle := fun hidle => absurd h.running (Bool.eq_false_iff.mp hidle)
        block := fun _ => { h with index := hlt, slot := rfl, wires := rfl } }
  · rw [Any.State.endSample_of_ge hge]
    exact Any.State.sound_of_idle rfl h.capacity (fun _ => h.sampleRate) (absurd · hlive) h.comb h.host

variable [DecidableLT S] [DecidableLE S]

/-- The comb buffer after an operation: as it was, or after the store and the advance of FLT.COMB. -/
theorem Any.runOperation_comb {s t : Any.State S} (h : runOperation (Any.exec H) s = .next t) :
    t.comb = s.comb ∨ ∃ y, t.comb = combNext s.cap y s.comb := by
  rcases Any.runOperation_cases h with ⟨-, f, raw, -, -, rfl⟩ | ⟨-, h⟩ | ⟨-, h⟩ | ⟨-, h⟩ | ⟨-, h⟩ | ⟨-, f, i, -, hd, h⟩ | ⟨-, h⟩
  · exact .inl rfl
  · cases h; exact .inl rfl
  · cases h; exact .inl rfl
  · cases h; exact .inl rfl
  · cases h; exact .inl rfl
  · rcases Any.exec_filter_next hd h with
      ⟨-, _, _, rfl⟩ | ⟨-, _, _, rfl⟩ | ⟨-, _, rfl⟩ | ⟨-, _, _, rfl⟩ | ⟨-, y, rfl⟩ | ⟨-, _, rfl⟩
    case inr.inr.inr.inr.inl => exact .inr ⟨y, rfl⟩
    all_goals exact .inl rfl
  · obtain ⟨left, right, -, -, rfl⟩ := Any.execMix_next h
    exact .inl rfl

/-- Host memory after an operation: as it was, or after the two stores of MIX. -/
theorem Any.runOperation_host {s t : Any.State S} (h : runOperation (Any.exec H) s = .next t) :
    t.host = s.host ∨ ∃ left right out, s.ports.aoutL = some left ∧ s.ports.aoutR = some right ∧
      t = s.writeOut left right s.blk.n out := by
  by_cases hslot : s.blk.slot = .mix
  · rw [runOperation_eq (c := .slot 6) (i := .mix) (by rw [Block.code, hslot]; rfl) rfl] at h
    obtain ⟨left, right, hl, hr, rfl⟩ := Any.execMix_next h
    exact .inr ⟨left, right, _, hl, hr, rfl⟩
  · obtain ⟨-, -, -, -, -, -, -, -, -, -, -, -, hhost⟩ := Any.runOperation_frame h
    exact .inl (hhost hslot).1

/-- An operation keeps host memory in canonical form, and of the samples of the block it can change the one in hand alone. -/
theorem Any.State.MidSample.memory_runOperation {s t : Any.State S} (hs : s.MidSample H) (h : runOperation (Any.exec H) s = .next t) :
    Memory.wf hostUnlisted t.host = true ∧
      ∀ k : Nat, s.blk.n < k → k < s.blk.len → t.readIn H.num k = s.readIn H.num k := by
  obtain ⟨-, -, -, ports, -⟩ := Any.runOperation_frame h
  rcases Any.runOperation_host h with hhost | ⟨left, right, out, hl, hr, rfl⟩
  · exact ⟨hhost ▸ hs.host, fun k _ _ => Any.State.readIn_congr ports hhost k⟩
  · exact ⟨s.wf_writeOut _ _ _ _ hs.host, fun k hk hlen =>
      Any.State.readIn_writeOut hs.streams hl hr rfl hs.index hlen hk.ne'⟩

/-- An operation keeps what holds between two of them. -/
theorem Any.runOperation_midSample {s t : Any.State S} (hs : s.MidSample H) (h : runOperation (Any.exec H) s = .next t) :
    t.MidSample H := by
  obtain ⟨sr, cap, life, ports, -, -, -, -, running, latches, n, len, -⟩ := Any.runOperation_frame h
  obtain ⟨host, inputs⟩ := hs.memory_runOperation h
  have comb : t.comb.legal s.cap := by
    rcases Any.runOperation_comb h with e | ⟨y, e⟩ <;> rw [e]
    · exact hs.comb
    · exact CombRegs.legal_combNext hs.comb y
  constructor
  case comb => exact cap ▸ comb
  case host => exact host
  case inputs =>
    rw [n, len]
    intro k hk hlen
    rw [inputs k hk hlen]
    exact hs.inputs k hk hlen
  all_goals simp only [sr, cap, life, ports, running, latches, n, len]
  exacts [hs.capacity, hs.sampleRate, hs.active, hs.running, hs.index, hs.selectors, hs.rate, hs.bound, hs.streams]

/-- A step of a running block keeps the invariant. -/
theorem Any.step_running_sound {s t : Any.State S} (hs : s.Sound H) (hr : s.blk.running = true) (h : Any.step H s = .next t) :
    t.Sound H := by
  obtain ⟨x, u, -, hu, rfl⟩ := Any.step_running hr h
  have hmid : u.MidSample H := Any.runSlots_keeps (fun _ _ => Any.runOperation_midSample) hu (hs.midSample hr _ _)
  exact hmid.endSample

/-- A step keeps the part of the invariant that holds on every number system. -/
theorem Any.step_sound {s t : Any.State S} (hs : s.Sound H) (h : Any.step H s = .next t) : t.Sound H := by
  cases hr : s.blk.running with
  | true => exact Any.step_running_sound hs hr h
  | false => exact Any.step_idle_sound hs hr h

end Sys2Proof.Machine
end

