-- ==== Sys2Proof/Proofs/Invariant.lean ====
section
/-! PROOF. The part of the invariant that rests on the exact reals (Safety.lean, `InRange`), through what holds between two operations of
a sample step (`MidRange`); then the whole invariant, before the first command and over every step.
-/

namespace Sys2Proof.Machine

open Sys2Proof

/-! ### The registers, one by one -/

/-- A frequency in [0, SR) is an increment in [0, 2π) (40_lfo_modulation.md R109). -/
theorem phaseInc_mem {f sr : ℝ} (h0 : 0 ≤ f) (h1 : f < sr) :
    0 ≤ phaseInc Reference.num f sr ∧ phaseInc Reference.num f sr < 2 * Real.pi := by
  have hsr : 0 < sr := h0.trans_lt h1
  have hpi := Real.two_pi_pos
  rw [phaseInc_eq, div_lt_iff₀ hsr]
  exact ⟨by positivity, mul_lt_mul_of_pos_left h1 hpi⟩

/-- An answer of the random source, fixed or free, is in [0, 1) (40_lfo_modulation.md R108). -/
theorem RandomSource.answer_mem (H : Hardware ℝ) (unit : Nat) (r : RandomSource ℝ) : 0 ≤ r.answer H unit ∧ r.answer H unit < 1 := by
  have hfree := And.intro (H.draw_nonneg unit r.taken) (H.draw_lt_one unit r.taken)
  unfold RandomSource.answer
  split
  · exact hfree
  · split
    · next hd => exact (drawable_iff _).mp hd
    · exact hfree

/-- Slot 1 keeps LFO_PHASE and LFO_SH in range. -/
theorem LfoRegs.legal_lfoAdvance {l : Latches ℝ} {sr draw : ℝ} {g : LfoRegs ℝ} (hg : g.legal) (hrate : 0 ≤ l.rate ∧ l.rate < sr)
    (hdraw : 0 ≤ draw ∧ draw < 1) : (lfoAdvance Reference.num l sr draw g).legal := by
  obtain ⟨p0, p1, s0, s1⟩ := hg
  obtain ⟨i0, i1⟩ := phaseInc_mem hrate.1 hrate.2
  obtain ⟨q0, q1⟩ := advancePhase_mem p0 p1 i0 i1
  refine ⟨q0, q1, ?_⟩
  unfold lfoAdvance
  dsimp only
  split
  · exact hdraw
  · exact ⟨s0, s1⟩

/-- Slot 2 keeps them: it writes neither. -/
theorem LfoRegs.legal_stepQuantize {H : Hardware ℝ} {l : Latches ℝ} {sr raw : ℝ} {g : LfoRegs ℝ} (hg : g.legal) :
    (stepQuantize H l sr raw g).legal := by
  unfold stepQuantize
  repeat' split
  all_goals exact hg

/-- The stage coefficient is in [0, 1] (42_filters_bq_svf_ladder.md R137). -/
theorem ladCoeff_mem {sr fc : ℝ} (hsr : 0 < sr) (hfc : 0 ≤ fc) :
    0 ≤ ladCoeff Reference.num sr fc ∧ ladCoeff Reference.num sr fc ≤ 1 := by
  have hexponent : -(2 * Real.pi) * fc / sr ≤ 0 := by
    rw [neg_mul, neg_div]
    exact neg_nonpos.mpr (by positivity)
  have hle := Real.exp_le_one_iff.mpr hexponent
  have hpos := Real.exp_pos (-(2 * Real.pi) * fc / sr)
  simp only [ladCoeff, Reference.num_exp, Reference.num_twoPi]
  exact ⟨by linarith, by linarith⟩

/-- One stage moves from a value in [−1, 1] toward a tanh, at most all the way (42_filters_bq_svf_ladder.md R138). -/
theorem ladStage_mem {gl s : ℝ} (u : ℝ) (hgl : 0 ≤ gl ∧ gl ≤ 1) (hs : -1 ≤ s ∧ s ≤ 1) :
    -1 ≤ ladStage Reference.num gl s u ∧ ladStage Reference.num gl s u ≤ 1 := by
  have hlow := neg_one_lt_tanh u
  have hhigh := tanh_lt_one u
  have hconvex : ladStage Reference.num gl s u = (1 - gl) * s + gl * Real.tanh u := by
    simp only [ladStage, Reference.num_tanh]
    ring
  rw [hconvex]
  constructor <;> nlinarith

theorem ladCascade_mem {gl : ℝ} (hgl : 0 ≤ gl ∧ gl ≤ 1) {r : List ℝ} (hr : ∀ s ∈ r, -1 ≤ s ∧ s ≤ 1) (u : ℝ) :
    ∀ v ∈ ladCascade Reference.num gl u r, -1 ≤ v ∧ v ≤ 1 := by
  induction r generalizing u with
  | nil => exact nofun
  | cons s rest ih =>
    obtain ⟨hs, hrest⟩ := List.forall_mem_cons.mp hr
    exact List.forall_mem_cons.mpr ⟨ladStage_mem u hgl hs, ih hrest _⟩

/-- FLT.LAD keeps every ladder register in [−1, 1] (10_state.md R27). -/
theorem LadRegs.bounded_ladNext {gl : ℝ} {r : LadRegs ℝ} (hr : LadRegs.bounded r) (hgl : 0 ≤ gl ∧ gl ≤ 1) (k x : ℝ) :
    LadRegs.bounded (ladNext Reference.num gl k x r) := ladCascade_mem hgl hr _

/-! ### Commands -/

theorem Any.State.InRange.of_same {s t : Any.State ℝ} (hs : s.InRange) (h : s.sameRegisters t) : t.InRange := by
  obtain ⟨lfo, -, -, lad, -, -, ring⟩ := h
  exact ⟨lfo ▸ hs.lfo, lad ▸ hs.lad, ring ▸ hs.ring⟩

/-- Zeroed registers are in range. -/
theorem Any.State.inRange_zeroRegs (s : Any.State ℝ) : s.zeroRegs.InRange where
  lfo := ⟨le_rfl, Real.two_pi_pos, le_rfl, zero_lt_one⟩
  lad := by
    intro u hu
    obtain rfl : u = 0 := List.eq_of_mem_replicate hu
    norm_num
  ring := ⟨le_rfl, Real.two_pi_pos⟩

theorem Any.State.sameRegisters_endSample {S : Type} [Arith S] (s : Any.State S) : s.sameRegisters s.endSample :=
  ⟨s.endSample_lfo, s.endSample_bq, s.endSample_svf, s.endSample_lad, s.endSample_fmt, s.endSample_comb, s.endSample_ringPhase⟩

/-- A move of the host keeps the ranges: it keeps the registers, or zeroes them. -/
theorem Any.step_idle_inRange {H : Hardware ℝ} {s t : Any.State ℝ} (hs : s.InRange) (hr : s.blk.running = false)
    (h : Any.step H s = .next t) : t.InRange := by
  rcases Any.step_idle_cases hr h with
    ⟨-, rfl⟩ | ⟨c, operands, rest, i, -, hd, hexec⟩ | ⟨a, v, rest, -, rfl⟩ | ⟨answers, rest, -, rfl⟩ | ⟨answers, rest, -, rfl⟩
  · exact hs
  · rcases Any.exec_command_registers hd hexec with hsame | ⟨hzero, -⟩
    · exact hs.of_same hsame
    · exact s.inRange_zeroRegs.of_same hzero
  · exact hs.of_same s.sameRegisters_refl
  · exact hs.of_same s.sameRegisters_refl
  · exact hs.of_same s.sameRegisters_refl

/-! ### Between two operations of a sample step -/

/-- What holds of the numbers between two operations of a sample step: the ranges, the admitted rates, and, where the filter unit is next,
what slot 4 has left to it. -/
structure Any.State.MidRange (s : Any.State ℝ) : Prop where
  inRange : s.InRange
  sampleRate : 20 / (49 / 100) ≤ s.sr
  rate : 0 ≤ s.blk.latches.rate ∧ s.blk.latches.rate < s.sr
  conditioned : s.blk.slot = .flt → s.blk.wires.conditioned s.sr

variable {H : Hardware ℝ}

/-- The filter unit comes after slot 4, and after no other operation. -/
theorem Any.runOperation_to_flt {s t : Any.State ℝ} (h : runOperation (Any.exec H) s = .next t) (ht : t.blk.slot = .flt) :
    Any.execCond s = .next t := by
  rcases Any.runOperation_cases h with ⟨-, f, raw, -, -, rfl⟩ | ⟨-, h⟩ | ⟨-, h⟩ | ⟨-, h⟩ | ⟨-, h⟩ | ⟨-, f, i, -, hd, h⟩ | ⟨hs, h⟩
  · cases ht
  · cases h; cases ht
  · cases h; cases ht
  · cases h; cases ht
  · exact h
  · rcases Any.exec_filter_next hd h with
      ⟨-, _, _, rfl⟩ | ⟨-, _, _, rfl⟩ | ⟨-, _, rfl⟩ | ⟨-, _, _, rfl⟩ | ⟨-, _, rfl⟩ | ⟨-, _, rfl⟩ <;> cases ht
  · obtain ⟨left, right, -, -, rfl⟩ := Any.execMix_next h
    cases hs.symm.trans ht

/-- Slot 4 leaves conditioned wires (41_conditioner.md R121 to R123). -/
theorem Any.execCond_conditioned {s t : Any.State ℝ} (h : Any.execCond s = .next t) (hsr : 20 / (49 / 100) ≤ s.sr) :
    t.blk.wires.conditioned t.sr := by
  cases h
  obtain ⟨fc0, fc1⟩ := conditionCutoff_mem s.blk.latches s.blk.wires.modv hsr
  obtain ⟨q0, q1⟩ := conditionRes_mem s.blk.latches s.blk.wires.modv
  exact ⟨fc0, fc1, q0, q1, rfl⟩

/-- A filter operation on conditioned wires keeps the ranges. -/
theorem Any.exec_filter_inRange {f : BitVec 3} {i : Instr ℝ} {s t : Any.State ℝ} (hH : H.IsReference) (hs : s.InRange)
    (hw : s.blk.wires.conditioned s.sr) (hd : decodeMode f = some i) (h : Any.exec H i s = .next t) : t.InRange := by
  obtain ⟨fc0, fc1, -, -, -⟩ := hw
  have hfc : 0 ≤ s.blk.wires.fc := by linarith
  have hlt : s.blk.wires.fc < s.sr := by linarith
  rcases Any.exec_filter_next hd h with
    ⟨-, _, _, rfl⟩ | ⟨-, _, _, rfl⟩ | ⟨-, _, rfl⟩ | ⟨-, _, _, rfl⟩ | ⟨-, _, rfl⟩ | ⟨-, _, rfl⟩
  case inr.inr.inl =>
    rw [hH]
    exact ⟨hs.lfo, LadRegs.bounded_ladNext hs.lad (ladCoeff_mem (hfc.trans_lt hlt) hfc) _ _, hs.ring⟩
  case inr.inr.inr.inr.inr =>
    rw [hH]
    obtain ⟨i0, i1⟩ := phaseInc_mem hfc hlt
    exact ⟨hs.lfo, hs.lad, advancePhase_mem hs.ring.1 hs.ring.2 i0 i1⟩
  all_goals exact ⟨hs.lfo, hs.lad, hs.ring⟩

/-- An operation keeps the ranges: slot 1 those of the LFO, the filter unit those of its own registers; no other operation writes one of
these registers. -/
theorem Any.State.MidRange.inRange_runOperation {s t : Any.State ℝ} (hH : H.IsReference) (hs : s.MidRange)
    (h : runOperation (Any.exec H) s = .next t) : t.InRange := by
  obtain ⟨hrange, -, hrate, hcond⟩ := hs
  obtain ⟨hlfo, hlad, hring⟩ := id hrange
  rcases Any.runOperation_cases h with
    ⟨-, f, raw, -, -, rfl⟩ | ⟨-, h⟩ | ⟨-, h⟩ | ⟨-, h⟩ | ⟨-, h⟩ | ⟨hslot, f, i, -, hd, h⟩ | ⟨-, h⟩
  · exact ⟨hlfo, hlad, hring⟩
  · cases h
    rw [hH]
    exact ⟨LfoRegs.legal_lfoAdvance hlfo hrate (s.rnd.answer_mem H s.unit), hlad, hring⟩
  · cases h
    exact ⟨LfoRegs.legal_stepQuantize hlfo, hlad, hring⟩
  · cases h
    exact ⟨hlfo, hlad, hring⟩
  · cases h
    exact ⟨hlfo, hlad, hring⟩
  · exact Any.exec_filter_inRange hH hrange (hcond hslot) hd h
  · obtain ⟨left, right, -, -, rfl⟩ := Any.execMix_next h
    exact ⟨hlfo, hlad, hring⟩

/-- An operation keeps what holds of the numbers between two of them. -/
theorem Any.runOperation_midRange {s t : Any.State ℝ} (hH : H.IsReference) (hs : s.MidRange)
    (h : runOperation (Any.exec H) s = .next t) : t.MidRange := by
  obtain ⟨sr, -, -, -, -, -, -, -, -, latches, -⟩ := Any.runOperation_frame h
  refine ⟨hs.inRange_runOperation hH h, ?_, ?_, ?_⟩
  · rw [sr]
    exact hs.sampleRate
  · rw [sr, latches]
    exact hs.rate
  · exact fun ht => Any.execCond_conditioned (Any.runOperation_to_flt h ht) hs.sampleRate

/-- A step of a running block keeps the ranges. -/
theorem Any.step_running_inRange {s t : Any.State ℝ} (hH : H.IsReference) (hs : s.Inv H) (hr : s.blk.running = true)
    (h : Any.step H s = .next t) : t.InRange := by
  obtain ⟨hsound, hrange⟩ := hs
  have hb := hsound.block hr
  obtain ⟨x, u, -, hu, rfl⟩ := Any.step_running hr h
  rw [hb.slot] at hu
  have hsr : 20 / (49 / 100) ≤ s.sr := leastSampleRate_eq ▸ hsound.sampleRate (by simp [hb.active])
  have hmid : u.MidRange :=
    Any.runSlots_keeps (fun _ _ => Any.runOperation_midRange hH) hu
      ⟨hrange.of_same s.sameRegisters_refl, hsr, hb.rate, nofun⟩
  exact hmid.inRange.of_same u.sameRegisters_endSample

/-! ### The invariant -/

/-- A step keeps the whole invariant. -/
theorem Any.step_inv {s t : Any.State ℝ} (hH : H.IsReference) (hs : s.Inv H) (h : Any.step H s = .next t) : t.Inv H := by
  refine ⟨Any.step_sound hs.1 h, ?_⟩
  cases hr : s.blk.running with
  | true => exact Any.step_running_inRange hH hs hr h
  | false => exact Any.step_idle_inRange hs.2 hr h

/-- Settles O59: the commands zero the registers or keep them, and every operation of a sample step keeps what its block was admitted
with, so that the block stands in the invariant again at the end of the sample. -/
theorem everyStepKeepsTheInvariant : Obligations.EveryStepKeepsTheInvariant := by
  refine ⟨fun s t hs h => ?_, fun S _ _ _ _ H s t => Any.step_sound, fun H s t => Any.step_inv⟩
  rw [step_eq] at h
  exact Any.step_sound hs h

/-- Settles O58: LIFE is Absent, every register is 0, and no block runs. -/
theorem invariantAtReset : Obligations.InvariantAtReset :=
  ⟨Any.State.sound_reset Config.hardware 0, Any.State.sound_reset Config.hardware, fun H unit _ =>
    ⟨Any.State.sound_reset H unit, (Any.State.reset H.cap unit).inRange_zeroRegs⟩⟩

end Sys2Proof.Machine
end

