-- ==== Sys2Proof/Proofs/Streams.lean ====
section
/-! PROOF. What a block leaves in host memory (20_memory.md R53): its run of sample steps cell by cell, where no later step reaches the
two cells of an earlier one, because the outputs are apart or the same region (R65).
-/

namespace Sys2Proof.Machine

open Sys2Proof

/-- Two streams that are apart or the same region share no cell at two different indices (20_memory.md R65). -/
theorem compatibleSources_apart {a b : Source} {i j : Nat} (h : compatibleSources a b = true) (hi : i < a.len) (hj : j < b.len)
    (hne : i ≠ j) : a.base + i ≠ b.base + j := by
  intro he
  rcases Bool.or_eq_true_iff.mp h with hdisjoint | hsame
  · exact (disjointSources_iff a b).mp hdisjoint (a.base + i) ⟨by omega, by omega⟩
  · obtain rfl : a = b := by simpa using hsame
    omega

/-- Check 4 of PROCESS, for the two outputs (45_lifecycle_commands.md R188). -/
theorem Ports.streamsOk_outputs {p : Ports} {count : Nat} {left right : Source} (h : p.streamsOk count = true)
    (hl : p.aoutL = some left) (hr : p.aoutR = some right) :
    count ≤ left.len ∧ count ≤ right.len ∧ compatibleSources left right = true := by
  unfold Ports.streamsOk at h
  rw [hl, hr] at h
  split at h
  · next hl' hr' =>
    cases hl'
    cases hr'
    simp only [Bool.and_eq_true, decide_eq_true_eq] at h
    obtain ⟨⟨⟨⟨⟨-, hleft⟩, hright⟩, -⟩, -⟩, hcompatible⟩ := h
    exact ⟨hleft, hright, hcompatible⟩
  · cases h

variable {S : Type} [Arith S] [DecidableLT S] [DecidableLE S] [DecidableEq S]
variable {H : Hardware S} {l : Latches S} {left right : Source} {s t : Any.State S}

/-- Host memory after a sample step: the two cells at its index hold one sample, every other cell what it held. -/
theorem sampleStep_hostRead {n : Nat} {x : S} (hl : s.ports.aoutL = some left) (hr : s.ports.aoutR = some right)
    (h : sampleStep H l n x s = some t) :
    ∃ out : S, ∀ a : Nat, t.hostRead a = if a = left.base + n ∨ a = right.base + n then .value out else s.hostRead a := by
  obtain ⟨left', right', out, u, hl', hr', rfl, -, -, -, -, -, host, -⟩ := sampleStep_frame h
  obtain rfl : left = left' := Option.some.inj (hl.symm.trans hl')
  obtain rfl : right = right' := Option.some.inj (hr.symm.trans hr')
  exact ⟨out, fun a => by rw [Any.State.hostRead_writeOut, Any.State.hostRead_congr host]⟩

/-- A sample step keeps the bindings. -/
theorem sampleStep_ports {n : Nat} {x : S} (h : sampleStep H l n x s = some t) : t.ports = s.ports := by
  obtain ⟨_, _, _, u, -, -, rfl, -, -, -, ports, -⟩ := sampleStep_frame h
  exact ports

/-- A run of sample steps leaves every cell as it was that is no cell of an output at one of its indices. -/
theorem runSamples_hostRead_other {n k cell : Nat} (hl : s.ports.aoutL = some left) (hr : s.ports.aoutR = some right)
    (h : runSamples H l n k s = some t)
    (hcell : ∀ i : Nat, n ≤ i → i < n + k → cell ≠ left.base + i ∧ cell ≠ right.base + i) : t.hostRead cell = s.hostRead cell := by
  induction k generalizing n s with
  | zero =>
    cases h
    rfl
  | succ k ih =>
    obtain ⟨x, u, -, hu, hrun⟩ := runSamples_succ h
    have ports := sampleStep_ports hu
    obtain ⟨out, hread⟩ := sampleStep_hostRead hl hr hu
    have later : t.hostRead cell = u.hostRead cell :=
      ih (ports ▸ hl) (ports ▸ hr) hrun fun i hi hlt => hcell i (by omega) (by omega)
    rw [later, hread, if_neg (not_or.mpr (hcell n le_rfl (by omega)))]

/-- A run of sample steps that check 4 admits leaves one sample in both outputs at each of its indices. -/
theorem runSamples_hostRead_outputs {n k count : Nat} (hl : s.ports.aoutL = some left) (hr : s.ports.aoutR = some right)
    (hs : s.ports.streamsOk count = true) (h : runSamples H l n k s = some t) (hk : n + k ≤ count) {i : Nat} (hi : n ≤ i)
    (hlt : i < n + k) : ∃ out : S, t.hostRead (left.base + i) = .value out ∧ t.hostRead (right.base + i) = .value out := by
  induction k generalizing n s with
  | zero => omega
  | succ k ih =>
    obtain ⟨x, u, -, hu, hrun⟩ := runSamples_succ h
    have ports := sampleStep_ports hu
    rw [← ports] at hs
    have hl' : u.ports.aoutL = some left := ports ▸ hl
    have hr' : u.ports.aoutR = some right := ports ▸ hr
    rcases Nat.eq_or_lt_of_le hi with rfl | hgt
    · obtain ⟨out, hread⟩ := sampleStep_hostRead hl hr hu
      obtain ⟨hleft, hright, hcompatible⟩ := Ports.streamsOk_outputs hs hl' hr'
      refine ⟨out, ?_, ?_⟩
      · rw [runSamples_hostRead_other hl' hr' hrun, hread, if_pos (.inl rfl)]
        exact fun j hj hjlt => ⟨by omega, compatibleSources_apart hcompatible (by omega) (by omega) (by omega)⟩
      · rw [runSamples_hostRead_other hl' hr' hrun, hread, if_pos (.inr rfl)]
        exact fun j hj hjlt => ⟨(compatibleSources_apart hcompatible (by omega) (by omega) (by omega)).symm, by omega⟩
    · exact ih hl' hr' hs hrun (by omega) hgt (by omega)

/-- Settles O57: each sample step writes one sample to the two cells at its index, and no later step of the block reaches them. -/
theorem blockFillsBothOutputs : Obligations.BlockFillsBothOutputs := by
  intro S _ _ _ _ H s t l count left right hl hr hs h
  constructor
  · exact fun k hk => runSamples_hostRead_outputs hl hr hs h (by omega) k.zero_le (by omega)
  · exact fun cell hcell => runSamples_hostRead_other hl hr h fun i _ hi => hcell i (by omega)

end Sys2Proof.Machine
end

