-- ==== Sys2Proof/Proofs/Encoding.lean ====
section
/-! PROOF. The decoder and the encoder agree (30_encoding.md R70 to R79): what each operand list of a command spells, and from it that a
code has one meaning.
-/

namespace Sys2Proof

variable {S : Type} {c : BitVec 3} {operands : List (Operand S)} {i : Instr S}

/-! ### What the operands of a command spell (30_encoding.md R71) -/

/-- CREATE takes one scalar. -/
theorem decodeCreate_ok (h : decodeCreate c operands = .ok i) : ∃ sr, operands = [.scalar sr] ∧ i = .create sr := by
  unfold decodeCreate at h
  split at h
  · next sr =>
    cases h
    exact ⟨sr, rfl, rfl⟩
  · cases h

/-- PROCESS takes one count. -/
theorem decodeProcess_ok (h : decodeProcess c operands = .ok i) : ∃ count, operands = [.natural count] ∧ i = .process count := by
  unfold decodeProcess at h
  split at h
  · next count =>
    cases h
    exact ⟨count, rfl, rfl⟩
  · cases h

/-- A command without operands takes none. -/
theorem decodePlain_ok {j : Instr S} (h : decodePlain c j operands = .ok i) : operands = [] ∧ i = j := by
  cases operands with
  | nil =>
    cases h
    exact ⟨rfl, rfl⟩
  | cons operand rest => cases h

/-- BIND takes the number of a port and a source of the port's kind. -/
theorem decodeBind_ok (h : decodeBind c operands = .ok i) :
    ∃ (port : Port) (source : Source), source.fits port = true ∧
      operands = [.port (portNumber port), encodeSource port source] ∧ i = .bind port source := by
  unfold decodeBind at h
  split at h
  · next p a =>
    cases hp : decodePort p with
    | none => simp [hp] at h
    | some port =>
      cases hkind : port.isAudio with
      | true => simp [hp, hkind] at h
      | false =>
        refine ⟨port, ⟨a, 1⟩, by simp [Source.fits], ?_, by simpa [hp, hkind] using h.symm⟩
        simp [encodeSource, hkind, portNumber_of_decodePort hp]
  · next p base len =>
    cases hp : decodePort p with
    | none => simp [hp] at h
    | some port =>
      cases hkind : port.isAudio with
      | true =>
        refine ⟨port, ⟨base, len⟩, by simp [Source.fits, hkind], ?_, by simpa [hp, hkind] using h.symm⟩
        simp [encodeSource, hkind, portNumber_of_decodePort hp]
      | false => simp [hp, hkind] at h
  · cases h

/-! ### A code has one meaning -/

/-- A command that decodes is the code of what it spells. -/
theorem encode_of_decodeCmd (h : decodeCmd c operands = .ok i) : encode i = .cmd c operands ∧ i.wf = true := by
  rcases field_cases c with rfl | rfl | rfl | rfl | rfl | rfl | rfl | rfl
  · obtain ⟨sr, rfl, rfl⟩ := decodeCreate_ok h
    exact ⟨rfl, rfl⟩
  · obtain ⟨port, source, hfits, rfl, rfl⟩ := decodeBind_ok h
    exact ⟨rfl, hfits⟩
  · obtain ⟨rfl, rfl⟩ := decodePlain_ok h
    exact ⟨rfl, rfl⟩
  · obtain ⟨count, rfl, rfl⟩ := decodeProcess_ok h
    exact ⟨rfl, rfl⟩
  · obtain ⟨rfl, rfl⟩ := decodePlain_ok h
    exact ⟨rfl, rfl⟩
  · obtain ⟨rfl, rfl⟩ := decodePlain_ok h
    exact ⟨rfl, rfl⟩
  · cases h
  · cases h

/-- A CMD code decodes as its command and operands do. -/
theorem decodeCmd_of_decode (h : decode (.cmd c operands) = .ok i) : decodeCmd c operands = .ok i := by
  unfold decode at h
  cases hd : decodeCmd c operands with
  | ok j => simpa [hd] using h
  | error e => simp [hd] at h

/-- A SHAPE code decodes as its field does. -/
theorem decodeShape_of_decode {f : BitVec 3} (h : decode (.shape f) = .ok i) : decodeShape f = some i := by
  unfold decode at h
  cases hd : decodeShape (S := S) f with
  | some j => simpa [hd] using h
  | none => simp [hd] at h

/-- A code that decodes is the code of what it spells, in each of the four formats. -/
theorem encode_of_decode {code : Code S} (h : decode code = .ok i) : encode i = code ∧ i.wf = true := by
  cases code with
  | cmd c operands => exact encode_of_decodeCmd (decodeCmd_of_decode h)
  | shape f => exact encode_of_decodeShape (decodeShape_of_decode h)
  | mode f => exact encode_of_decodeMode (Machine.decodeMode_of_decode h)
  | slot f => exact encode_of_decodeSlot h

/-! ### The obligations -/

/-- Settles O2: one round trip for each constructor, that of BIND by the kind of its port. -/
theorem decodeOfEncodeIsIdentity : Obligations.DecodeOfEncodeIsIdentity := by
  intro i
  cases i with
  | create sr => exact Laws.RoundTrip.create sr
  | bind port source => exact Laws.RoundTrip.bind port source
  | activate => exact Laws.RoundTrip.activate
  | process count => exact Laws.RoundTrip.process count
  | deactivate => exact Laws.RoundTrip.deactivate
  | destroy => exact Laws.RoundTrip.destroy
  | lfoSin => exact Laws.RoundTrip.lfoSin
  | lfoTri => exact Laws.RoundTrip.lfoTri
  | lfoRup => exact Laws.RoundTrip.lfoRup
  | lfoRdn => exact Laws.RoundTrip.lfoRdn
  | lfoSqr => exact Laws.RoundTrip.lfoSqr
  | lfoSnh => exact Laws.RoundTrip.lfoSnh
  | fltBq => exact Laws.RoundTrip.fltBq
  | fltSvf => exact Laws.RoundTrip.fltSvf
  | fltLad => exact Laws.RoundTrip.fltLad
  | fltVow => exact Laws.RoundTrip.fltVow
  | fltComb => exact Laws.RoundTrip.fltComb
  | fltRing => exact Laws.RoundTrip.fltRing
  | lfoAdv => exact Laws.RoundTrip.lfoAdv
  | stepq => exact Laws.RoundTrip.stepq
  | slew => exact Laws.RoundTrip.slew
  | cond => exact Laws.RoundTrip.cond
  | mix => exact Laws.RoundTrip.mix

/-- Settles O3: format by format, and for a command code by code. -/
theorem encodeOfDecodeIsIdentity : Obligations.EncodeOfDecodeIsIdentity := fun _ _ => encode_of_decode

/-- Settles O1: each code is a row of the tables, or a reserved one. -/
theorem wordsOfTheTablesDecode : Obligations.WordsOfTheTablesDecode := by
  unfold Obligations.WordsOfTheTablesDecode
  decide

end Sys2Proof
end

