-- ==== Sys2Proof/Proofs/Selectors.lean ====
section
/-! PROOF. The latches of a block (30_encoding.md R73, R74): each is the value of its own port, and a selector is that value rounded to
nearest with ties away from zero.
-/

namespace Sys2Proof.Machine

open Sys2Proof

/-! ### Each latch comes from its own port (10_state.md R31) -/

section
variable {S : Type}

/-- The scalar latches with their ports. -/
def Latches.scalars (l : Latches S) : List (Port × S) :=
  [(.cutoff, l.cutoff), (.res, l.res), (.mix, l.mix), (.rate, l.rate), (.cdepth, l.cdepth), (.rdepth, l.rdepth), (.slew, l.slew),
    (.step, l.step)]

/-- The selector latches with their ports. -/
def Latches.selectors (l : Latches S) : List (Port × Int) := [(.mode, l.mode), (.shape, l.shape), (.vowel, l.vowel)]

variable [Arith S] {N : Num S} {s : Any.State S} {l : Latches S} {port : Port}

/-- A control value is the finite scalar in the cell that its port is bound to (20_memory.md R54). -/
theorem Any.State.control_eq_some {v : S} (h : s.control N port = some v) :
    ∃ source, s.ports.get port = some source ∧ s.hostRead source.base = .value v := by
  unfold Any.State.control Any.State.portValue at h
  cases hp : s.ports.get port with
  | none => simp [hp] at h
  | some source =>
    rw [hp] at h
    exact ⟨source, rfl, (Sample.scalar?_eq_some.mp h).1⟩

/-- A scalar latch is the control value of its port (30_encoding.md R73). -/
theorem Any.State.control_of_mem_scalars (h : s.latch N = some l) : ∀ e ∈ l.scalars, s.control N e.1 = some e.2 := by
  unfold Any.State.latch at h
  split at h
  · cases h
    simp [Latches.scalars, *]
  · cases h

/-- A selector latch is the control value of its port, rounded (30_encoding.md R74). -/
theorem Any.State.control_of_mem_selectors (h : s.latch N = some l) :
    ∀ e ∈ l.selectors, ∃ v, s.control N e.1 = some v ∧ e.2 = N.rnd v := by
  unfold Any.State.latch at h
  split at h
  · cases h
    simp [Latches.selectors, *]
  · cases h

/-- The value of a scalar latch stands in the cell its port is bound to. -/
theorem Any.State.hostRead_of_scalar {v : S} (h : s.latch N = some l) (hm : (port, v) ∈ l.scalars) :
    ∃ source, s.ports.get port = some source ∧ s.hostRead source.base = .value v :=
  Any.State.control_eq_some (Any.State.control_of_mem_scalars h _ hm)

/-- The value that a selector latch is rounded from stands in the cell its port is bound to. -/
theorem Any.State.hostRead_of_selector {k : Int} (h : s.latch N = some l) (hm : (port, k) ∈ l.selectors) :
    ∃ source v, s.ports.get port = some source ∧ s.hostRead source.base = .value v ∧ k = N.rnd v := by
  obtain ⟨v, hv, hk⟩ := Any.State.control_of_mem_selectors h _ hm
  obtain ⟨source, hp, hread⟩ := Any.State.control_eq_some hv
  exact ⟨source, v, hp, hread, hk⟩

end

/-! ### Rounding to nearest (30_encoding.md R74) -/

/-- The rounding of a rational is that of the real number it is. -/
theorem nearest_cast (v : ℚ) : nearest Int.floor v = nearest Int.floor (v : ℝ) := by
  have hfloor (x : ℚ) : ⌊(x : ℝ) + 1 / 2⌋ = ⌊x + 1 / 2⌋ := by
    rw [← Rat.floor_cast (α := ℝ)]
    push_cast
    rfl
  simp only [nearest, ← Rat.cast_neg, hfloor, Rat.cast_nonneg]

/-- A non-negative value rounds up at a tie. -/
theorem nearest_eq_iff_of_nonneg {v : ℝ} (hv : 0 ≤ v) (k : Int) :
    nearest Int.floor v = k ↔ (k : ℝ) - 1 / 2 ≤ v ∧ v < (k : ℝ) + 1 / 2 := by
  rw [nearest_of_nonneg hv, Int.floor_eq_iff]
  constructor <;> rintro ⟨hlow, hhigh⟩ <;> constructor <;> linarith

/-- A negative value rounds down at a tie. -/
theorem nearest_eq_iff_of_neg {v : ℝ} (hv : v < 0) (k : Int) :
    nearest Int.floor v = k ↔ (k : ℝ) - 1 / 2 < v ∧ v ≤ (k : ℝ) + 1 / 2 := by
  rw [nearest_of_neg hv, neg_eq_iff_eq_neg, Int.floor_eq_iff]
  push_cast
  constructor <;> rintro ⟨hlow, hhigh⟩ <;> constructor <;> linarith

theorem nearest_eq_iff_of_one_le (v : ℝ) (k : Int) (hk : 1 ≤ k) :
    nearest Int.floor v = k ↔ (k : ℝ) - 1 / 2 ≤ v ∧ v < (k : ℝ) + 1 / 2 := by
  have hk' : (1 : ℝ) ≤ k := by exact_mod_cast hk
  rcases le_or_gt 0 v with hv | hv
  · exact nearest_eq_iff_of_nonneg hv k
  · rw [nearest_eq_iff_of_neg hv]
    constructor <;> rintro ⟨hlow, -⟩ <;> linarith

theorem nearest_eq_iff_of_le_neg_one (v : ℝ) (k : Int) (hk : k ≤ -1) :
    nearest Int.floor v = k ↔ (k : ℝ) - 1 / 2 < v ∧ v ≤ (k : ℝ) + 1 / 2 := by
  have hk' : (k : ℝ) ≤ -1 := by exact_mod_cast hk
  rcases le_or_gt 0 v with hv | hv
  · rw [nearest_eq_iff_of_nonneg hv]
    constructor <;> rintro ⟨-, hhigh⟩ <;> linarith
  · exact nearest_eq_iff_of_neg hv k

/-- What rounds to 0 lies strictly between the two ties. -/
theorem nearest_eq_zero_iff (v : ℝ) : nearest Int.floor v = 0 ↔ -(1 / 2) < v ∧ v < 1 / 2 := by
  rcases le_or_gt 0 v with hv | hv
  · rw [nearest_eq_iff_of_nonneg hv, Int.cast_zero]
    constructor <;> rintro ⟨-, hhigh⟩ <;> constructor <;> linarith
  · rw [nearest_eq_iff_of_neg hv, Int.cast_zero]
    constructor <;> rintro ⟨hlow, -⟩ <;> constructor <;> linarith

/-- The example of 30_encoding.md R74. -/
theorem nearest_examples :
    nearest Int.floor (25 / 10 : ℝ) = 3 ∧ nearest Int.floor (249 / 100 : ℝ) = 2 ∧ nearest Int.floor (5 / 10 : ℝ) = 1 ∧
      nearest Int.floor (-5 / 10 : ℝ) = -1 ∧ nearest Int.floor (-4 / 10 : ℝ) = 0 := by
  rw [nearest_eq_iff_of_one_le _ 3 (by decide), nearest_eq_iff_of_one_le _ 2 (by decide), nearest_eq_iff_of_one_le _ 1 (by decide),
    nearest_eq_iff_of_le_neg_one _ (-1) (by decide), nearest_eq_zero_iff]
  norm_num

/-- Settles O4: a latch goes back to its port through the control value, a rounded value to the side of 0 that it lies on, and a selector
to the field that holds it. -/
theorem selectorsRoundToNearest : Obligations.SelectorsRoundToNearest := by
  refine ⟨fun s l h => ⟨fun binding v hm => ?_, fun binding k hm => ?_⟩, nearest_cast, nearest_eq_iff_of_one_le, nearest_eq_zero_iff,
    nearest_eq_iff_of_le_neg_one, ?_⟩
  · obtain ⟨⟨port, _⟩, hmem, heq⟩ := List.mem_map.mp (show (binding, v) ∈ l.scalars.map (Prod.map s.ports.get id) from hm)
    cases heq
    exact Any.State.hostRead_of_scalar h hmem
  · obtain ⟨⟨port, _⟩, hmem, heq⟩ := List.mem_map.mp (show (binding, k) ∈ l.selectors.map (Prod.map s.ports.get id) from hm)
    cases heq
    exact Any.State.hostRead_of_selector h hmem
  · obtain ⟨h1, h2, h3, h4, h5⟩ := nearest_examples
    exact ⟨h1, h2, h3, h4, h5, selector_isSome⟩

end Sys2Proof.Machine
end

