-- ==== Sys2Proof/Proofs/Shapes.lean ====
section
/-! PROOF. The six shapes of slot 0 (40_lfo_modulation.md R101 to R106): the values of each formula on the reference, and that its
operation passes it on and writes no register.
-/

namespace Sys2Proof.Machine

open Sys2Proof

/-! ### Sine (R101) -/

theorem shapeSin_eq (p : ℝ) : shapeSin Reference.num p = (Real.sin p + 1) / 2 := rfl

theorem shapeSin_mem (p : ℝ) : 0 ≤ shapeSin Reference.num p ∧ shapeSin Reference.num p ≤ 1 := by
  have hlow := Real.neg_one_le_sin p
  have hhigh := Real.sin_le_one p
  rw [shapeSin_eq]
  constructor <;> linarith

theorem shapeSin_zero : shapeSin Reference.num 0 = 1 / 2 := by norm_num [shapeSin_eq]

theorem shapeSin_pi_div_two : shapeSin Reference.num (Real.pi / 2) = 1 := by norm_num [shapeSin_eq]

theorem shapeSin_pi : shapeSin Reference.num Real.pi = 1 / 2 := by norm_num [shapeSin_eq]

theorem shapeSin_three_pi_div_two : shapeSin Reference.num (3 * Real.pi / 2) = 0 := by
  rw [shapeSin_eq, show 3 * Real.pi / 2 = Real.pi / 2 + Real.pi by ring, Real.sin_add_pi, Real.sin_pi_div_two]
  norm_num

/-- The example of R101, from the first eight digits of the square root of 2. -/
theorem shapeSin_pi_div_four :
    85355339 / 100000000 < shapeSin Reference.num (Real.pi / 4) ∧ shapeSin Reference.num (Real.pi / 4) < 85355340 / 100000000 := by
  have hlow : 141421356 / 100000000 < √2 := (Real.lt_sqrt (by norm_num)).mpr (by norm_num)
  have hhigh : √2 < 141421357 / 100000000 := (Real.sqrt_lt' (by norm_num)).mpr (by norm_num)
  rw [shapeSin_eq, Real.sin_pi_div_four]
  constructor <;> linarith

/-- Settles O5: the raw value is that of `shapeSin`. -/
theorem sineShape : Obligations.SineShape :=
  ⟨rfl, fun _ => rfl, fun _ s hH _ _ => ⟨shapeSin Reference.num s.lfo.phase, hH ▸ rfl, rfl, (shapeSin_mem _).1, (shapeSin_mem _).2,
    fun h => h ▸ shapeSin_zero, fun h => h ▸ shapeSin_pi_div_two, fun h => h ▸ shapeSin_pi, fun h => h ▸ shapeSin_three_pi_div_two,
    fun h => h ▸ shapeSin_pi_div_four⟩⟩

/-! ### Triangle (R102) -/

section
variable {p : ℝ}

/-- The rising half. -/
theorem shapeTri_of_lt (h : p < Real.pi) : shapeTri Reference.num p = p / Real.pi := if_pos h

/-- The falling half, over one denominator. -/
theorem shapeTri_of_ge (h : Real.pi ≤ p) : shapeTri Reference.num p = (2 * Real.pi - p) / Real.pi := by
  rw [sub_div, mul_div_cancel_right₀ _ Real.pi_ne_zero]
  exact if_neg (not_lt.mpr h)

theorem shapeTri_mem (h0 : 0 ≤ p) (h1 : p < 2 * Real.pi) : 0 ≤ shapeTri Reference.num p ∧ shapeTri Reference.num p ≤ 1 := by
  have hpi := Real.pi_pos
  rcases lt_or_ge p Real.pi with h | h
  · rw [shapeTri_of_lt h]
    exact ⟨by positivity, (div_le_one hpi).mpr h.le⟩
  · rw [shapeTri_of_ge h]
    exact ⟨div_nonneg (by linarith) hpi.le, (div_le_one hpi).mpr (by linarith)⟩

end

theorem shapeTri_zero : shapeTri Reference.num 0 = 0 := by rw [shapeTri_of_lt Real.pi_pos, zero_div]

theorem shapeTri_pi : shapeTri Reference.num Real.pi = 1 := by
  have hpi := Real.pi_ne_zero
  rw [shapeTri_of_ge le_rfl]
  field_simp
  norm_num

theorem shapeTri_pi_div_four : shapeTri Reference.num (Real.pi / 4) = 1 / 4 := by
  have hpi := Real.pi_pos
  rw [shapeTri_of_lt (by linarith)]
  field_simp

theorem shapeTri_five_pi_div_four : shapeTri Reference.num (5 * Real.pi / 4) = 3 / 4 := by
  have hpi := Real.pi_pos
  rw [shapeTri_of_ge (by linarith)]
  field_simp
  norm_num

/-- Settles O6: the raw value is that of `shapeTri`, half by half. -/
theorem triangleShape : Obligations.TriangleShape := by
  refine ⟨rfl, fun _ => rfl, fun _ s hH h0 h1 => ⟨shapeTri Reference.num s.lfo.phase, hH ▸ rfl, rfl, ?_⟩⟩
  obtain ⟨hlow, hhigh⟩ := shapeTri_mem h0 h1
  refine ⟨hlow, hhigh, fun h => h ▸ shapeTri_zero, fun h => ?_, shapeTri_of_ge, fun h => h ▸ shapeTri_pi_div_four,
    fun h => h ▸ shapeTri_five_pi_div_four⟩
  rw [h]
  exact ⟨shapeTri_pi, div_self Real.pi_ne_zero⟩

/-! ### Ramps (R103, R104) -/

theorem shapeRup_eq (p : ℝ) : shapeRup Reference.num p = p / (2 * Real.pi) := rfl

theorem shapeRdn_eq (p : ℝ) : shapeRdn Reference.num p = 1 - shapeRup Reference.num p := rfl

theorem shapeRup_mem {p : ℝ} (h0 : 0 ≤ p) (h1 : p < 2 * Real.pi) : 0 ≤ shapeRup Reference.num p ∧ shapeRup Reference.num p < 1 :=
  ⟨div_nonneg h0 Real.two_pi_pos.le, (div_lt_one Real.two_pi_pos).mpr h1⟩

theorem shapeRup_zero : shapeRup Reference.num 0 = 0 := zero_div _

theorem shapeRup_pi_div_two : shapeRup Reference.num (Real.pi / 2) = 1 / 4 := by
  have hpi := Real.pi_ne_zero
  rw [shapeRup_eq]
  field_simp
  norm_num

/-- Settles O7: the raw value is that of `shapeRup`, a part of the whole turn. -/
theorem rampUpShape : Obligations.RampUpShape := by
  refine ⟨rfl, fun _ => rfl, fun _ s hH h0 h1 => ⟨shapeRup Reference.num s.lfo.phase, hH ▸ rfl, rfl, ?_⟩⟩
  obtain ⟨hlow, hhigh⟩ := shapeRup_mem h0 h1
  exact ⟨hlow, hhigh, fun h => h ▸ shapeRup_zero, fun h => h ▸ shapeRup_pi_div_two⟩

/-- Settles O8: the raw value is what that of `shapeRup` leaves of 1. -/
theorem rampDownShape : Obligations.RampDownShape := by
  refine ⟨rfl, fun _ => rfl, fun _ s hH h0 h1 =>
    ⟨shapeRup Reference.num s.lfo.phase, shapeRdn Reference.num s.lfo.phase, hH ▸ rfl, hH ▸ rfl, rfl, ?_⟩⟩
  obtain ⟨hlow, hhigh⟩ := shapeRup_mem h0 h1
  rw [shapeRdn_eq]
  refine ⟨by linarith, by linarith, by ring, fun h => ?_, fun h => ?_⟩
  · rw [h, shapeRup_zero, sub_zero]
  · rw [h, shapeRup_pi_div_two]
    norm_num

/-! ### Square (R105) -/

section
variable {p : ℝ}

theorem shapeSqr_of_lt (h : p < Real.pi) : shapeSqr Reference.num p = 1 := if_pos h

theorem shapeSqr_of_ge (h : Real.pi ≤ p) : shapeSqr Reference.num p = 0 := if_neg (not_lt.mpr h)

theorem shapeSqr_eq_one_iff : shapeSqr Reference.num p = 1 ↔ p < Real.pi :=
  ⟨fun h => not_le.mp fun hge => zero_ne_one ((shapeSqr_of_ge hge).symm.trans h), shapeSqr_of_lt⟩

theorem shapeSqr_zero_or_one : shapeSqr Reference.num p = 0 ∨ shapeSqr Reference.num p = 1 :=
  (lt_or_ge p Real.pi).elim (.inr ∘ shapeSqr_of_lt) (.inl ∘ shapeSqr_of_ge)

end

/-- Settles O9: the raw value is that of `shapeSqr`, 1 in the first half of the turn and 0 from π on. -/
theorem squareShape : Obligations.SquareShape := by
  refine ⟨rfl, fun _ => rfl, fun _ s hH _ _ => ⟨shapeSqr Reference.num s.lfo.phase, hH ▸ rfl, rfl, shapeSqr_zero_or_one,
    fun h => ?_, fun h => ?_, ?_, fun h => ?_, fun h => ?_⟩⟩
  · exact shapeSqr_of_lt (h ▸ Real.pi_pos)
  · exact shapeSqr_of_ge h.ge
  · rw [shapeSqr_eq_one_iff, mul_div_cancel_left₀ _ two_ne_zero]
  · exact shapeSqr_of_lt (h ▸ Real.pi_gt_three)
  · exact shapeSqr_of_ge (by linarith [Real.pi_lt_d2])

/-! ### Sample and hold (R106) -/

/-- Settles O10: the raw value is LFO_SH, and the state with another phase and another random source has the same. -/
theorem sampleHoldShape : Obligations.SampleHoldShape := by
  refine ⟨rfl, fun _ => rfl, fun s p r t u ht hu => ?_⟩
  cases ht
  cases hu
  rfl

end Sys2Proof.Machine
end

