-- ==== Sys2Proof/Proofs/PhaseAdvance.lean ====
section
/-! PROOF. Slot 1 (40_lfo_modulation.md R100, R107, R108): the phase advance on the reference, and the draw of the sample-and-hold
shape.
-/

namespace Sys2Proof.Machine

open Sys2Proof

/-! ### The phase (R100, R107) -/

/-- A sum of exactly one turn wraps to 0: the test is `>=`. -/
theorem advancePhase_of_eq_two_pi {phase inc : ℝ} (h : phase + inc = 2 * Real.pi) : advancePhase Reference.num phase inc = 0 := by
  rw [Reference.advancePhase_eq, if_pos h.ge, h, sub_self]

/-- An increment of 0 never wraps. -/
theorem wrapFlag_zero {phase : ℝ} (h : phase < 2 * Real.pi) : wrapFlag Reference.num phase 0 = false := by
  rw [← Bool.not_eq_true, Reference.wrapFlag_iff, add_zero]
  exact not_le.mpr h

theorem advancePhase_zero {phase : ℝ} (h : phase < 2 * Real.pi) : advancePhase Reference.num phase 0 = phase := by
  rw [Reference.advancePhase_eq, add_zero, if_neg (not_le.mpr h)]

/-- The example of R100, from the digits of π. -/
theorem phaseInc_one_near : |phaseInc Reference.num 1 48000 - 130899694 / 1000000000000| < 1 / 1000000000000 := by
  have hlow := Real.pi_gt_d20
  have hhigh := Real.pi_lt_d20
  rw [phaseInc_eq, abs_lt]
  constructor <;> linarith

/-- Settles O11: one subtraction on `>=` keeps the phase in range, since an admitted rate is an increment of less than a turn. -/
theorem phaseAdvance : Obligations.PhaseAdvance := by
  refine ⟨rfl, fun s => ?_, fun H s hH => ⟨_, rfl, ?_⟩, fun rate sr h0 h1 => ⟨phaseInc_eq rate sr, phaseInc_mem h0 h1⟩,
    fun phase inc => advancePhase_mem, Reference.wrapFlag_iff, fun _ _ => rfl, fun phase inc => advancePhase_of_eq_two_pi,
    fun phase h => ⟨advancePhase_zero h, wrapFlag_zero h⟩, advancePhase_of_eq_two_pi (by ring), ?_, phaseInc_one_near⟩
  · refine ⟨(lfoAdvance Config.num s.blk.latches s.sr (s.rnd.answer Config.hardware s.unit) s.lfo).sh,
      lfoDraw Config.num s.blk.latches s.sr s.lfo s.rnd, ?_⟩
    rw [← advancePhase_eq]
    rfl
  · exact congrArg (fun N => advancePhase N s.lfo.phase (phaseInc N s.blk.latches.rate s.sr)) hH
  · rw [phaseInc_eq, mul_one]

/-! ### The draw (R108) -/

section
variable {S : Type} [Arith S] [DecidableLT S] [DecidableLE S] (H : Hardware S)

/-- A free draw is in [0, 1), and so is an answer of DRAWS that the random source can give, on any number system. -/
theorem RandomSource.answer_range (unit : Nat) (r : RandomSource S) : 0 ≤ r.answer H unit ∧ r.answer H unit < 1 := by
  have hfree := And.intro (H.draw_nonneg unit r.taken) (H.draw_lt_one unit r.taken)
  unfold RandomSource.answer
  split
  · exact hfree
  · split
    · next hd => exact (drawable_iff _).mp hd
    · exact hfree

/-- An answer of DRAWS in [0, 1) is the next draw. -/
theorem RandomSource.answer_of_drawable {d : S} (h0 : 0 ≤ d) (h1 : d < 1) (rest : List S) (k unit : Nat) :
    (RandomSource.mk (d :: rest) k).answer H unit = d := if_pos ((drawable_iff d).mpr ⟨h0, h1⟩)

end

section
variable {S : Type} [Arith S] [DecidableLE S] (N : Num S) {l : Latches S} {sr : S} {g : LfoRegs S}

/-- A wrap step of shape 5 caches one draw and uses it up. -/
theorem lfoAdvance_of_due (h : drawDue N l.shape g.phase (phaseInc N l.rate sr) = true) (draw : S) (r : RandomSource S) :
    (lfoAdvance N l sr draw g).sh = draw ∧ lfoDraw N l sr g r = r.consume := ⟨if_pos h, if_pos h⟩

/-- Every other step keeps LFO_SH and the random source. -/
theorem lfoAdvance_of_not_due (h : ¬drawDue N l.shape g.phase (phaseInc N l.rate sr) = true) (draw : S) (r : RandomSource S) :
    (lfoAdvance N l sr draw g).sh = g.sh ∧ lfoDraw N l sr g r = r := ⟨if_neg h, if_neg h⟩

end

/-- Settles O12: whether a draw is due decides both what LFO_SH and what the random source become. -/
theorem sampleHoldDraw : Obligations.SampleHoldDraw := by
  refine ⟨fun s => ⟨_, rfl, rfl, ?_⟩, fun _ _ => rfl,
    fun S _ _ _ H d rest k unit h0 h1 => RandomSource.answer_of_drawable H h0 h1 rest k unit⟩
  have hdue := drawDue_iff Config.num s.blk.latches.shape s.lfo.phase (phaseInc Config.num s.blk.latches.rate s.sr)
  have hdraw := s.rnd.answer_range Config.hardware s.unit
  split
  · next h =>
    obtain ⟨hsh, hrnd⟩ := lfoAdvance_of_due Config.num (hdue.mpr h) (s.rnd.answer Config.hardware s.unit) s.rnd
    exact ⟨hsh, hdraw.1.trans_eq hsh.symm, hsh.trans_lt hdraw.2, congrArg RandomSource.taken hrnd, congrArg RandomSource.fixed hrnd⟩
  · next h => exact lfoAdvance_of_not_due Config.num (mt hdue.mp h) _ s.rnd

end Sys2Proof.Machine
end

