-- ==== Sys2Proof/Proofs/StepQuantizer.lean ====
section
/-! PROOF. Slot 2 (40_lfo_modulation.md R110, R111): the hold period on the reference, the three cases of one step of the quantizer, and
the counter and the cached value after any number of steps.
-/

namespace Sys2Proof.Machine

open Sys2Proof

/-! ### The hold period (R110) -/

section
variable {step sr : ℝ}

theorem holdPeriod_argument_nonneg (step : ℝ) (h : 0 ≤ sr) : 0 ≤ step * step * sr / 2 :=
  div_nonneg (mul_nonneg (mul_self_nonneg step) h) zero_le_two

/-- The hold period is the natural number that R110 writes: the floor is not negative. -/
theorem holdPeriod_eq (h : 0 ≤ sr) : (holdPeriod Reference.num step sr : Int) = 1 + ⌊step * step * sr / 2⌋ :=
  Int.toNat_of_nonneg (add_nonneg zero_le_one (Int.floor_nonneg.mpr (holdPeriod_argument_nonneg step h)))

theorem one_le_holdPeriod (h : 0 ≤ sr) : 1 ≤ holdPeriod Reference.num step sr := by
  have hfloor := Int.floor_nonneg.mpr (holdPeriod_argument_nonneg step h)
  have heq := holdPeriod_eq (step := step) h
  omega

/-- The hold period is `k + 1` where `step · step · sr / 2` has the floor `k`. -/
theorem holdPeriod_eq_succ_iff (h : 0 ≤ sr) (k : Nat) :
    holdPeriod Reference.num step sr = k + 1 ↔ k ≤ step * step * sr / 2 ∧ step * step * sr / 2 < k + 1 := by
  have hfloor := Int.floor_eq_iff (a := step * step * sr / 2) (z := k)
  rw [Int.cast_natCast] at hfloor
  rw [← hfloor, ← Int.natCast_inj, holdPeriod_eq h]
  push_cast
  omega

/-- The hold period is 1 exactly when the knob is below the square root of `2 / SR`. -/
theorem holdPeriod_eq_one_iff (h : 0 ≤ sr) : holdPeriod Reference.num step sr = 1 ↔ step * step * sr < 2 := by
  refine (holdPeriod_eq_succ_iff h 0).trans ?_
  rw [Nat.cast_zero, zero_add, and_iff_right (holdPeriod_argument_nonneg step h), div_lt_one two_pos]

end

/-- Settles O13: each example by the floor it takes. -/
theorem holdPeriodRule : Obligations.HoldPeriod := by
  refine ⟨fun step sr h => ⟨holdPeriod_eq h.le, one_le_holdPeriod h.le, holdPeriod_eq_one_iff h.le⟩, ?_⟩
  have value_iff (step : ℝ) (k : Nat) := holdPeriod_eq_succ_iff (step := step) (sr := 48000) (by norm_num) k
  refine ⟨(value_iff _ 2).mpr ?_, (value_iff _ 240).mpr ?_, (value_iff _ 6000).mpr ?_, (value_iff _ 24000).mpr ?_,
    (value_iff _ 0).mpr ?_, (value_iff _ 1).mpr ?_⟩ <;> norm_num

/-! ### One step (R111) -/

section
variable {S : Type} [Arith S] [DecidableLE S] {H : Hardware S} {l : Latches S} {sr raw : S} {g : LfoRegs S}

/-- At or below the threshold the quantizer keeps its registers. -/
theorem stepQuantize_of_bypass (h : l.step ≤ H.stepEps) : stepQuantize H l sr raw g = g :=
  if_pos ((bypassFlag_iff H _).mpr h)

/-- The step that reaches the hold period latches its raw value. -/
theorem stepQuantize_of_latch (h : ¬l.step ≤ H.stepEps) (hold : holdPeriod H.num l.step sr ≤ g.stepCnt + 1) :
    stepQuantize H l sr raw g = { g with stepCnt := 0, stepVal := raw } := by
  rw [stepQuantize, if_neg (mt (bypassFlag_iff H _).mp h), if_pos ((latchFlag_iff _ _).mpr hold)]

/-- Every other step counts. -/
theorem stepQuantize_of_count (h : ¬l.step ≤ H.stepEps) (hold : ¬holdPeriod H.num l.step sr ≤ g.stepCnt + 1) :
    stepQuantize H l sr raw g = { g with stepCnt := g.stepCnt + 1 } := by
  rw [stepQuantize, if_neg (mt (bypassFlag_iff H _).mp h), if_neg (mt (latchFlag_iff _ _).mp hold)]

theorem steppedValue_of_bypass (h : l.step ≤ H.stepEps) : steppedValue H l raw g = raw :=
  if_pos ((bypassFlag_iff H _).mpr h)

theorem steppedValue_of_not_bypass (h : ¬l.step ≤ H.stepEps) : steppedValue H l raw g = g.stepVal :=
  if_neg (mt (bypassFlag_iff H _).mp h)

/-- STEPQ by its three cases. -/
theorem Any.execStepq_eq (H : Hardware S) (s : Any.State S) :
    Any.execStepq H s =
      .next
        (if s.blk.latches.step ≤ H.stepEps then s.pass { s.blk.wires with stepped := s.blk.wires.raw } .slew
        else if holdPeriod H.num s.blk.latches.step s.sr ≤ s.lfo.stepCnt + 1 then
          { s.pass { s.blk.wires with stepped := s.blk.wires.raw } .slew with
            lfo := { s.lfo with stepCnt := 0, stepVal := s.blk.wires.raw } }
        else
          { s.pass { s.blk.wires with stepped := s.lfo.stepVal } .slew with
            lfo := { s.lfo with stepCnt := s.lfo.stepCnt + 1 } }) := by
  simp only [Any.execStepq]
  split_ifs with hbypass hlatch
  · simp only [stepQuantize_of_bypass hbypass, steppedValue_of_bypass hbypass]
    rfl
  · simp only [stepQuantize_of_latch hbypass hlatch, steppedValue_of_not_bypass hbypass]
  · simp only [stepQuantize_of_count hbypass hlatch, steppedValue_of_not_bypass hbypass]

end

/-- Settles O14: by the three cases of STEPQ; a hold period of 1 leaves only the latch, and otherwise the counter is below it. -/
theorem stepQuantizer : Obligations.StepQuantizer := by
  refine ⟨rfl, Any.execStepq_eq Config.hardware, fun H s h => ⟨_, Any.execStepq_eq H s, ?_⟩,
    fun H s hH h hsr => ⟨_, Any.execStepq_eq H s, ?_⟩⟩
  · rw [if_pos (h ▸ H.stepEps_nonneg)]
    exact ⟨rfl, rfl⟩
  · have hpos := one_le_holdPeriod (step := s.blk.latches.step) hsr.le
    rw [if_neg (not_le.mpr h), hH]
    split
    · exact ⟨hpos, fun _ => rfl⟩
    · next hcount => exact ⟨not_le.mp hcount, fun h1 => absurd (h1.trans_le (Nat.le_add_left 1 _)) hcount⟩

/-! ### Any number of steps (R111) -/

/-- What LFO_STEPVAL holds after the steps with the given raw values: the raw value of the last step whose number is a multiple of the
hold period, or, before the first of them, what it held. -/
def lastLatched (hold : Nat) (old : ℝ) (raws : List ℝ) : ℝ :=
  if raws.length < hold then old else raws.getD (raws.length / hold * hold - 1) 0

section
variable {hold : Nat} {old raw : ℝ} {raws : List ℝ}

theorem lastLatched_nil (hpos : 0 < hold) : lastLatched hold old [] = old := if_pos hpos

/-- A step whose number is a multiple of the hold period latches. -/
theorem lastLatched_append_of_dvd (h : hold ∣ raws.length + 1) : lastLatched hold old (raws ++ [raw]) = raw := by
  have hle : ¬raws.length + 1 < hold := not_lt.mpr (Nat.le_of_dvd (Nat.succ_pos _) h)
  simp [lastLatched, hle, Nat.div_mul_cancel h]

/-- Any other step latches nothing. -/
theorem lastLatched_append_of_not_dvd (hpos : 0 < hold) (h : ¬hold ∣ raws.length + 1) :
    lastLatched hold old (raws ++ [raw]) = lastLatched hold old raws := by
  have hdiv : (raws.length + 1) / hold = raws.length / hold := Nat.succ_div_of_not_dvd h
  have hlt : raws.length + 1 < hold ↔ raws.length < hold := by
    have hne : raws.length + 1 ≠ hold := fun e => h (dvd_of_eq e.symm)
    omega
  simp only [lastLatched, List.length_append, List.length_singleton, hdiv, hlt]
  split
  · rfl
  · next hge =>
    have hindex : raws.length / hold * hold - 1 < raws.length := by
      have := Nat.div_mul_le_self raws.length hold
      omega
    rw [List.getD_append _ _ _ _ hindex]

end

/-- The counter reaches the hold period in the step whose number is a multiple of it. -/
theorem hold_le_mod_succ_iff {hold : Nat} (hpos : 0 < hold) (k : Nat) : hold ≤ k % hold + 1 ↔ hold ∣ k + 1 := by
  have hlt := Nat.mod_lt k hpos
  have hmod : (k + 1) % hold = (k % hold + 1) % hold := (Nat.mod_add_mod k hold 1).symm
  rw [Nat.dvd_iff_mod_eq_zero, hmod]
  constructor
  · intro h
    rw [show k % hold + 1 = hold by omega, Nat.mod_self]
  · intro h
    by_contra hcount
    rw [Nat.mod_eq_of_lt (not_le.mp hcount)] at h
    omega

/-- The registers after the steps with the given raw values, from a counter of 0. -/
theorem stepQuantize_foldl {H : Hardware ℝ} {l : Latches ℝ} {sr : ℝ} {g : LfoRegs ℝ} (h : ¬l.step ≤ H.stepEps) (hcnt : g.stepCnt = 0)
    (hpos : 0 < holdPeriod H.num l.step sr) (raws : List ℝ) :
    raws.foldl (fun g raw => stepQuantize H l sr raw g) g =
      { g with
        stepCnt := raws.length % holdPeriod H.num l.step sr
        stepVal := lastLatched (holdPeriod H.num l.step sr) g.stepVal raws } := by
  induction raws using List.reverseRecOn with
  | nil =>
    rw [lastLatched_nil hpos, List.length_nil, Nat.zero_mod]
    exact congrArg (fun k => { g with stepCnt := k }) hcnt
  | append_singleton raws raw ih =>
    rw [List.foldl_append, ih, List.foldl_cons, List.foldl_nil, List.length_append, List.length_singleton]
    by_cases hdvd : holdPeriod H.num l.step sr ∣ raws.length + 1
    · rw [stepQuantize_of_latch h ((hold_le_mod_succ_iff hpos _).mpr hdvd), lastLatched_append_of_dvd hdvd,
        Nat.mod_eq_zero_of_dvd hdvd]
    · have hcount := mt (hold_le_mod_succ_iff hpos raws.length).mp hdvd
      rw [stepQuantize_of_count h hcount, lastLatched_append_of_not_dvd hpos hdvd, ← Nat.mod_add_mod,
        Nat.mod_eq_of_lt (not_le.mp hcount)]

/-- Settles O15, by induction on the steps, from the last one back. -/
theorem stepQuantizerTiming : Obligations.StepQuantizerTiming := by
  intro H l sr g raws hH hstep hsr hcnt hold e
  have hpos : 0 < holdPeriod H.num l.step sr := hH ▸ one_le_holdPeriod hsr.le
  have he : e = _ := stepQuantize_foldl (not_le.mpr hstep) hcnt hpos raws
  rw [he, hH]
  exact ⟨rfl, rfl, rfl, rfl, rfl⟩

end Sys2Proof.Machine
end

