-- ==== Sys2Proof/Proofs/Slew.lean ====
section
/-! PROOF. Slot 3 (40_lfo_modulation.md R112, R113): the slew coefficient as a power of 1/1000, and the slew filter, one step and many.
-/

namespace Sys2Proof.Machine

open Sys2Proof

/-! ### The coefficient (R112) -/

theorem slewCoeff_pos (k : ℝ) : 0 < slewCoeff Reference.num k := by
  rw [slewCoeff_eq]
  exact Real.rpow_pos_of_pos (by norm_num) k

/-- A larger knob is a smaller coefficient. -/
theorem slewCoeff_strictAnti : StrictAnti (slewCoeff Reference.num) := by
  intro j k h
  rw [slewCoeff_eq, slewCoeff_eq]
  exact Real.rpow_lt_rpow_of_exponent_gt (by norm_num) (by norm_num) h

/-- Knobs add where coefficients multiply. -/
theorem slewCoeff_add (j k : ℝ) : slewCoeff Reference.num (j + k) = slewCoeff Reference.num j * slewCoeff Reference.num k := by
  simp only [slewCoeff_eq]
  exact Real.rpow_add (by norm_num) j k

theorem slewCoeff_zero : slewCoeff Reference.num 0 = 1 := by rw [slewCoeff_eq, Real.rpow_zero]

theorem slewCoeff_one : slewCoeff Reference.num 1 = 1 / 1000 := by rw [slewCoeff_eq, Real.rpow_one]

/-- The knob in thirds: 1/1000 is the third power of 1/10. -/
theorem slewCoeff_div_three (k : ℝ) : slewCoeff Reference.num (k / 3) = (1 / 10 : ℝ) ^ k := by
  rw [slewCoeff_eq, show (1 / 1000 : ℝ) = (1 / 10) ^ (3 : ℝ) by norm_num, ← Real.rpow_mul (by norm_num), mul_div_cancel₀ _ three_ne_zero]

theorem slewCoeff_half_mul_self : slewCoeff Reference.num (1 / 2) * slewCoeff Reference.num (1 / 2) = 1 / 1000 := by
  rw [← slewCoeff_add, add_halves, slewCoeff_one]

/-- The middle of the knob, by its square. -/
theorem slewCoeff_half_near :
    316227766 / 10000000000 < slewCoeff Reference.num (1 / 2) ∧ slewCoeff Reference.num (1 / 2) < 316227767 / 10000000000 := by
  have hsquare := slewCoeff_half_mul_self
  have hpos := slewCoeff_pos (1 / 2)
  exact ⟨lt_of_mul_self_lt_mul_self₀ hpos.le (by rw [hsquare]; norm_num),
    lt_of_mul_self_lt_mul_self₀ (by norm_num) (by rw [hsquare]; norm_num)⟩

/-- Settles O17: the values at thirds and halves of the knob, and the ranges from the coefficient's falling with the knob. -/
theorem slewCoefficient : Obligations.SlewCoefficient := by
  refine ⟨slewCoeff_zero, by norm_num [slewCoeff_div_three], slewCoeff_half_mul_self, slewCoeff_half_near.1, slewCoeff_half_near.2,
    ?_, slewCoeff_one, ?_, fun k => ⟨slewCoeff_eq k, slewCoeff_pos k⟩, fun k h0 h1 => ⟨?_, ?_⟩, fun k h => ?_, fun k h => ?_⟩
  · norm_num [slewCoeff_div_three]
  · rw [show (2 : ℝ) = 1 + 1 by norm_num, slewCoeff_add, slewCoeff_one]
    norm_num
  · exact slewCoeff_one ▸ slewCoeff_strictAnti.antitone h1
  · exact slewCoeff_zero ▸ slewCoeff_strictAnti.antitone h0
  · exact slewCoeff_zero ▸ slewCoeff_strictAnti h
  · exact slewCoeff_one ▸ slewCoeff_strictAnti h

/-! ### The filter (R113) -/

section
variable {m x sf : ℝ}

/-- The new value is the convex combination that R113 names. -/
theorem slewStep_eq_convex : slewStep m x sf = (1 - sf) * m + sf * x := by
  rw [slewStep]
  ring

theorem slewStep_mem (hsf0 : 0 ≤ sf) (hsf1 : sf ≤ 1) (hm0 : 0 ≤ m) (hm1 : m ≤ 1) (hx0 : 0 ≤ x) (hx1 : x ≤ 1) :
    0 ≤ slewStep m x sf ∧ slewStep m x sf ≤ 1 := by
  rw [slewStep_eq_convex]
  have hrest : 0 ≤ 1 - sf := sub_nonneg.mpr hsf1
  refine ⟨by positivity, ?_⟩
  calc (1 - sf) * m + sf * x ≤ (1 - sf) * 1 + sf * 1 := by gcongr
    _ = 1 := by ring

theorem slewStep_one (m x : ℝ) : slewStep m x 1 = x := by
  rw [slewStep]
  ring

/-- From 0 a constant input is approached geometrically. -/
theorem slewStep_iterate (c sf : ℝ) (k : Nat) : (fun m => slewStep m c sf)^[k] 0 = c * (1 - (1 - sf) ^ k) := by
  induction k with
  | zero => simp
  | succ k ih =>
    rw [Function.iterate_succ_apply', ih, slewStep, pow_succ]
    ring

end

/-- Settles O16: the new LFO_SMOOTH is that of `slewStep`, which is a convex combination. -/
theorem slewFilter : Obligations.SlewFilter := by
  refine ⟨rfl, fun s => ⟨_, rfl, rfl⟩, fun H s hH => ⟨_, rfl, ?_⟩, fun _ _ _ => rfl, fun m x sf h => slewStep_mem h.le, slewStep_one,
    slewStep_iterate, ?_, ?_⟩
  · exact congrArg (fun N => slewStep s.lfo.smooth s.blk.wires.stepped (slewCoeff N s.blk.latches.slew)) hH
  · norm_num [slewStep]
  · norm_num [slewStep]

end Sys2Proof.Machine
end

