-- ==== Sys2Proof/Proofs/Conditioner.lean ====
section
/-! PROOF. Slot 4 (41_conditioner.md): what COND leaves, at the bounds of its clamps too, and what the bounds guarantee to the filter
units.
-/

namespace Sys2Proof.Machine

open Sys2Proof

/-! ### The conditioned cutoff (R121) -/

section
variable {l : Latches ℝ} {sr modv : ℝ}

/-- A cutoff that the lower bound takes over, with its modulation. -/
theorem conditionCutoff_of_le_twenty (hsr : 20 / (49 / 100) ≤ sr) (h : l.cutoff + modv * l.cdepth ≤ 20) :
    conditionCutoff l sr modv = 20 := by
  rw [conditionCutoff_eq, max_eq_right h, min_eq_left (by linarith)]

/-- A cutoff that the upper bound takes over, with its modulation. -/
theorem conditionCutoff_of_ge (hsr : 20 / (49 / 100) ≤ sr) (h : 49 / 100 * sr ≤ l.cutoff + modv * l.cdepth) :
    conditionCutoff l sr modv = 49 / 100 * sr := by
  rw [conditionCutoff_eq, max_eq_left (by linarith), min_eq_right h]

/-- A cutoff between the bounds, with its modulation. -/
theorem conditionCutoff_of_mem (hlow : 20 ≤ l.cutoff + modv * l.cdepth) (hhigh : l.cutoff + modv * l.cdepth ≤ 49 / 100 * sr) :
    conditionCutoff l sr modv = l.cutoff + modv * l.cdepth := by
  rw [conditionCutoff_eq, max_eq_left hlow, min_eq_left hhigh]

end

/-- Settles O18: COND leaves `conditionCutoff`, which is one of the two bounds or the modulated cutoff between them. -/
theorem conditionedCutoff : Obligations.ConditionedCutoff := by
  refine ⟨fun H s hsr => ⟨_, rfl, conditionCutoff_eq _ _ _, conditionCutoff_mem _ _ hsr⟩, fun l sr modv hsr h => ?_,
    fun l hcut hdepth => ?_, fun l modv hdepth => ⟨fun hcut => ?_, fun hcut => ?_⟩⟩
  · exact conditionCutoff_of_le_twenty hsr (by linarith)
  · rw [conditionCutoff_of_mem] <;> norm_num [hcut, hdepth]
  · rw [conditionCutoff_of_ge] <;> norm_num [hcut, hdepth]
  · exact conditionCutoff_of_le_twenty (by norm_num) (by norm_num [hcut, hdepth])

/-! ### The conditioned and the normalized resonance (R122, R123) -/

section
variable {q : ℝ}

/-- The width of the resonance's range is the divisor. -/
theorem normalizeRes_mem (hlow : 707 / 1000 ≤ q) (hhigh : q ≤ 20) : 0 ≤ normalizeRes q ∧ normalizeRes q ≤ 1 := by
  rw [normalizeRes_eq, div_le_one (by norm_num)]
  exact ⟨div_nonneg (by linarith) (by norm_num), by linarith⟩

theorem normalizeRes_min : normalizeRes (707 / 1000 : ℝ) = 0 := by norm_num [normalizeRes_eq]

theorem normalizeRes_max : normalizeRes (20 : ℝ) = 1 := by norm_num [normalizeRes_eq]

/-- The example of R123, the middle of the range. -/
theorem normalizeRes_middle : normalizeRes (103535 / 10000 : ℝ) = 1 / 2 := by norm_num [normalizeRes_eq]

end

/-- Settles O19: COND leaves `conditionRes`, which lies in its range, and `normalizeRes` of it. -/
theorem conditionedResonance : Obligations.ConditionedResonance := by
  refine ⟨fun H s => ⟨_, rfl, conditionRes_eq _ _, ?_⟩, normalizeRes_min, normalizeRes_max, normalizeRes_middle,
    fun l modv hres hdepth => ?_, fun l hres hdepth => ?_⟩
  · obtain ⟨hlow, hhigh⟩ := conditionRes_mem s.blk.latches s.blk.wires.modv
    exact ⟨hlow, hhigh, normalizeRes_eq _, normalizeRes_mem hlow hhigh⟩
  · norm_num [conditionRes_eq, hres, hdepth]
  · norm_num [conditionRes_eq, hres, hdepth]

/-! ### What COND leaves (R124) -/

section
variable {l : Latches ℝ} {sr modv : ℝ}

/-- Without a depth the cutoff is the clamped knob, whatever the LFO is. -/
theorem conditionCutoff_of_depth_zero (h : l.cdepth = 0) :
    conditionCutoff l sr modv = min (max l.cutoff 20) (49 / 100 * sr) := by
  rw [conditionCutoff_eq, h, mul_zero, add_zero]

/-- Without a depth the resonance is the clamped knob, whatever the LFO is. -/
theorem conditionRes_of_depth_zero (h : l.rdepth = 0) : conditionRes l modv = min (max l.res (707 / 1000)) 20 := by
  rw [conditionRes_eq, h, mul_zero, add_zero]

end

/-- Settles O20: the state that COND leaves is the one before with three new wires, and neither of the first two sees the LFO through a
depth of 0. -/
theorem conditionerWritesNoRegister : Obligations.ConditionerWritesNoRegister := by
  refine ⟨rfl, fun _ => rfl, fun l sr m m' hc hr => ⟨?_, ?_⟩, fun H s hsr hcut hres hc hr => ⟨_, rfl, ?_, ?_⟩,
    fun H s hsr => ⟨_, rfl, Any.execCond_conditioned rfl hsr⟩⟩
  · rw [conditionCutoff_of_depth_zero hc, conditionCutoff_of_depth_zero hc]
  · rw [conditionRes_of_depth_zero hr, conditionRes_of_depth_zero hr]
  · refine (conditionCutoff_of_depth_zero hc).trans ?_
    norm_num [hsr, hcut]
  · have hq : conditionRes s.blk.latches s.blk.wires.modv = 707 / 1000 := by
      norm_num [conditionRes_of_depth_zero hr, hres]
    exact ⟨hq, (congrArg normalizeRes hq).trans normalizeRes_min⟩

/-! ### What the bounds guarantee to the filter units (R125) -/

section
variable {f sr q : ℝ}

/-- Below Nyquist the angle of the sections has a positive sine. -/
theorem sin_angle_pos (hf : 0 < f) (hsr : 0 < sr) (h : f ≤ 49 / 100 * sr) : 0 < Real.sin (angle Reference.num f sr) := by
  have hle := angle_le hsr h
  have hpi := Real.pi_pos
  exact Real.sin_pos_of_pos_of_lt_pi (angle_pos hf hsr) (by linarith)

/-- The sections' divisor `1 + alpha` exceeds 1. -/
theorem alphaOf_angle_pos (hf : 0 < f) (hsr : 0 < sr) (h : f ≤ 49 / 100 * sr) (hq : 0 < q) :
    0 < alphaOf Reference.num (angle Reference.num f sr) q :=
  div_pos (sin_angle_pos hf hsr h) (by linarith)

/-- The angle whose tangent is the gain of the state-variable filter is half that of the sections. -/
theorem pi_mul_div_eq (f sr : ℝ) : Real.pi * f / sr = angle Reference.num f sr / 2 := by
  rw [angle_eq]
  ring

/-- Below Nyquist that half angle lies short of the pole of the tangent. -/
theorem svfGain_pos (hf : 0 < f) (hsr : 0 < sr) (h : f ≤ 49 / 100 * sr) : 0 < svfGain Reference.num sr f := by
  have hpos := angle_pos hf hsr
  have hle := angle_le hsr h
  have hpi := Real.pi_pos
  refine Real.tan_pos_of_pos_of_lt_pi_div_two ?_ ?_ <;> rw [Reference.num_pi, pi_mul_div_eq] <;> linarith

/-- Below Nyquist a period has more than two samples. -/
theorem le_sampleRate_div (hf : 0 < f) (h : f ≤ 49 / 100 * sr) : 1 / (49 / 100) ≤ sr / f := by
  rw [le_div_iff₀ hf]
  linarith

end

/-- Settles O21: the bounds of the cutoff bound both angles short of the zero of the sine and the pole of the tangent, and the period
above two samples. -/
theorem clampGuarantees : Obligations.ClampGuarantees := by
  intro l sr modv hsr fc q
  obtain ⟨hlow, hhigh⟩ : 20 ≤ fc ∧ fc ≤ 49 / 100 * sr := conditionCutoff_mem l modv hsr
  obtain ⟨hq, -⟩ : 707 / 1000 ≤ q ∧ q ≤ 20 := conditionRes_mem l modv
  have hs := sr_pos hsr
  have hf : 0 < fc := by linarith
  have hq0 : 0 < q := by linarith
  have hpi := Real.pi_pos
  have hangle := angle_pos hf hs
  have hle := angle_le hs hhigh
  have hperiod := le_sampleRate_div hf hhigh
  refine ⟨⟨hangle, ?_, ?_, sin_angle_pos hf hs hhigh⟩, ⟨?_, ?_, ?_, svfGain_pos hf hs hhigh⟩,
    ⟨hq, hq0, alphaOf_angle_pos hf hs hhigh hq0⟩, hperiod, ?_⟩
  · rw [← angle_eq]
    linarith
  · linarith
  · rw [pi_mul_div_eq]
    linarith
  · rw [pi_mul_div_eq]
    linarith
  · linarith
  · linarith

end Sys2Proof.Machine
end

