-- ==== Sys2Proof/Proofs/SecondOrder.lean ====
section
/-! PROOF. Slot 5, modes 0 and 1 (42_filters_bq_svf_ladder.md R131 to R136). Under the half-angle formulas both designs are one rational
function of the integrator gain `g` and the damping `r`; stability and the equality of the two filters are read off that form.
-/

namespace Sys2Proof.Machine

open Sys2Proof

/-! ### The two designs by the same two numbers (R131, R134) -/

/-- The coefficients of the bilinear transform, prewarped at the cutoff, of the analog lowpass that R136 names. -/
def bilinearLowpass {S : Type} [Arith S] (g r : S) : Coeffs S where
  b0 := g * g / svfDen g r
  b1 := 2 * (g * g) / svfDen g r
  b2 := g * g / svfDen g r
  a1 := -2 * (1 - g * g) / svfDen g r
  a2 := (1 - 2 * r * g + g * g) / svfDen g r

section
variable {f sr q g r : ℝ}

theorem svfDamping_pos (hq : 0 < q) : 0 < svfDamping q := by
  rw [svfDamping]
  positivity

/-- The damping of the admitted resonances, as R134 quotes it. -/
theorem svfDamping_mem (hlow : 707 / 1000 ≤ q) (hhigh : q ≤ 20) : 25 / 1000 ≤ svfDamping q ∧ svfDamping q ≤ 70722 / 100000 := by
  have hq : 0 < 2 * q := by linarith
  rw [svfDamping, le_div_iff₀ hq, div_le_iff₀ hq]
  constructor <;> linarith

theorem one_lt_svfDen (hg : 0 < g) (hr : 0 < r) : 1 < svfDen g r := by
  have hrest : 0 < 2 * r * g + g * g := by positivity
  rw [svfDen]
  linarith

theorem svfDen_pos (hg : 0 < g) (hr : 0 < r) : 0 < svfDen g r := one_pos.trans (one_lt_svfDen hg hr)

/-- The sine of the sections' angle by the gain, the tangent of its half. -/
theorem sin_angle_eq (f sr : ℝ) :
    Real.sin (angle Reference.num f sr) = 2 * svfGain Reference.num sr f / (1 + svfGain Reference.num sr f ^ 2) := by
  rw [svfGain, Reference.num_tan, Reference.num_pi, pi_mul_div_eq]
  exact Real.sin_eq_two_mul_tan_half_div_one_add_tan_half_sq _

/-- The cosine likewise, below Nyquist, where the tangent has a value. -/
theorem cos_angle_eq (hf : 0 < f) (hsr : 0 < sr) (h : f ≤ 49 / 100 * sr) :
    Real.cos (angle Reference.num f sr) = (1 - svfGain Reference.num sr f ^ 2) / (1 + svfGain Reference.num sr f ^ 2) := by
  have hcos : Real.cos (angle Reference.num f sr) ≠ -1 :=
    fun hcos => (sin_angle_pos hf hsr h).ne' (Real.sin_eq_zero_iff_cos_eq.mpr (.inr hcos))
  rw [svfGain, Reference.num_tan, Reference.num_pi, pi_mul_div_eq]
  exact Real.cos_eq_two_mul_tan_half_div_one_sub_tan_half_sq _ hcos

theorem alphaOf_angle_eq (f sr q : ℝ) :
    alphaOf Reference.num (angle Reference.num f sr) q =
      2 * svfDamping q * svfGain Reference.num sr f / (1 + svfGain Reference.num sr f ^ 2) := by
  rw [alphaOf, Reference.num_sin, sin_angle_eq, svfDamping]
  ring

/-- The cookbook's lowpass is that bilinear transform. -/
theorem lowpassCoeffs_eq (hf : 0 < f) (hsr : 0 < sr) (h : f ≤ 49 / 100 * sr) (hq : 0 < q) :
    lowpassCoeffs Reference.num sr f q = bilinearLowpass (svfGain Reference.num sr f) (svfDamping q) := by
  have hden := svfDen_pos (svfGain_pos hf hsr h) (svfDamping_pos hq)
  simp only [lowpassCoeffs, bilinearLowpass, Reference.num_cos, alphaOf_angle_eq, cos_angle_eq hf hsr h]
  generalize svfGain Reference.num sr f = g at *
  generalize svfDamping q = r at *
  have ha0 : 1 + 2 * r * g / (1 + g ^ 2) = svfDen g r / (1 + g ^ 2) := by
    rw [svfDen]
    field_simp
    ring
  rw [ha0, Coeffs.mk.injEq]
  refine ⟨?_, ?_, ?_, ?_, ?_⟩ <;> field_simp <;> ring

end

/-! ### Conditioned settings -/

section
variable (l : Latches ℝ) {sr : ℝ} (modv : ℝ) (hsr : 20 / (49 / 100) ≤ sr)

theorem conditionRes_pos : 0 < conditionRes l modv := lt_of_lt_of_le (by norm_num) (conditionRes_mem l modv).1

include hsr

theorem conditionCutoff_pos : 0 < conditionCutoff l sr modv := lt_of_lt_of_le (by norm_num) (conditionCutoff_mem l modv hsr).1

theorem alphaOf_conditioned_pos :
    0 < alphaOf Reference.num (angle Reference.num (conditionCutoff l sr modv) sr) (conditionRes l modv) :=
  alphaOf_angle_pos (conditionCutoff_pos l modv hsr) (sr_pos hsr) (conditionCutoff_mem l modv hsr).2 (conditionRes_pos l modv)

theorem svfGain_conditioned_pos : 0 < svfGain Reference.num sr (conditionCutoff l sr modv) :=
  svfGain_pos (conditionCutoff_pos l modv hsr) (sr_pos hsr) (conditionCutoff_mem l modv hsr).2

theorem lowpassCoeffs_conditioned :
    lowpassCoeffs Reference.num sr (conditionCutoff l sr modv) (conditionRes l modv) =
      bilinearLowpass (svfGain Reference.num sr (conditionCutoff l sr modv)) (svfDamping (conditionRes l modv)) :=
  lowpassCoeffs_eq (conditionCutoff_pos l modv hsr) (sr_pos hsr) (conditionCutoff_mem l modv hsr).2 (conditionRes_pos l modv)

end

/-! ### The two filters are one (R136) -/

/-- The delay registers that stand for given integrator states: the change of state variables between the two filters. -/
def delaysOfSvf {S : Type} [Arith S] (g r : S) (v : SvfRegs S) : Delays S where
  z1 := (g * v.s1 + (1 + 2 * r * g) * v.s2) / svfDen g r
  z2 := (g * v.s1 - (1 - 2 * r * g) * v.s2) / svfDen g r

theorem delaysOfSvf_zero (g r : ℝ) : delaysOfSvf g r .zero = .zero := by simp [delaysOfSvf, SvfRegs.zero, Delays.zero]

section
variable {g r : ℝ} (hden : svfDen g r ≠ 0)
include hden

/-- In states that stand for each other the two filters give the same sample. -/
theorem sectionOut_delaysOfSvf (x : ℝ) (v : SvfRegs ℝ) :
    sectionOut (bilinearLowpass g r) x (delaysOfSvf g r v) = svfLp g r x v := by
  simp only [sectionOut, bilinearLowpass, delaysOfSvf, svfLp, svfBp, svfHp]
  field_simp
  rw [svfDen]
  ring

/-- A step of both leaves states that stand for each other. -/
theorem sectionNext_delaysOfSvf (x : ℝ) (v : SvfRegs ℝ) :
    sectionNext (bilinearLowpass g r) x (delaysOfSvf g r v) = delaysOfSvf g r (svfNext g r x v) := by
  simp only [sectionNext, sectionOut_delaysOfSvf hden]
  simp only [bilinearLowpass, delaysOfSvf, svfNext, svfLp, svfBp, svfHp, Delays.mk.injEq]
  constructor <;> field_simp <;> rw [svfDen] <;> ring

end

/-- Settles O25: the change of state variables commutes with a step on every input, so after any input the two states stand for each
other. -/
theorem stateVariableEqualsBiquad : Obligations.StateVariableEqualsBiquad := by
  intro l sr modv xs x hsr fc q c g r
  have hc : c = bilinearLowpass g r := lowpassCoeffs_conditioned l modv hsr
  have hden : svfDen g r ≠ 0 :=
    (svfDen_pos (svfGain_conditioned_pos l modv hsr) (svfDamping_pos (conditionRes_pos l modv))).ne'
  rw [hc, ← delaysOfSvf_zero g r, List.foldl_hom (delaysOfSvf g r) fun v x => sectionNext_delaysOfSvf hden x v,
    sectionOut_delaysOfSvf hden]

/-! ### Stability and gain of mode 0 (R133) -/

section
variable {g r : ℝ} (hg : 0 < g) (hr : 0 < r)
include hg hr

theorem abs_a2_bilinearLowpass_lt_one : |(bilinearLowpass g r).a2| < 1 := by
  have hden := svfDen_pos hg hr
  have hcross := mul_pos hr hg
  have hsquare := mul_pos hg hg
  rw [bilinearLowpass, abs_div, abs_of_pos hden, div_lt_one hden, abs_lt, svfDen]
  constructor <;> linarith

theorem one_add_a2_bilinearLowpass : 1 + (bilinearLowpass g r).a2 = 2 * (1 + g * g) / svfDen g r := by
  have hden := svfDen_pos hg hr
  rw [bilinearLowpass]
  field_simp
  rw [svfDen]
  ring

theorem abs_a1_bilinearLowpass_lt : |(bilinearLowpass g r).a1| < 1 + (bilinearLowpass g r).a2 := by
  have hden := svfDen_pos hg hr
  have hsquare := mul_pos hg hg
  rw [one_add_a2_bilinearLowpass hg hr, bilinearLowpass, abs_div, abs_of_pos hden]
  gcongr
  rw [abs_lt]
  constructor <;> linarith

theorem bilinearLowpass_gain_eq_one :
    ((bilinearLowpass g r).b0 + (bilinearLowpass g r).b1 + (bilinearLowpass g r).b2) /
      (1 + (bilinearLowpass g r).a1 + (bilinearLowpass g r).a2) = 1 := by
  have hden := svfDen_pos hg hr
  have hdivisor : 1 + (bilinearLowpass g r).a1 + (bilinearLowpass g r).a2 = 4 * (g * g) / svfDen g r := by
    rw [add_right_comm, one_add_a2_bilinearLowpass hg hr, bilinearLowpass]
    ring
  rw [hdivisor, bilinearLowpass, div_eq_one_iff_eq (by positivity)]
  ring

end

/-- Settles O23: the coefficients are those of `bilinearLowpass` at a positive gain and a positive damping. -/
theorem biquadStable : Obligations.BiquadStable := by
  intro l sr modv hsr c
  have hc : c = _ := lowpassCoeffs_conditioned l modv hsr
  have hg := svfGain_conditioned_pos l modv hsr
  have hr := svfDamping_pos (conditionRes_pos l modv)
  rw [hc]
  exact ⟨abs_a2_bilinearLowpass_lt_one hg hr, abs_a1_bilinearLowpass_lt hg hr, bilinearLowpass_gain_eq_one hg hr⟩

/-! ### FLT.BQ (R131, R132) -/

/-- The corner cases of R132: the first output from zero state is `b0 · x`, and silence leaves the section silent. -/
theorem section_of_zero (c : Coeffs ℝ) {x : ℝ} {d : Delays ℝ} (hd : d = .zero) :
    sectionOut c x d = c.b0 * x ∧ (x = 0 → sectionOut c x d = 0 ∧ sectionNext c x d = .zero) := by
  have hout : sectionOut c x d = c.b0 * x := hd ▸ add_zero _
  refine ⟨hout, fun hx => ?_⟩
  have hsilent : sectionOut c x d = 0 := by rw [hout, hx, mul_zero]
  exact ⟨hsilent, by rw [sectionNext, hsilent, hx, hd]; simp [Delays.zero]⟩

/-- Settles O22: the output and the registers are those of one section step. -/
theorem biquadLowpass : Obligations.BiquadLowpass := by
  refine ⟨rfl, fun _ => rfl, fun l sr modv => alphaOf_conditioned_pos l modv, fun H s hH => ?_⟩
  rw [← hH]
  exact ⟨_, rfl, rfl, rfl, section_of_zero (lowpassCoeffs H.num s.sr s.blk.wires.fc s.blk.wires.q)⟩

/-! ### FLT.SVF (R134, R135) -/

theorem svfLp_zero (g r : ℝ) : svfLp g r 0 .zero = 0 := by simp [svfLp, svfBp, svfHp, SvfRegs.zero]

theorem svfNext_zero (g r : ℝ) : svfNext g r 0 .zero = .zero := by simp [svfNext, svfLp, svfBp, svfHp, SvfRegs.zero]

/-- The gain of the example of R135: the cutoff is a quarter of the sample rate. -/
theorem svfGain_quarter : svfGain Reference.num 48000 12000 = 1 := by
  rw [svfGain, Reference.num_tan, Reference.num_pi, ← Real.tan_pi_div_four]
  congr 1
  ring

/-- Settles O24: the output and the states are those of one step of the two integrators; the rest is the range of gain and damping, and
the example in numbers. -/
theorem stateVariableLowpass : Obligations.StateVariableLowpass := by
  refine ⟨rfl, fun _ => rfl, fun H s hH => ?_, fun l sr modv hsr => ?_, fun g r => ⟨svfLp_zero g r, svfNext_zero g r⟩,
    svfGain_quarter, ?_⟩
  · rw [← hH]
    exact ⟨_, rfl, rfl, rfl⟩
  · have hg := svfGain_conditioned_pos l modv hsr
    obtain ⟨hq, hq'⟩ := conditionRes_mem l modv
    obtain ⟨hlow, hhigh⟩ := svfDamping_mem hq hq'
    exact ⟨hg, hlow, hhigh, one_lt_svfDen hg (svfDamping_pos (conditionRes_pos l modv))⟩
  · norm_num [svfNext, svfLp, svfBp, svfHp, svfDen, svfDamping, SvfRegs.zero]

end Sys2Proof.Machine
end

