-- ==== Sys2Proof/Proofs/Ladder.lean ====
section
/-! PROOF. Slot 5, mode 2 (42_filters_bq_svf_ladder.md R137 to R139): the four stages written out, the range of the coefficients, and
the ladder at rest.
-/

namespace Sys2Proof.Machine

open Sys2Proof

/-! ### The registers at rest and in range (R139, 10_state.md R27) -/

theorem ladStage_zero (gl : ℝ) : ladStage Reference.num gl 0 0 = 0 := by simp [ladStage]

theorem ladCascade_replicate_zero (gl : ℝ) (n : Nat) :
    ladCascade Reference.num gl 0 (List.replicate n 0) = List.replicate n 0 := by
  induction n with
  | zero => rfl
  | succ n ih => rw [List.replicate_succ, ladCascade, ladStage_zero, ih]

/-- At rest the feedback is 0 whatever its amount is. -/
theorem ladNext_zero (gl k : ℝ) : ladNext Reference.num gl k 0 LadRegs.zero = LadRegs.zero := by
  have hfed : 0 - k * ladLast (LadRegs.zero : LadRegs ℝ) = 0 := by
    rw [show ladLast (LadRegs.zero : LadRegs ℝ) = 0 from rfl, mul_zero, sub_zero]
  apply Vector.toList_inj.mp
  show ladCascade _ gl (0 - k * ladLast LadRegs.zero) (List.replicate _ 0) = List.replicate _ 0
  rw [hfed, ladCascade_replicate_zero]

/-- Settles O27: each stage moves toward a tanh, at most all the way; and one step at rest leaves the ladder at rest. -/
theorem ladderStaysBounded : Obligations.LadderStaysBounded := by
  refine ⟨fun sr fc k x r hsr hfc hr => LadRegs.bounded_ladNext hr (ladCoeff_mem hsr hfc.le) k x, fun gl k n => ?_⟩
  induction n with
  | zero => rfl
  | succ n ih => rw [List.range_succ, List.foldl_concat, ih, ladNext_zero]

/-! ### FLT.LAD (R137, R138) -/

/-- The four registers in order. -/
theorem LadRegs.toList_eq {S : Type} (r : LadRegs S) : r.toList = [r[0], r[1], r[2], r[3]] := by
  obtain ⟨⟨l⟩, hl⟩ := r
  match l, hl with
  | [_, _, _, _], _ => rfl

theorem ladCoeff_pos {sr fc : ℝ} (hsr : 0 < sr) (hfc : 0 < fc) : 0 < ladCoeff Reference.num sr fc := by
  refine sub_pos.mpr (exp_neg_lt_one ?_)
  rw [Reference.num_twoPi, neg_mul, neg_div]
  exact neg_neg_of_pos (by positivity)

theorem ladCoeff_lt_one (sr fc : ℝ) : ladCoeff Reference.num sr fc < 1 := sub_lt_self 1 (Real.exp_pos _)

/-- Settles O26: the cascade over the four registers, stage by stage, and the coefficients at the bounds of COND. -/
theorem ladderCascade : Obligations.LadderCascade := by
  refine ⟨rfl, fun s => ?_, fun H s hH => ?_, fun l sr modv hsr => ?_⟩
  · show Any.execFltLad Config.hardware s = _
    simp only [Any.execFltLad, ladNext, LadRegs.toList_eq, ladCascade]
    rfl
  · rw [← hH]
    exact ⟨_, rfl, rfl, rfl⟩
  · obtain ⟨hq, hq'⟩ := conditionRes_mem l modv
    obtain ⟨hlow, hhigh⟩ := normalizeRes_mem hq hq'
    rw [ladFeedback_eq]
    exact ⟨ladCoeff_pos (sr_pos hsr) (conditionCutoff_pos l modv hsr), ladCoeff_lt_one _ _, by positivity, by linarith⟩

end Sys2Proof.Machine
end

