-- ==== Sys2Proof/Proofs/Vowel.lean ====
section
/-! PROOF. Slot 5, mode 3 (43_filters_vowel_comb_ring.md R150 to R152): the row that a vowel selects, the three sections written out, and
the bounds of a formant's frequency, quality factor and gain.
-/

namespace Sys2Proof.Machine

open Sys2Proof

/-! ### The bank over its three sections (R152) -/

/-- A vowel in 0..4 selects the row of its number (30_encoding.md R77). -/
theorem vowelRow_val : ∀ v : Fin Config.N_VOWELS, vowelRow (v.val : Int) = some v := by decide

section
variable {S : Type} [Arith S] (H : Hardware S)

/-- FLT.VOW completes for every vowel in 0..4. -/
theorem Any.execFltVow_of_vowel {s : Any.State S} {v : Fin Config.N_VOWELS} (h : s.blk.latches.vowel = (v.val : Int)) :
    Any.execFltVow H s =
      .next
        { s.passWet
            (formantSum H s.sr s.blk.wires.fc s.blk.wires.q s.blk.wires.x v s.fmt * formantGain s.blk.wires.nres) with
          fmt := formantNext H s.sr s.blk.wires.fc s.blk.wires.q s.blk.wires.x v s.fmt } := by
  rw [Any.execFltVow, h, vowelRow_val]

variable (sr fc q x : S) (v : Fin Config.N_VOWELS) (z : FmtRegs S)

/-- The sum in formant order, starting from 0. -/
theorem formantSum_eq :
    formantSum H sr fc q x v z =
      (0 : S) + sectionOut (formantCoeffs H sr fc q v 0) x z[0] + sectionOut (formantCoeffs H sr fc q v 1) x z[1] +
        sectionOut (formantCoeffs H sr fc q v 2) x z[2] := rfl

/-- A step of the bank is a step of each section. -/
theorem getElem_formantNext (f : Fin Config.N_FORMANTS) :
    (formantNext H sr fc q x v z)[f] = sectionNext (formantCoeffs H sr fc q v f) x z[f] := by
  rw [formantNext]
  exact Vector.getElem_ofFn f.isLt

/-- The three sections in order. -/
theorem formantNext_eq :
    formantNext H sr fc q x v z =
      #v[sectionNext (formantCoeffs H sr fc q v 0) x z[0], sectionNext (formantCoeffs H sr fc q v 1) x z[1],
        sectionNext (formantCoeffs H sr fc q v 2) x z[2]] := by
  exact Vector.toList_inj.mp rfl

end

/-- On the reals the order of the sum does not matter. -/
theorem formantSum_eq_sum (H : Hardware ℝ) (sr fc q x : ℝ) (v : Fin Config.N_VOWELS) (z : FmtRegs ℝ) :
    formantSum H sr fc q x v z = ∑ f : Fin Config.N_FORMANTS, sectionOut (formantCoeffs H sr fc q v f) x z[f] := by
  rw [formantSum_eq, zero_add, Fin.sum_univ_three]
  rfl

/-! ### The formants (R150, R151) -/

theorem formantRatio_pos (fc : ℝ) : 0 < formantRatio Reference.num fc := by
  rw [formantRatio_eq]
  exact Real.rpow_pos_of_pos two_pos _

/-- At VOW_REF the table frequencies are used unshifted. -/
theorem formantRatio_reference : formantRatio Reference.num 1000 = 1 := by
  rw [formantRatio_eq, sub_self, zero_div, Real.rpow_zero]

/-- A cutoff higher by VOW_OCT is one octave. -/
theorem formantRatio_add_octave (fc : ℝ) : formantRatio Reference.num (fc + 1000) = formantRatio Reference.num fc * 2 := by
  rw [formantRatio_eq, formantRatio_eq, ← Real.rpow_add_one two_ne_zero]
  congr 1
  ring

section
variable {sr : ℝ} (fc : ℝ) {q : ℝ} (e : Formant ℝ)

/-- A positive table frequency times a positive ratio needs no lower clamp. -/
theorem formantFreq_pos (hsr : 0 < sr) : 0 < formantFreq Reference.num sr fc e := by
  rw [formantFreq, lit_CUT_MAX_FRAC]
  exact lt_min (mul_pos e.freq_pos (formantRatio_pos fc)) (by positivity)

theorem formantFreq_le : formantFreq Reference.num sr fc e ≤ 49 / 100 * sr := by
  rw [formantFreq, lit_CUT_MAX_FRAC]
  exact min_le_right _ _

theorem formantQ_pos (hq : 0 < q) : 0 < formantQ q e := by
  rw [formantQ, lit_VOW_QSCALE]
  exact mul_pos (mul_pos e.tq_pos hq) (by norm_num)

end

/-- A normalized resonance is a gain between 1 and 4. -/
theorem formantGain_mem {nres : ℝ} (h0 : 0 ≤ nres) (h1 : nres ≤ 1) : 1 ≤ formantGain nres ∧ formantGain nres ≤ 4 := by
  rw [formantGain_eq]
  constructor <;> linarith

/-! ### FLT.VOW (R152) -/

/-- Settles O28: the bank is its three sections in order; a formant's frequency is bounded as a cutoff is. -/
theorem vowelFormantBank : Obligations.VowelFormantBank := by
  refine ⟨rfl, fun s v hv => ?_, fun H s v _ hv => ?_, fun l sr modv e hsr => ?_, formantRatio_eq, formantRatio_reference,
    formantRatio_add_octave⟩
  · show Any.execFltVow Config.hardware s = _
    rw [Any.execFltVow_of_vowel Config.hardware hv, formantSum_eq, formantNext_eq]
    rfl
  · refine ⟨_, Any.execFltVow_of_vowel H hv, getElem_formantNext H _ _ _ _ v s.fmt, ?_⟩
    rw [← formantSum_eq_sum, ← formantGain_eq]
    rfl
  · intro ff
    have hs := sr_pos hsr
    have hpos : 0 < ff := formantFreq_pos _ e hs
    have hle : ff ≤ 49 / 100 * sr := formantFreq_le _ e
    obtain ⟨hq, hq'⟩ := conditionRes_mem l modv
    obtain ⟨hlow, hhigh⟩ := normalizeRes_mem hq hq'
    refine ⟨angle_pos hpos hs, (angle_le hs hle).trans_eq (by ring), ?_, formantGain_mem hlow hhigh⟩
    exact alphaOf_angle_pos hpos hs hle (formantQ_pos e (conditionRes_pos l modv))

end Sys2Proof.Machine
end

