-- ==== Sys2Proof/Proofs/Comb.lean ====
section
/-! PROOF. Slot 5, mode 4 (43_filters_vowel_comb_ring.md R154 to R157): the range of the delay, the ring of slots that the delayed sample
is read from, and the recursion that a whole delay gives.
-/

namespace Sys2Proof.Machine

open Sys2Proof

/-! ### The delay (R154) -/

section
variable {sr fc : ℝ}

/-- The delay with the capacity of this hardware. -/
theorem combDelay_capacity (sr fc : ℝ) : combDelay sr fc 4096 = min (max (sr / fc) 1) 4095 := by
  norm_num [combDelay_eq]

/-- The lower clamp never acts on a period of one sample or more. -/
theorem combDelay_of_one_le (h : 1 ≤ sr / fc) : combDelay sr fc 4096 = min (sr / fc) 4095 := by
  rw [combDelay_capacity, max_eq_left h]

/-- The upper clamp acts above 4095 samples, and at no other period. -/
theorem combDelay_lt_iff (h : 1 ≤ sr / fc) : combDelay sr fc 4096 < sr / fc ↔ 4095 < sr / fc := by
  rw [combDelay_of_one_le h, min_lt_iff, or_iff_right (lt_irrefl _)]

end

/-- Settles O29: a conditioned cutoff is below Nyquist, so its period has more than two samples and only the upper clamp can act. -/
theorem combDelayRange : Obligations.CombDelayRange := by
  refine ⟨fun l sr modv hsr => ?_, ?_, ?_, ?_, ?_⟩
  · intro fc
    obtain ⟨hlow, hhigh⟩ : 20 ≤ fc ∧ fc ≤ 49 / 100 * sr := conditionCutoff_mem l modv hsr
    have hfc : 0 < fc := by linarith
    have hperiod : 204 / 100 < sr / fc := lt_of_lt_of_le (by norm_num) (le_sampleRate_div hfc hhigh)
    have hone : 1 ≤ sr / fc := by linarith
    refine ⟨combDelay_capacity sr fc, combDelay_of_one_le hone, ?_, ?_, combDelay_lt_iff hone, lt_div_comm₀ (by norm_num) hfc, ?_⟩
    · rw [combDelay_of_one_le hone]
      exact lt_min hperiod (by norm_num)
    · rw [combDelay_capacity]
      exact min_le_right _ _
    · intro hclamped
      rw [lt_div_iff₀ hfc] at hclamped
      linarith
  all_goals norm_num [combDelay_capacity]

/-! ### The slots of the ring (R155) -/

/-- A residue is the only index of the ring that differs by whole turns. -/
theorem residue_eq_iff {m w : Nat} (hw : w < m) (a : Int) : residue a m = w ↔ (m : Int) ∣ a - w := by
  have hm : 0 < (m : Int) := by omega
  have hnonneg := Int.emod_nonneg a hm.ne'
  constructor
  · intro h
    exact Int.dvd_self_sub_of_emod_eq (by rw [residue] at h; omega)
  · intro h
    have heq : a % m = w % m := Int.emod_eq_emod_iff_emod_sub_eq_zero.mpr (Int.emod_eq_zero_of_dvd h)
    rw [residue, heq, Int.emod_eq_of_lt (by omega) (by omega), Int.toNat_natCast]

/-- Fewer than `cap` slots back from the cursor, only the cursor itself is the cursor. -/
theorem residue_cursor_sub_eq_iff {cap w k : Nat} (hw : w < cap) (hk : k < cap) : residue ((w : Int) - k) cap = w ↔ k = 0 := by
  rw [residue_eq_iff hw, sub_sub_cancel_left, dvd_neg, Int.natCast_dvd_natCast]
  exact ⟨fun h => Nat.eq_zero_of_dvd_of_lt h hk, fun h => h ▸ dvd_zero cap⟩

/-- The read position of R155: between three samples and one turn before the cursor. -/
theorem floor_readPosition_mem {w : Nat} {delay : ℝ} (hlow : 2 < delay) (hhigh : delay ≤ 4095) :
    (w : Int) - 4095 ≤ ⌊(w : ℝ) - delay⌋ ∧ ⌊(w : ℝ) - delay⌋ ≤ (w : Int) - 3 := by
  constructor
  · rw [Int.le_floor]
    push_cast
    linarith
  · rw [← Int.lt_add_one_iff, Int.floor_lt]
    push_cast
    linarith

/-- Settles O30: both slots lie two to 4095 slots back from the cursor, so a turn of the ring brings neither to the cursor nor to the slot
before it. -/
theorem combReadsOldSlots : Obligations.CombReadsOldSlots := by
  refine ⟨fun c delay hw hlow hhigh => ⟨_, _, rfl, rfl, ?_, ?_, rfl, ?_⟩, ?_, ?_, rfl, rfl⟩
  · exact Int.fract_nonneg _
  · exact Int.fract_lt_one _
  · obtain ⟨hfirst, hlast⟩ := floor_readPosition_mem (w := c.w) hlow hhigh
    generalize ⌊(c.w : ℝ) - delay⌋ = i0 at hfirst hlast ⊢
    omega
  · rw [Int.floor_eq_iff]
    norm_num
  · norm_num

/-! ### One step (R156, R157) -/

section
variable {S : Type} [Arith S] [DecidableEq S] (cap : Nat) (y : S) (c : CombRegs S)

theorem CombRegs.read_combNext_same : (combNext cap y c).read c.w = y := Memory.read_write_same _ _ _ _

theorem CombRegs.read_combNext_other {i : Nat} (h : i ≠ c.w) : (combNext cap y c).read i = c.read i := Memory.read_write_other _ _ _ h

/-- One slot more back from the advanced cursor is the same slot, across the wrap too. -/
theorem residue_combNext_sub (k : Nat) :
    residue (((combNext cap y c).w : Int) - (k + 1 : Nat)) cap = residue ((c.w : Int) - k) cap := by
  show residue ((((c.w + 1) % cap : Nat) : Int) - (k + 1 : Nat)) cap = _
  rw [residue, residue, Int.natCast_mod, Int.emod_sub_emod]
  push_cast
  rw [add_sub_add_right_eq_sub]

end

/-- The output of R156 on the reals. -/
theorem combOut_eq (N : Num ℝ) (cap : Nat) (sr fc nres x : ℝ) (c : CombRegs ℝ) :
    combOut N cap sr fc nres x c = x + 99 / 100 * nres * combDelayed N cap (combDelay sr fc cap) c := by
  simp [combOut, combFeedback]

/-- Settles O31: the stored value is the output, and the store is one write of the buffer. -/
theorem combFilter : Obligations.CombFilter := by
  refine ⟨rfl, fun s hcap hw => ⟨_, combNext 4096 _ s.comb, ?_, rfl, CombRegs.read_combNext_same _ _ _,
    fun i => CombRegs.read_combNext_other _ _ _, ?_, Memory.wf_write _ _ _ _⟩, fun H s hH hcap => ?_⟩
  · rw [← hcap]
    rfl
  · show (s.comb.w + 1) % 4096 = _
    split <;> omega
  · rw [← hH, ← hcap]
    exact ⟨_, rfl, combOut_eq _ _ _ _ _ _ _, rfl⟩

/-- Settles O32: at the least resonance the feedback is 0, whatever is read from the buffer. -/
theorem combZeroFeedbackIsDry : Obligations.CombZeroFeedbackIsDry := by
  intro H s hnres
  have hout : combOut H.num s.cap s.sr s.blk.wires.fc s.blk.wires.nres s.blk.wires.x s.comb = s.blk.wires.x := by
    rw [combOut_eq, hnres, normalizeRes_min, mul_zero, zero_mul, add_zero]
  exact ⟨_, rfl, hout, (CombRegs.read_combNext_same _ _ _).trans hout⟩

/-! ### Any number of steps (R156) -/

/-- The registers after comb steps that stored the values `ys`. -/
def combRun {S : Type} [Arith S] [DecidableEq S] (cap : Nat) (ys : List S) (c : CombRegs S) : CombRegs S :=
  ys.foldl (fun c y => combNext cap y c) c

section
variable {S : Type} [Arith S] [DecidableEq S] {cap : Nat} {c : CombRegs S}

theorem combRun_concat (ys : List S) (y : S) : combRun cap (ys ++ [y]) c = combNext cap y (combRun cap ys c) := List.foldl_concat ..

theorem combRun_w_lt (hw : c.w < cap) (ys : List S) : (combRun cap ys c).w < cap := by
  induction ys using List.reverseRecOn with
  | nil => exact hw
  | append_singleton ys y ih =>
    rw [combRun_concat]
    exact Nat.mod_lt _ (Nat.zero_lt_of_lt hw)

/-- Up to a whole turn back from the cursor stand the values stored last: each later store went to another slot. -/
theorem read_combRun (hw : c.w < cap) (ys : List S) {k : Nat} (hk : k < ys.length) (hcap : k < cap) :
    (combRun cap ys c).read (residue (((combRun cap ys c).w : Int) - (k + 1 : Nat)) cap) = ys.getD (ys.length - (k + 1)) 0 := by
  induction ys using List.reverseRecOn generalizing k with
  | nil => exact absurd hk (Nat.not_lt_zero k)
  | append_singleton ys y ih =>
    have hslot := residue_cursor_sub_eq_iff (combRun_w_lt hw ys) hcap
    rw [List.length_append, List.length_singleton] at hk ⊢
    rw [combRun_concat, Nat.add_sub_add_right, residue_combNext_sub]
    cases k with
    | zero => rw [hslot.mpr rfl, CombRegs.read_combNext_same]; simp
    | succ k =>
      rw [CombRegs.read_combNext_other _ _ _ (mt hslot.mp (Nat.succ_ne_zero k)), ih (by omega) (by omega)]
      exact (List.getD_append _ _ _ _ (by omega)).symm

end

/-- A whole delay reads one slot: the fraction is 0. -/
theorem combDelayed_natCast (cap d : Nat) (c : CombRegs ℝ) :
    combDelayed Reference.num cap (d : ℝ) c = c.read (residue ((c.w : Int) - d) cap) := by
  have hposition : ((c.w : Int) : ℝ) - d = (((c.w : Int) - d : Int) : ℝ) := by push_cast; rfl
  simp only [combDelayed, ofInt, hposition, Reference.num_floor, Int.floor_intCast, sub_self, zero_mul, add_zero]

/-- Settles O33: a whole delay reads the slot that many steps back, which no later step has written. -/
theorem combRecursion : Obligations.CombRecursion := by
  intro d ys c hw hlow hhigh hlen e
  obtain ⟨k, rfl⟩ : ∃ k, d = k + 1 := ⟨d - 1, by omega⟩
  exact (combDelayed_natCast 4096 (k + 1) e).trans (read_combRun hw ys hlen (by omega))

end Sys2Proof.Machine
end

