-- ==== Sys2Proof/Proofs/Ring.lean ====
section
/-! PROOF. Slot 5, mode 5 (43_filters_vowel_comb_ring.md R158 to R162): the oscillator and the crossfade on the reference, the range of the
phase, and the phase after any number of steps as an angle.
-/

namespace Sys2Proof.Machine

open Sys2Proof

/-! ### The signals and the crossfade (R158, R159) -/

section
variable (phase : ℝ)

theorem ringSignal_eq : ringSignal Reference.num phase = Real.sin phase := rfl

/-- The unipolar signal is the sine shape of the LFO (R158: "the same map"). -/
theorem amSignal_eq_shapeSin : amSignal Reference.num phase = shapeSin Reference.num phase := rfl

theorem ringModulator_zero : ringModulator Reference.num phase 0 = shapeSin Reference.num phase := by
  rw [ringModulator, sub_zero, one_mul, zero_mul, add_zero, amSignal_eq_shapeSin]

theorem ringModulator_one : ringModulator Reference.num phase 1 = Real.sin phase := by
  rw [ringModulator, sub_self, zero_mul, zero_add, one_mul, ringSignal_eq]

/-- The crossfade moves the middle of the sine to 0 and its amplitude to 1. -/
theorem ringModulator_eq (nres : ℝ) :
    ringModulator Reference.num phase nres = (1 - nres) / 2 + (1 + nres) / 2 * Real.sin phase := by
  rw [ringModulator, amSignal, ringSignal_eq]
  ring

/-- A convex combination of two signals in [−1, 1]. -/
theorem ringModulator_mem {nres : ℝ} (h0 : 0 ≤ nres) (h1 : nres ≤ 1) :
    -1 ≤ ringModulator Reference.num phase nres ∧ ringModulator Reference.num phase nres ≤ 1 := by
  have hlow := mul_le_mul_of_nonneg_left (Real.neg_one_le_sin phase) (by linarith : 0 ≤ (1 + nres) / 2)
  have hhigh := mul_le_mul_of_nonneg_left (Real.sin_le_one phase) (by linarith : 0 ≤ (1 + nres) / 2)
  rw [ringModulator_eq]
  constructor <;> linarith

end

theorem sin_three_pi_div_two : Real.sin (3 * Real.pi / 2) = -1 := by
  have hzero := shapeSin_three_pi_div_two
  rw [shapeSin_eq] at hzero
  linarith

/-! ### The phase (R160, R161) -/

section
variable (l : Latches ℝ) {sr : ℝ} (modv : ℝ) (hsr : 20 / (49 / 100) ≤ sr)
include hsr

/-- A conditioned cutoff is an increment of less than half a turn. -/
theorem phaseInc_conditioned_mem :
    0 < phaseInc Reference.num (conditionCutoff l sr modv) sr ∧
      phaseInc Reference.num (conditionCutoff l sr modv) sr ≤ 98 / 100 * Real.pi := by
  have hle := angle_le (sr_pos hsr) (conditionCutoff_mem l modv hsr).2
  rw [phaseInc_eq, ← angle_eq]
  exact ⟨angle_pos (conditionCutoff_pos l modv hsr) (sr_pos hsr), by linarith⟩

end

theorem advancePhase_of_lt {phase inc : ℝ} (h : phase + inc < 2 * Real.pi) : advancePhase Reference.num phase inc = phase + inc := by
  rw [Reference.advancePhase_eq, if_neg (not_le.mpr h)]

/-- The example of R160: four quarter turns. -/
theorem advancePhase_quarter_turns :
    advancePhase Reference.num 0 (Real.pi / 2) = Real.pi / 2 ∧ advancePhase Reference.num (Real.pi / 2) (Real.pi / 2) = Real.pi ∧
      advancePhase Reference.num Real.pi (Real.pi / 2) = 3 * Real.pi / 2 ∧
      advancePhase Reference.num (3 * Real.pi / 2) (Real.pi / 2) = 0 := by
  have hpi := Real.pi_pos
  refine ⟨?_, ?_, ?_, advancePhase_of_eq_two_pi (by ring)⟩
  all_goals
    rw [advancePhase_of_lt (by linarith)]
    ring

/-- Settles O35: an increment of less than a turn keeps the phase in range. -/
theorem ringPhaseStaysInRange : Obligations.RingPhaseStaysInRange := by
  intro l sr modv phase hsr h0 h1 rinc
  obtain ⟨hpos, hle⟩ : 0 < rinc ∧ rinc ≤ 98 / 100 * Real.pi := phaseInc_conditioned_mem l modv hsr
  have hturn : 98 / 100 * Real.pi < 2 * Real.pi := by linarith [Real.pi_pos]
  exact ⟨hpos, hle, hturn, advancePhase_mem h0 h1 hpos.le (by linarith)⟩

/-! ### FLT.RING (R160) -/

/-- Settles O34: the wet sample is read at the old phase; the ranges are those of the sine, and the examples its values at quarter turns. -/
theorem ringModulatorUnit : Obligations.RingModulatorUnit := by
  refine ⟨rfl, fun s => ?_, fun H s hH => ?_, fun phase => ?_, fun phase nres => ringModulator_mem phase,
    fun l sr modv => phaseInc_conditioned_mem l modv, fun nres => ?_, ?_, ?_⟩
  · show Any.execFltRing Config.hardware s = _
    rw [Any.execFltRing, advancePhase_eq]
    rfl
  · rw [← hH]
    exact ⟨_, rfl, rfl, rfl⟩
  · obtain ⟨hlow, hhigh⟩ := shapeSin_mem phase
    exact ⟨rfl, rfl, Real.neg_one_le_sin phase, Real.sin_le_one phase, hlow, hhigh, ringModulator_zero phase, ringModulator_one phase⟩
  · rw [ringModulator_eq, Real.sin_zero, mul_zero, add_zero]
  · rw [phaseInc_eq]
    ring
  · obtain ⟨hfirst, hsecond, hthird, hfourth⟩ := advancePhase_quarter_turns
    refine ⟨hfirst, hsecond, hthird, hfourth, ?_⟩
    norm_num [ringModulator_eq, sin_three_pi_div_two]

/-! ### Any number of steps (R162) -/

/-- The wrap does not change the angle. -/
theorem coe_advancePhase (phase inc : ℝ) : ((advancePhase Reference.num phase inc : ℝ) : Real.Angle) = phase + inc := by
  rw [Reference.advancePhase_eq]
  split
  · rw [Real.Angle.coe_sub, Real.Angle.coe_two_pi, sub_zero, Real.Angle.coe_add]
  · rw [Real.Angle.coe_add]

/-- From phase 0 the angle after `n` steps is `n` increments. -/
theorem coe_advancePhase_iterate (inc : ℝ) (n : Nat) :
    (((fun p => advancePhase Reference.num p inc)^[n] 0 : ℝ) : Real.Angle) = (n * inc : ℝ) := by
  induction n with
  | zero => simp
  | succ n ih =>
    rw [Function.iterate_succ_apply', coe_advancePhase, ih, ← Real.Angle.coe_add]
    push_cast
    rw [add_one_mul]

/-- Settles O36: at full resonance the modulator is the sine of the phase, which depends on the angle alone. -/
theorem ringScenarioIsSine : Obligations.RingScenarioIsSine := by
  intro f sr n _ _ N
  rw [one_mul, normalizeRes_max, ringModulator_one, ← Real.Angle.sin_coe, coe_advancePhase_iterate, Real.Angle.sin_coe, phaseInc_eq]
  congr 1
  ring

end Sys2Proof.Machine
end

