-- ==== Sys2Proof/Proofs/Mixer.lean ====
section
/-! PROOF. Slot 6, the mixer (44_mixer_and_sample_step.md R170).
-/

namespace Sys2Proof.Machine

open Sys2Proof

/-- MIX with both outputs bound: the two stores. -/
theorem Any.execMix_of_bound {S : Type} [Arith S] [DecidableEq S] {s : Any.State S} {left right : Source}
    (hl : s.ports.aoutL = some left) (hr : s.ports.aoutR = some right) :
    Any.execMix s = .next (s.writeOut left right s.blk.n (mixOut s.blk.latches.mix s.blk.wires.wet s.blk.wires.x)) := by
  simp only [Any.execMix, hl, hr]

/-- Settles O37: the two stores of MIX are the whole next state; at the ends of the crossfade one factor is 0 and the other 1. -/
theorem mixWritesBothOutputs : Obligations.MixWritesBothOutputs := by
  refine ⟨rfl, ?_, fun m wet x => rfl, ?_, by norm_num [mixOut]⟩
  · intro s left right hl hr out
    refine ⟨_, Any.execMix_of_bound hl hr, fun t ht => ?_⟩
    have hread := fun a => (Any.State.hostRead_congr ht a).trans (s.hostRead_writeOut left right s.blk.n out a)
    refine ⟨?_, ?_, fun a hleft hright => ?_⟩
    · rw [hread, if_pos (.inl rfl)]
    · rw [hread, if_pos (.inr rfl)]
    · rw [hread, if_neg (not_or.mpr ⟨hleft, hright⟩)]
  · exact fun wet x => ⟨by simp [mixOut], by simp [mixOut]⟩

end Sys2Proof.Machine
end

