-- ==== Sys2Proof/Proofs/Slots.lean ====
section
/-! PROOF. The seven operations of a sample step one after another (30_encoding.md R79, 44_mixer_and_sample_step.md R173): which operation
a slot runs, in slots 0 and 5 by its selector, and how several operations follow each other.
-/

namespace Sys2Proof.Machine

open Sys2Proof

variable {S : Type}

/-! ### Parts of a step -/

@[simp] theorem Any.andThen_next_right (o : Any.Outcome S) : Any.andThen o .next = o := by cases o <;> rfl

/-- What follows a part of a step matters only in the state that the part leaves. -/
theorem Any.andThen_congr {o : Any.Outcome S} {f g : Any.State S → Any.Outcome S} (h : ∀ t, o = .next t → f t = g t) :
    Any.andThen o f = Any.andThen o g := by
  cases o with
  | next t => exact h t rfl
  | fault r => rfl
  | refused r => rfl

section
variable (meaning : Instr S → Any.State S → Any.Outcome S) (s : Any.State S)

theorem runSlots_succ (k : Nat) :
    runSlots meaning (k + 1) s = Any.andThen (runOperation meaning s) (runSlots meaning k) := rfl

@[simp] theorem runSlots_one : runSlots meaning 1 s = runOperation meaning s := Any.andThen_next_right _

theorem runSlots_add (j k : Nat) : runSlots meaning (j + k) s = Any.andThen (runSlots meaning j s) (runSlots meaning k) := by
  induction j generalizing s with
  | zero => rw [Nat.zero_add]; rfl
  | succ j ih => rw [Nat.add_right_comm, runSlots_succ, funext ih, runSlots_succ, Any.andThen_assoc]

end

/-! ### The operation of a slot -/

/-- A selector of three bits has its own field. -/
theorem selectorField_toNat (f : BitVec 3) : selectorField f.toNat = some f := by
  have := f.isLt
  simp [selectorField]
  omega

section
variable {meaning : Instr S → Any.State S → Any.Outcome S} {s : Any.State S} {f : BitVec 3} {i : Instr S}

/-- Slot 0 runs the operation that `L_SHAPE` selects (30_encoding.md R75). -/
theorem runOperation_shape (hslot : s.blk.slot = .lfo) (hf : s.blk.latches.shape = f.toNat) (hd : decode (.shape f) = .ok i) :
    runOperation meaning s = meaning i s :=
  runOperation_eq (c := .shape f) (by simp [Block.code, hslot, hf, selectorField_toNat]) hd

/-- Slot 5 runs the operation that `L_MODE` selects (30_encoding.md R76). -/
theorem runOperation_mode (hslot : s.blk.slot = .flt) (hf : s.blk.latches.mode = f.toNat) (hd : decode (.mode f) = .ok i) :
    runOperation meaning s = meaning i s :=
  runOperation_eq (c := .mode f) (by simp [Block.code, hslot, hf, selectorField_toNat]) hd

/-- Every other slot runs the operation of its number (30_encoding.md R79); the numbers of slots 0 and 5 alone spell none. -/
theorem runOperation_slot {slot : Slot} (hslot : s.blk.slot = slot) (hd : decode (.slot slot.number) = .ok i) :
    runOperation meaning s = meaning i s := by
  refine runOperation_eq (c := .slot slot.number) ?_ hd
  cases slot with
  | lfo | flt => cases hd
  | adv | stepq | slew | cond | mix => simp [Block.code, hslot]

end

/-! ### What the operations of a slot do

The operations hand their results on in the block; the spec's parts of a sample step (Machine/Sample.lean) look at no block and write
none. So the rules are stated of a state with a block put in. -/

/-- A state with another block. -/
def Any.State.withBlock (s : Any.State S) (b : Block S) : Any.State S := { s with blk := b }

@[simp] theorem Any.State.withBlock_blk (s : Any.State S) (b : Block S) : (s.withBlock b).blk = b := rfl

/-- Putting in the block that stands there changes nothing. -/
theorem Any.State.withBlock_self {s : Any.State S} {b : Block S} (h : s.blk = b) : s.withBlock b = s := by
  rw [← h]
  rfl

variable [Arith S] [DecidableLT S] [DecidableLE S] [DecidableEq S] {H : Hardware S} {s u : Any.State S} {b : Block S}

/-- Slot 0 leaves the raw value of 44_mixer_and_sample_step.md R171 to slot 1. -/
theorem Any.runOperation_lfo {raw : S} (hslot : b.slot = .lfo) (h : shapeRaw H.num b.latches.shape s.lfo = some raw) :
    runOperation (Any.exec H) (s.withBlock b) =
      .next (s.withBlock { b with wires := { b.wires with raw := raw }, slot := .adv }) := by
  unfold shapeRaw at h
  split at h
  · next hf => cases h; exact runOperation_shape (f := 0) hslot hf rfl
  split at h
  · next hf => cases h; exact runOperation_shape (f := 1) hslot hf rfl
  split at h
  · next hf => cases h; exact runOperation_shape (f := 2) hslot hf rfl
  split at h
  · next hf => cases h; exact runOperation_shape (f := 3) hslot hf rfl
  split at h
  · next hf => cases h; exact runOperation_shape (f := 4) hslot hf rfl
  split at h
  · next hf => cases h; exact runOperation_shape (f := 5) hslot hf rfl
  · cases h

/-- Slots 1 to 4 run LFO.ADV, STEPQ, SLEW and COND. -/
theorem Any.runSlots_modulation (hslot : s.blk.slot = .adv) :
    runSlots (Any.exec H) 4 s =
      Any.andThen (Any.exec H .lfoAdv s) fun s => Any.andThen (Any.exec H .stepq s) fun s => Any.andThen (Any.exec H .slew s) fun s =>
        Any.exec H .cond s := by
  rw [runSlots_succ, runOperation_slot (i := .lfoAdv) hslot rfl]
  rfl

/-- Slots 1 to 4 leave the LFO registers of R171, and the conditioned cutoff and resonance to slot 5. -/
theorem Any.runSlots_modulate (hslot : b.slot = .adv) :
    let g := modulate H b.latches s.sr b.wires.raw (s.rnd.answer H s.unit) s.lfo
    let q := conditionRes b.latches g.smooth
    ∃ w : Wires S,
      runSlots (Any.exec H) 4 (s.withBlock b) =
        .next (Any.State.withBlock { s with lfo := g, rnd := lfoDraw H.num b.latches s.sr s.lfo s.rnd }
          { b with wires := w, slot := .flt }) ∧
      w.x = b.wires.x ∧ w.fc = conditionCutoff b.latches s.sr g.smooth ∧ w.q = q ∧ w.nres = normalizeRes q := by
  rw [Any.runSlots_modulation hslot]
  exact ⟨_, rfl, rfl, rfl, rfl, rfl⟩

/-- Slot 5 runs the filter unit of R171 and leaves its wet sample to slot 6. -/
theorem Any.runOperation_flt {wet : S} (hslot : b.slot = .flt)
    (h : filterUnit H b.latches b.wires.fc b.wires.q b.wires.nres b.wires.x s = some (wet, u)) :
    runOperation (Any.exec H) (s.withBlock b) =
      .next (u.withBlock { b with wires := { b.wires with wet := wet }, slot := .mix }) := by
  unfold filterUnit at h
  split at h
  · next hf => cases h; exact runOperation_mode (f := 0) hslot hf rfl
  split at h
  · next hf => cases h; exact runOperation_mode (f := 1) hslot hf rfl
  split at h
  · next hf => cases h; exact runOperation_mode (f := 2) hslot hf rfl
  split at h
  · next hf =>
    split at h
    · cases h
    · next v hv =>
      cases h
      rw [runOperation_mode (f := 3) (i := .fltVow) hslot hf rfl]
      show Any.execFltVow H _ = _
      simp only [Any.execFltVow, Any.State.withBlock_blk, hv]
      rfl
  split at h
  · next hf => cases h; exact runOperation_mode (f := 4) hslot hf rfl
  split at h
  · next hf => cases h; exact runOperation_mode (f := 5) hslot hf rfl
  · cases h

/-- Slot 6 stores the mixed sample of R170 and leaves the block where it is. -/
theorem Any.runOperation_mix (hslot : b.slot = .mix) (h : mixTo b.latches b.n b.wires.wet b.wires.x s = some u) :
    runOperation (Any.exec H) (s.withBlock b) = .next (u.withBlock b) := by
  rw [runOperation_slot (i := .mix) hslot rfl]
  unfold mixTo at h
  split at h
  · next left right hl hr =>
    cases h
    exact Any.execMix_of_bound (s := s.withBlock b) hl hr
  · cases h

end Sys2Proof.Machine
end

