-- ==== Sys2Proof/Proofs/SampleStep.lean ====
section
/-! PROOF. One step of a running block is one sample step as the spec writes it (44_mixer_and_sample_step.md R171, 70_reset_and_hazards.md
R245).
-/

namespace Sys2Proof.Machine

open Sys2Proof

variable {S : Type} [Arith S] [DecidableLT S] [DecidableLE S] [DecidableEq S] {H : Hardware S} {s t : Any.State S} {x : S}

/-- The seven operations of a block at slot 0 are one sample step of the spec on the dry sample in the wires; of the block they write the
wires and the slot alone. -/
theorem Any.runSlots_of_sampleStep {b : Block S} (hslot : b.slot = .lfo) (h : sampleStep H b.latches b.n b.wires.x s = some t) :
    ∃ wires slot,
      runSlots (Any.exec H) b.slot.left (s.withBlock b) = .next (t.withBlock { b with wires := wires, slot := slot }) := by
  have hleft : b.slot.left = 7 := by rw [hslot]; rfl
  unfold sampleStep at h
  simp only [Option.bind_eq_bind, Option.bind_eq_some_iff] at h
  obtain ⟨raw, hraw, ⟨wet, u⟩, hunit, hmix⟩ := h
  obtain ⟨w, hmodulate, hx, hfc, hq, hnres⟩ :=
    Any.runSlots_modulate (H := H) (s := s) (b := { b with wires := { b.wires with raw := raw }, slot := .adv }) rfl
  have hflt := Any.runOperation_flt (H := H) (b := { b with wires := w, slot := .flt }) rfl
    (by rw [hx, hfc, hq, hnres]; exact hunit)
  have hmix := Any.runOperation_mix (H := H) (b := { b with wires := { w with wet := wet }, slot := .mix }) rfl
    (by rw [hx]; exact hmix)
  rw [hleft, runSlots_succ, Any.runOperation_lfo hslot hraw, Any.andThen_next, runSlots_add _ _ 4 2, hmodulate, Any.andThen_next,
    runSlots_succ, hflt, Any.andThen_next, runSlots_one, hmix]
  exact ⟨_, _, rfl⟩

/-- A step of a running block whose sample step has a result: the block stands at the next sample, or it is over with Ok. -/
theorem Any.step_of_sampleStep (hr : s.blk.running = true) (hslot : s.blk.slot = .lfo) (hx : s.readIn H.num s.blk.n = .ok x)
    (h : sampleStep H s.blk.latches s.blk.n x { s with blk := .idle } = some t) :
    Any.step H s =
      .next
        (if s.blk.n + 1 < s.blk.len then { t with blk := ⟨true, s.blk.latches, s.blk.n + 1, s.blk.len, .lfo, .zero⟩ }
        else { t with blk := .idle, outcome := .ok }) := by
  obtain ⟨wires, slot, hrun⟩ :=
    Any.runSlots_of_sampleStep (b := { s.blk with wires := { s.blk.wires with x := x } }) hslot h
  rw [Any.step_of_runSlots hr hx hrun, Any.State.endSample, ← hr]
  rfl

/-- Settles O53: the operations of the seven slots are the parts of the spec's sample step, one after another. -/
theorem oneStepIsOneSampleStep : Obligations.OneStepIsOneSampleStep := by
  intro S _ _ _ _ H s t x hr hslot hx h
  exact Any.step_of_sampleStep hr hslot hx h

end Sys2Proof.Machine
end

