-- ==== Sys2Proof/Proofs/Blocks.lean ====
section
/-! PROOF. A block from its start or from any of its samples to its end (44_mixer_and_sample_step.md R172, 45_lifecycle_commands.md R189,
70_reset_and_hazards.md R237): every step of it is one sample step, which the invariant lets complete.
-/

namespace Sys2Proof.Machine

open Sys2Proof

variable {S : Type} [Arith S] [DecidableLT S] [DecidableLE S] [DecidableEq S] {H : Hardware S} {s t : Any.State S}

/-- A sample step of the spec leaves the block as it is. -/
theorem sampleStep_blk {l : Latches S} {n : Nat} {x : S} (h : sampleStep H l n x s = some t) : t.blk = s.blk := by
  obtain ⟨_, _, _, u, -, -, rfl, -, -, -, -, blk, -⟩ := sampleStep_frame h
  exact blk

/-- The sample step of a block that meets the invariant has a result `t`: the machine's step leads to it, and every run of sample steps
from here goes on from it. -/
theorem Any.step_block (hs : s.Sound H) (hr : s.blk.running = true) :
    ∃ t : Any.State S, t.blk = .idle ∧
      (∀ k, runSamples H s.blk.latches s.blk.n (k + 1) { s with blk := .idle } = runSamples H s.blk.latches (s.blk.n + 1) k t) ∧
      Any.step H s =
        .next
          (if s.blk.n + 1 < s.blk.len then { t with blk := ⟨true, s.blk.latches, s.blk.n + 1, s.blk.len, .lfo, .zero⟩ }
          else { t with blk := .idle, outcome := .ok }) := by
  have hb := hs.block hr
  obtain ⟨x, hx⟩ := hb.inputs s.blk.n le_rfl hb.index
  obtain ⟨left, hl⟩ := (s.ports.bound_iff .aoutL).mp (hb.bound .aoutL)
  obtain ⟨right, hright⟩ := (s.ports.bound_iff .aoutR).mp (hb.bound .aoutR)
  obtain ⟨t, ht⟩ := sampleStep_of_legal (H := H) (s := { s with blk := .idle }) hb.selectors hl hright s.blk.n x
  have hread : Any.State.readIn H.num { s with blk := .idle } s.blk.n = .ok x := hx
  exact ⟨t, sampleStep_blk ht, fun k => by simp only [runSamples, hread, ht], Any.step_of_sampleStep hr hb.slot hx ht⟩

/-- A running block with `k + 1` samples left is over with Ok after as many steps, which are the sample steps of the spec on them. -/
theorem Any.run_block {k : Nat} (hs : s.Sound H) (hr : s.blk.running = true) (hk : s.blk.n + (k + 1) = s.blk.len) :
    ∃ t, runSamples H s.blk.latches s.blk.n (k + 1) { s with blk := .idle } = some t ∧
      Host.Core.run (Any.core H) (k + 1) s = .next { t with blk := .idle, outcome := .ok } := by
  induction k generalizing s with
  | zero =>
    obtain ⟨t, -, hsamples, hstep⟩ := Any.step_block hs hr
    rw [if_neg (by omega)] at hstep
    exact ⟨t, hsamples 0, Any.run_next hstep⟩
  | succ k ih =>
    obtain ⟨u, hidle, hsamples, hstep⟩ := Any.step_block hs hr
    rw [if_pos (by omega)] at hstep
    obtain ⟨t, ht, hrun⟩ := ih (Any.step_sound hs hstep) rfl (by show _ + 1 + _ = s.blk.len; omega)
    refine ⟨t, ?_, (Any.run_next hstep).trans hrun⟩
    rw [hsamples, ← Any.State.withBlock_self hidle]
    exact ht

/-- Settles O54: an admitted PROCESS starts a block that meets the invariant, or with `N = 0` is over at once. -/
theorem processRunsTheWholeBlock : Obligations.ProcessRunsTheWholeBlock := by
  intro S _ _ _ _ H s l count hs hr h
  have hprocess : Any.exec H (.process count) s = .next (s.startBlock l count) := by
    show Any.execProcess H count s = _
    rw [Any.execProcess, h]
  have hidle : s.withBlock .idle = s := Any.State.withBlock_self (hs.idle hr)
  cases count with
  | zero => exact ⟨s, _, rfl, hprocess, rfl⟩
  | succ k =>
    have hsound := hs.startBlock h
    rw [Any.State.startBlock_of_pos s l k.succ_pos] at hprocess hsound
    obtain ⟨t, ht, hrun⟩ := Any.run_block hsound rfl (Nat.zero_add _)
    refine ⟨t, _, ?_, hprocess, hrun⟩
    rw [← hidle]
    exact ht

/-- Settles O60: the step of a block that meets the invariant is a sample step, and so is every later one to the block's end. -/
theorem runningBlockNeverStops : Obligations.RunningBlockNeverStops := by
  constructor
  · intro s hs hr
    obtain ⟨t, -, -, hstep⟩ := Any.step_block hs hr
    exact ⟨_, (step_eq s).trans hstep⟩
  · intro S _ _ _ _ H s hs hr
    have hb := hs.block hr
    obtain ⟨t, -, -, hstep⟩ := Any.step_block hs hr
    obtain ⟨k, hk⟩ : ∃ k, s.blk.len = s.blk.n + k + 1 := Nat.exists_eq_add_of_lt hb.index
    obtain ⟨u, hu, hrun⟩ := Any.run_block hs hr hk.symm
    obtain ⟨-, -, life, -⟩ := runSamples_frame hu
    rw [show s.blk.len - s.blk.n = k + 1 by omega]
    exact ⟨⟨_, hstep⟩, _, hrun, rfl, rfl, life.trans hb.active⟩

end Sys2Proof.Machine
end

