-- ==== Sys2Proof/Proofs/Splitting.lean ====
section
/-! PROOF. A block split in two (44_mixer_and_sample_step.md R172): on streams that begin `d` cells later a sample step at index `n` reads
and writes the cells of index `d + n`, and nothing else of it looks at the bindings.
-/

namespace Sys2Proof.Machine

open Sys2Proof

variable {S : Type}

/-- The stream that begins `d` cells later and ends at the same cell. -/
def Source.shift (d : Nat) (source : Source) : Source := ⟨source.base + d, source.len - d⟩

/-- The audio streams bound `d` cells later. -/
def Any.State.shiftStreams (d : Nat) (s : Any.State S) : Any.State S :=
  { s with ports := { s.ports with
      ain := s.ports.ain.map (Source.shift d)
      aoutL := s.ports.aoutL.map (Source.shift d)
      aoutR := s.ports.aoutR.map (Source.shift d) } }

variable [Arith S] (d n : Nat) (s : Any.State S)

theorem Any.State.readIn_shiftStreams (N : Num S) : (s.shiftStreams d).readIn N n = s.readIn N (d + n) := by
  simp only [Any.State.readIn, Any.State.shiftStreams]
  cases s.ports.ain with
  | none => rfl
  | some input => simp only [Option.map_some, Source.shift, Nat.add_assoc]; rfl

variable [DecidableEq S]

theorem mixTo_shiftStreams (l : Latches S) (wet x : S) :
    mixTo l n wet x (s.shiftStreams d) = (mixTo l (d + n) wet x s).map (Any.State.shiftStreams d) := by
  cases hl : s.ports.aoutL with
  | none => simp [mixTo, Any.State.shiftStreams, hl]
  | some left =>
    cases hr : s.ports.aoutR with
    | none => simp [mixTo, Any.State.shiftStreams, hl, hr]
    | some right =>
      simp [mixTo, Any.State.shiftStreams, hl, hr, Source.shift, Any.State.writeOut, Any.State.hostWrite, Nat.add_assoc]

variable [DecidableLE S]

/-- A filter unit looks at no binding. -/
theorem filterUnit_shiftStreams (H : Hardware S) (l : Latches S) (fc q nres x : S) :
    filterUnit H l fc q nres x (s.shiftStreams d) =
      (filterUnit H l fc q nres x s).map fun w => (w.1, w.2.shiftStreams d) := by
  unfold filterUnit
  repeat' split
  all_goals rfl

variable [DecidableLT S]

theorem sampleStep_shiftStreams (H : Hardware S) (l : Latches S) (x : S) :
    sampleStep H l n x (s.shiftStreams d) = (sampleStep H l (d + n) x s).map (Any.State.shiftStreams d) := by
  unfold sampleStep
  simp only [Option.bind_eq_bind, Option.map_bind]
  refine Option.bind_congr fun raw _ => ?_
  let v : Any.State S := { s with
    lfo := modulate H l s.sr raw (s.rnd.answer H s.unit) s.lfo, rnd := lfoDraw H.num l s.sr s.lfo s.rnd }
  show (filterUnit H l _ _ _ x (v.shiftStreams d)).bind _ = ((filterUnit H l _ _ _ x v).bind _).map _
  rw [filterUnit_shiftStreams, Option.bind_map, Option.map_bind]
  exact Option.bind_congr fun w _ => mixTo_shiftStreams d n w.2 l w.1 x

theorem runSamples_shiftStreams (H : Hardware S) (l : Latches S) (k : Nat) :
    runSamples H l n k (s.shiftStreams d) = (runSamples H l (d + n) k s).map (Any.State.shiftStreams d) := by
  induction k generalizing n s with
  | zero => rfl
  | succ k ih =>
    simp only [runSamples, Any.State.readIn_shiftStreams, sampleStep_shiftStreams]
    cases s.readIn H.num (d + n) with
    | error c => rfl
    | ok x =>
      cases h : sampleStep H l (d + n) x s with
      | none => simp [h]
      | some t => simp [h, ih, Nat.add_assoc]

/-- A run of sample steps keeps the bindings. -/
theorem runSamples_ports {H : Hardware S} {l : Latches S} {n k : Nat} {s t : Any.State S} (h : runSamples H l n k s = some t) :
    t.ports = s.ports := by
  obtain ⟨-, -, -, ports, -⟩ := runSamples_frame h
  exact ports

/-- Settles O55: the second block runs the samples that the one block would run after the first `N1`. -/
theorem splittingABlockChangesNothing : Obligations.SplittingABlockChangesNothing := by
  intro S _ _ _ _ H s t l n1 n2 input left right hi hl hr h rebound
  have ports := runSamples_ports h
  have hrebound : rebound = t.shiftStreams n1 := by
    simp [rebound, Any.State.shiftStreams, ports, hi, hl, hr, Source.shift]
  rw [runSamples_add h, Nat.zero_add, hrebound, runSamples_shiftStreams, Nat.add_zero, Option.map_map]
  cases hu : runSamples H l n1 n2 t with
  | none => rfl
  | some u =>
    have : u.ports = s.ports := (runSamples_ports hu).trans ports
    simp [Any.State.shiftStreams, ← this]

end Sys2Proof.Machine
end

