-- ==== Sys2Proof/Proofs/Dispatch.lean ====
section
/-! PROOF. Which instruction a step runs: the operations of a running block in slot order (44_mixer_and_sample_step.md R171, R173), the
command at the head of the host's moves, and the refusal of a command that the decoder rejects (30_encoding.md R81).
-/

namespace Sys2Proof.Machine

open Sys2Proof

variable {S : Type}

/-! ### A running block -/

/-- The sample step of a running block begins with the operation whose code stands at its slot. -/
theorem stepBy_of_code [Arith S] [DecidableEq S] {meaning : Instr S → Any.State S → Any.Outcome S} {N : Num S} {s : Any.State S}
    {x : S} {c : Code S} {i : Instr S} (hr : s.blk.running = true) (hx : s.readIn N s.blk.n = .ok x) (hc : s.blk.code = some c)
    (hd : decode c = .ok i) :
    stepBy meaning N s =
      Any.andThen (meaning i (s.pass { s.blk.wires with x := x } s.blk.slot)) fun t =>
        Any.andThen (runSlots meaning (s.blk.slot.left - 1) t) fun u => .next u.endSample := by
  obtain ⟨k, hk⟩ : ∃ k, s.blk.slot.left = k + 1 := by cases s.blk.slot <;> exact ⟨_, rfl⟩
  have hcode : (s.pass { s.blk.wires with x := x } s.blk.slot).blk.code = some c := hc
  rw [stepBy_running hr hx, hk, runSlots_succ, runOperation_eq hcode hd, Any.andThen_assoc, Nat.add_sub_cancel]

section
variable [Arith S] [DecidableLT S] [DecidableLE S] [DecidableEq S] {H : Hardware S} {s t : Any.State S} {f shape mode : BitVec 3}
  {i j : Instr S}

/-- A filter operation leaves the block in slot 6. -/
theorem Any.exec_filter_slot (hd : decodeMode f = some i) (h : Any.exec H i s = .next t) : t.blk.slot = .mix := by
  rcases Any.exec_filter_next hd h with
    ⟨-, _, _, rfl⟩ | ⟨-, _, _, rfl⟩ | ⟨-, _, rfl⟩ | ⟨-, _, _, rfl⟩ | ⟨-, _, rfl⟩ | ⟨-, _, rfl⟩ <;> rfl

/-- Slots 5 and 6 run the filter operation that `L_MODE` picks, and MIX. -/
theorem Any.runSlots_filter_mix (hslot : s.blk.slot = .flt) (hmode : s.blk.latches.mode = mode.toNat)
    (hj : decode (.mode mode) = .ok j) :
    runSlots (Any.exec H) 2 s = Any.andThen (Any.exec H j s) fun s => Any.exec H .mix s := by
  rw [runSlots_succ, runOperation_mode hslot hmode hj]
  refine Any.andThen_congr fun t ht => ?_
  have ht : t.blk.slot = .mix := Any.exec_filter_slot (decodeMode_of_decode hj) ht
  rw [runSlots_one, runOperation_slot (i := .mix) ht rfl]

/-- From slot 0 the seven operations run in order, the first and the sixth picked by `L_SHAPE` and `L_MODE`. -/
theorem Any.runSlots_eq (hslot : s.blk.slot = .lfo) (hshape : s.blk.latches.shape = shape.toNat)
    (hmode : s.blk.latches.mode = mode.toNat) (hi : decode (.shape shape) = .ok i) (hj : decode (.mode mode) = .ok j) :
    runSlots (Any.exec H) 7 s =
      Any.andThen (Any.exec H i s) fun s => Any.andThen (Any.exec H .lfoAdv s) fun s => Any.andThen (Any.exec H .stepq s) fun s =>
        Any.andThen (Any.exec H .slew s) fun s => Any.andThen (Any.exec H .cond s) fun s => Any.andThen (Any.exec H j s) fun s =>
          Any.exec H .mix s := by
  obtain ⟨raw, hraw⟩ := Any.exec_shape (H := H) (decodeShape_of_decode hi) s
  rw [runSlots_succ, runOperation_shape hslot hshape hi, hraw, Any.andThen_next, Any.andThen_next, runSlots_add _ _ 4 2,
    Any.runSlots_modulation rfl]
  simp only [Any.andThen_assoc]
  refine Any.andThen_congr fun s₁ h₁ => Any.andThen_congr fun s₂ h₂ =>
    Any.andThen_congr fun s₃ h₃ => Any.andThen_congr fun s₄ h₄ => ?_
  cases h₁
  cases h₂
  cases h₃
  cases h₄
  exact Any.runSlots_filter_mix rfl hmode hj

end

/-! ### A move of the host -/

/-- Outside a block a step is a move of the host. -/
theorem step_idle {s : State} (hr : s.blk.running = false) : step s = stepMove exec s := by
  simp [step, stepBy, hr]

/-- A CMD code that is rejected is rejected as its command and operands are. -/
theorem decodeCmd_of_decode_error {c : BitVec 3} {operands : List (Operand S)} {e : DecodeError}
    (h : decode (.cmd c operands) = .error e) : ∃ e', e = .cmd e' ∧ decodeCmd c operands = .error e' := by
  unfold decode at h
  cases hd : decodeCmd c operands with
  | ok i => simp [hd] at h
  | error e' => exact ⟨e', by simpa [hd] using h.symm, rfl⟩

/-- The port numbers 14 and 15 are rejected before the kind of the source is looked at. -/
theorem decodeCmd_reservedPort {p : BitVec 4} (hp : p = 14 ∨ p = 15) {operands : List (Operand S)} {a base len : Nat}
    (h : operands = [.port p, .location a] ∨ operands = [.port p, .stream base len]) :
    decodeCmd 1 operands = .error (.reservedPort p) := by
  have hport := (decodePort_eq_none p).mpr hp
  rcases h with rfl | rfl <;> simp [decodeCmd, decodeBind, hport]

section
variable {s : State} {c : BitVec 3} {operands : List Operand} {rest : List (HostMove Scalar)}

/-- The command at the head of the host's moves runs, and is removed. -/
theorem step_command {i : Instr} (hr : s.blk.running = false) (hq : s.queue = .command c operands :: rest)
    (hd : decodeCmd c operands = .ok i) : step s = exec i { s with queue := rest } := by
  simp [step_idle hr, stepMove, hq, hd]

/-- A command that the decoder rejects is refused under the name of what is wrong with it. -/
theorem step_rejected {e : CmdError} (hr : s.blk.running = false) (hq : s.queue = .command c operands :: rest)
    (hd : decodeCmd c operands = .error e) : step s = .refused (commandRefusal e) := by
  simp [step_idle hr, stepMove, hq, hd]

end

/-- Settles O39: the operations by their codes, the host's moves by the head of the queue. -/
theorem stepRunsDecodedInstruction : Obligations.StepRunsDecodedInstruction := by
  refine ⟨fun s x c i hr hx => stepBy_of_code hr hx, ?_, fun s => rfl, ?_, ?_, ?_, ?_, ?_, ?_, exec_eq, step_eq⟩
  · intro s x shape mode i j hr hslot hx hshape hmode hi hj
    have hhost : exec = Any.exec Config.hardware := funext fun i => funext (exec_eq i)
    rw [show step s = stepBy exec Config.num s from rfl, stepBy_running hr hx, hslot, hhost,
      show Slot.lfo.left = 7 from rfl, Any.runSlots_eq (s := s.pass _ .lfo) rfl hshape hmode hi hj]
    simp only [Any.andThen_assoc]
    rw [← hslot]
    rfl
  · exact fun s c operands rest i hr hq hd => step_command hr hq (decodeCmd_of_decode hd)
  · intro s hr hq
    simp [step_idle hr, stepMove, hq]
  · intro s a v rest hr hq
    simp [step_idle hr, stepMove, hq]
  · intro s answers rest hr hq
    simp [step_idle hr, stepMove, hq]
  · intro s answers rest hr hq
    simp [step_idle hr, stepMove, hq]
  · intro s c operands rest hr hq
    refine ⟨?_, ?_, fun hd => ?_, fun e hd t ht => ?_⟩
    · rintro p a base len rfl hp hoperands
      exact step_rejected hr hq (decodeCmd_reservedPort hp hoperands)
    · rintro (rfl | rfl) <;> exact step_rejected hr hq rfl
    · obtain ⟨e, he, hd⟩ := decodeCmd_of_decode_error hd
      cases he
      exact step_rejected hr hq hd
    · obtain ⟨e', -, hd⟩ := decodeCmd_of_decode_error hd
      rw [step_rejected hr hq hd] at ht
      cases ht

end Sys2Proof.Machine
end

