-- ==== Sys2Proof/Proofs/Silence.lean ====
section
/-! PROOF. Silence through the filter units (45_lifecycle_commands.md R187, 70_reset_and_hazards.md R231): on a dry sample 0 and with no
signal in its registers every unit gives 0 and leaves no signal in them, whatever its coefficients are; so a block of silence from such a
state stores 0 alone.
-/

namespace Sys2Proof.Machine

open Sys2Proof

/-! ### Buffers without a signal -/

/-- A slot of an empty comb buffer is 0 (10_state.md R40). -/
theorem CombRegs.read_of_empty {S : Type} [Arith S] {c : CombRegs S} (h : c.buf = []) (i : Nat) : c.read i = 0 := by
  rw [CombRegs.read, h]
  rfl

/-- A store of what every slot holds leaves an empty memory empty. -/
theorem Memory.write_nil_unlisted {α : Type} [DecidableEq α] (d : α) (a : Nat) : Memory.write d [] a d = [] := if_pos rfl

theorem FmtRegs.getElem_zero {S : Type} [Arith S] (f : Fin Config.N_FORMANTS) : (FmtRegs.zero : FmtRegs S)[f] = .zero :=
  Vector.getElem_replicate f.isLt

/-! ### The units at rest -/

variable {H : Hardware ℝ}

/-- The bank at rest is silent and stays at rest, as each of its sections does. -/
theorem formant_zero (sr fc q : ℝ) (v : Fin Config.N_VOWELS) :
    formantSum H sr fc q 0 v FmtRegs.zero = 0 ∧ formantNext H sr fc q 0 v FmtRegs.zero = FmtRegs.zero := by
  have hsection (f : Fin Config.N_FORMANTS) :=
    (section_of_zero (formantCoeffs H sr fc q v f) (x := 0) (FmtRegs.getElem_zero f)).2 rfl
  constructor
  · rw [formantSum_eq_sum]
    exact Finset.sum_eq_zero fun f _ => (hsection f).1
  · refine Vector.ext fun i hi => ?_
    let f : Fin Config.N_FORMANTS := ⟨i, hi⟩
    exact (getElem_formantNext H sr fc q 0 v FmtRegs.zero f).trans ((hsection f).2.trans (FmtRegs.getElem_zero f).symm)

/-- With an empty buffer the comb is silent, wherever it reads. -/
theorem combOut_of_empty {N : Num ℝ} {c : CombRegs ℝ} (h : c.buf = []) (cap : Nat) (sr fc nres : ℝ) :
    combOut N cap sr fc nres 0 c = 0 := by
  simp [combOut, combDelayed, CombRegs.read_of_empty h]

variable {l : Latches ℝ} {s t : Any.State ℝ}

/-- ACTIVATE leaves every filter unit at rest. -/
theorem Any.execActivate_filtersSilent (h : Any.execActivate s = .next t) : t.filtersSilent := by
  obtain ⟨-, rfl⟩ := Any.execActivate_next h
  exact ⟨rfl, rfl, rfl, rfl, rfl⟩

/-- A filter unit at rest on a dry sample 0: its wet sample is 0, and it stays at rest. -/
theorem filterUnit_silent {fc q nres wet : ℝ} (hH : H.IsReference) (hs : s.filtersSilent)
    (h : filterUnit H l fc q nres 0 s = some (wet, t)) : wet = 0 ∧ t.filtersSilent := by
  obtain ⟨bq, svf, lad, fmt, comb⟩ := hs
  unfold filterUnit at h
  split at h
  · obtain ⟨-, hrest⟩ := section_of_zero (lowpassCoeffs H.num s.sr fc q) (x := 0) bq
    obtain ⟨hout, hnext⟩ := hrest rfl
    cases h
    exact ⟨hout, hnext, svf, lad, fmt, comb⟩
  split at h
  · cases h
    rw [svf]
    exact ⟨svfLp_zero _ _, bq, svfNext_zero _ _, lad, fmt, comb⟩
  split at h
  · cases h
    rw [hH, lad, ladNext_zero]
    exact ⟨rfl, bq, svf, rfl, fmt, comb⟩
  split at h
  · split at h
    · cases h
    · next v _ =>
      obtain ⟨hout, hnext⟩ := formant_zero (H := H) s.sr fc q v
      cases h
      rw [fmt, hout, zero_mul]
      exact ⟨rfl, bq, svf, lad, hnext, comb⟩
  split at h
  · cases h
    rw [combOut_of_empty comb]
    refine ⟨rfl, bq, svf, lad, fmt, ?_⟩
    rw [combNext, comb]
    exact Memory.write_nil_unlisted _ _
  split at h
  · cases h
    exact ⟨zero_mul _, bq, svf, lad, fmt, comb⟩
  · cases h

/-! ### Sample steps -/

/-- A sample step on the registers of slots 1 to 3 runs a filter unit on some setting, and then the mixer on its wet sample. -/
theorem sampleStep_parts {S : Type} [Arith S] [DecidableLT S] [DecidableLE S] [DecidableEq S] {H : Hardware S} {l : Latches S} {n : Nat}
    {x : S} {s t : Any.State S} (h : sampleStep H l n x s = some t) :
    ∃ lfo rnd fc q nres wet u,
      filterUnit H l fc q nres x { s with lfo := lfo, rnd := rnd } = some (wet, u) ∧ mixTo l n wet x u = some t := by
  unfold sampleStep at h
  simp only [Option.bind_eq_bind, Option.bind_eq_some_iff] at h
  obtain ⟨raw, -, ⟨wet, u⟩, hunit, hmix⟩ := h
  exact ⟨_, _, _, _, _, wet, u, hunit, hmix⟩

variable {n : Nat} {left right : Source}

/-- A sample step on a dry sample 0, from filter units at rest: they stay at rest, the two cells at its index hold 0, and every other cell
what it held. -/
theorem sampleStep_silent (hH : H.IsReference) (hs : s.filtersSilent) (hl : s.ports.aoutL = some left) (hr : s.ports.aoutR = some right)
    (h : sampleStep H l n 0 s = some t) :
    t.filtersSilent ∧ ∀ a : Nat, t.hostRead a = if a = left.base + n ∨ a = right.base + n then .value 0 else s.hostRead a := by
  obtain ⟨lfo, rnd, fc, q, nres, wet, u, hunit, hmix⟩ := sampleStep_parts h
  obtain ⟨rfl, hu⟩ := filterUnit_silent hH (s := { s with lfo := lfo, rnd := rnd }) hs hunit
  obtain ⟨-, -, -, -, ports, -, host, -⟩ := filterUnit_frame hunit
  have hhost : u.host = s.host := host
  have hout : mixOut l.mix 0 0 = 0 := by simp [mixOut]
  have hwrite : mixTo l n 0 0 u = some (u.writeOut left right n 0) := by simp only [mixTo, ports, hl, hr, hout]
  obtain rfl := Option.some.inj (hwrite.symm.trans hmix)
  exact ⟨hu, fun a => by rw [Any.State.hostRead_writeOut, Any.State.hostRead_congr hhost]⟩

/-- A run of sample steps on silence, from filter units at rest: they stay at rest, a cell that holds 0 goes on to hold it, and both
outputs hold 0 at each of its indices. No rule about the streams is asked for: an output that overlaps another stream stores the 0 that is
there. -/
theorem runSamples_silent {k : Nat} {input : Source} (hH : H.IsReference) (hs : s.filtersSilent) (hi : s.ports.ain = some input)
    (hl : s.ports.aoutL = some left) (hr : s.ports.aoutR = some right)
    (hin : ∀ i : Nat, n ≤ i → i < n + k → s.hostRead (input.base + i) = .value 0) (h : runSamples H l n k s = some t) :
    t.filtersSilent ∧ (∀ a : Nat, s.hostRead a = .value 0 → t.hostRead a = .value 0) ∧
      ∀ i : Nat, n ≤ i → i < n + k → t.hostRead (left.base + i) = .value 0 ∧ t.hostRead (right.base + i) = .value 0 := by
  induction k generalizing n s with
  | zero =>
    cases h
    exact ⟨hs, fun _ => id, fun i hlow hhigh => by omega⟩
  | succ k ih =>
    obtain ⟨x, u, hx, hu, hrun⟩ := runSamples_succ h
    obtain ⟨input', hi', hread, -⟩ := Any.State.readIn_ok hx
    obtain rfl : input = input' := Option.some.inj (hi.symm.trans hi')
    obtain rfl : x = 0 := Sample.value.inj (hread.symm.trans (hin n le_rfl (by omega)))
    obtain ⟨hrest, hcells⟩ := sampleStep_silent hH hs hl hr hu
    have hkept (a : Nat) (ha : s.hostRead a = .value 0) : u.hostRead a = .value 0 := by rw [hcells, ha, ite_self]
    have ports := sampleStep_ports hu
    obtain ⟨hsilent, hzero, houts⟩ := ih hrest (ports ▸ hi) (ports ▸ hl) (ports ▸ hr)
      (fun i hlow hhigh => hkept _ (hin i (by omega) (by omega))) hrun
    refine ⟨hsilent, fun a ha => hzero a (hkept a ha), fun i hlow hhigh => ?_⟩
    rcases Nat.eq_or_lt_of_le hlow with rfl | hlt
    · exact ⟨hzero _ (by rw [hcells, if_pos (.inl rfl)]), hzero _ (by rw [hcells, if_pos (.inr rfl)])⟩
    · exact houts i hlt (by omega)

/-- Settles O56: ACTIVATE leaves every filter unit at rest, and a sample step on silence keeps them so. -/
theorem silenceAfterActivation : Obligations.SilenceAfterActivation := by
  intro H s a t l count input left right hH hactivate hi hl hr hin h
  obtain ⟨hsilent, -, houts⟩ :=
    runSamples_silent hH (Any.execActivate_filtersSilent hactivate) hi hl hr (fun k _ hk => hin k (by omega)) h
  exact ⟨hsilent, fun k hk => houts k k.zero_le (by omega)⟩

end Sys2Proof.Machine
end

