-- ==== Sys2Proof/Proofs/BlockFrame.lean ====
section
/-! PROOF. What a step of a running block leaves as it is (45_lifecycle_commands.md R186, R191, 70_reset_and_hazards.md R236, R238): all
that the host's moves and commands write, and every host cell but the two of the sample.
-/

namespace Sys2Proof.Machine

open Sys2Proof

variable {S : Type} [Arith S] {s t u : Any.State S}

/-- What stays within a sample step: nothing that a move of the host writes has changed but, in host memory, the two cells of the outputs
at the index of the sample, and the block is still at that sample. -/
structure Any.State.HostKept (s t : Any.State S) : Prop where
  queue : t.queue = s.queue
  ports : t.ports = s.ports
  life : t.life = s.life
  sr : t.sr = s.sr
  cap : t.cap = s.cap
  alloc : t.alloc = s.alloc
  unit : t.unit = s.unit
  outcome : t.outcome = s.outcome
  running : t.blk.running = s.blk.running
  latches : t.blk.latches = s.blk.latches
  n : t.blk.n = s.blk.n
  len : t.blk.len = s.blk.len
  cells : ∀ cell : Nat,
    (∀ source : Source, s.ports.aoutL = some source ∨ s.ports.aoutR = some source → cell ≠ source.base + s.blk.n) →
    t.hostRead cell = s.hostRead cell

/-- The start of a sample step keeps it all. -/
theorem Any.State.hostKept_pass (s : Any.State S) (wires : Wires S) (slot : Slot) : s.HostKept (s.pass wires slot) :=
  ⟨rfl, rfl, rfl, rfl, rfl, rfl, rfl, rfl, rfl, rfl, rfl, rfl, fun _ _ => rfl⟩

theorem Any.State.HostKept.trans (h : s.HostKept t) (h' : t.HostKept u) : s.HostKept u where
  queue := h'.queue.trans h.queue
  ports := h'.ports.trans h.ports
  life := h'.life.trans h.life
  sr := h'.sr.trans h.sr
  cap := h'.cap.trans h.cap
  alloc := h'.alloc.trans h.alloc
  unit := h'.unit.trans h.unit
  outcome := h'.outcome.trans h.outcome
  running := h'.running.trans h.running
  latches := h'.latches.trans h.latches
  n := h'.n.trans h.n
  len := h'.len.trans h.len
  cells cell hcell := (h'.cells cell (by rw [h.ports, h.n]; exact hcell)).trans (h.cells cell hcell)

variable [DecidableLT S] [DecidableLE S] [DecidableEq S] {H : Hardware S}

/-- An operation keeps it all: MIX alone writes host memory, and only the two cells. -/
theorem Any.runOperation_hostKept (h : runOperation (Any.exec H) s = .next t) : s.HostKept t := by
  obtain ⟨sr, cap, life, ports, queue, alloc, unit, outcome, running, latches, n, len, -⟩ := Any.runOperation_frame h
  refine ⟨queue, ports, life, sr, cap, alloc, unit, outcome, running, latches, n, len, fun cell hcell => ?_⟩
  rcases Any.runOperation_host h with host | ⟨left, right, out, hl, hr, rfl⟩
  · exact Any.State.hostRead_congr host cell
  · rw [Any.State.hostRead_writeOut, if_neg (not_or.mpr ⟨hcell left (.inl hl), hcell right (.inr hr)⟩)]

/-- A step of a running block keeps it all up to the end of the sample step. -/
theorem Any.step_running_hostKept (hr : s.blk.running = true) (h : Any.step H s = .next t) : ∃ u, s.HostKept u ∧ t = u.endSample := by
  obtain ⟨x, u, -, hu, rfl⟩ := Any.step_running hr h
  exact ⟨u, Any.runSlots_keeps (fun _ _ hs hop => hs.trans (Any.runOperation_hostKept hop)) hu (s.hostKept_pass _ _), rfl⟩

/-- Settles O40: every operation of a sample step keeps what the host writes, and so does the end of the sample. -/
theorem noHostMoveDuringBlock : Obligations.NoHostMoveDuringBlock := by
  intro s t hr h
  rw [step_eq] at h
  obtain ⟨u, hu, rfl⟩ := Any.step_running_hostKept hr h
  refine ⟨u.endSample_queue.trans hu.queue, u.endSample_ports.trans hu.ports, u.endSample_life.trans hu.life,
    u.endSample_sr.trans hu.sr, u.endSample_cap.trans hu.cap, u.endSample_alloc.trans hu.alloc, u.endSample_unit.trans hu.unit,
    fun cell hcell => (Any.State.hostRead_congr u.endSample_host cell).trans (hu.cells cell hcell), ?_, ?_⟩
  · intro hlt
    rw [← hu.n, ← hu.len] at hlt
    rw [Any.State.endSample_of_lt hlt, ← hu.running, ← hu.latches, ← hu.n, ← hu.len]
    exact ⟨rfl, hu.outcome⟩
  · intro hge
    rw [← hu.n, ← hu.len] at hge
    rw [Any.State.endSample_of_ge hge]
    exact ⟨u.finishBlock_blk, u.finishBlock_outcome⟩

end Sys2Proof.Machine
end

