-- ==== Sys2Proof/Proofs/Lifecycle.lean ====
section
/-! PROOF. The lifecycle commands by the LIFE that they find (45_lifecycle_commands.md R185 to R192): the refusal outside the LIFE that
admits a command, once for all of them, and the next state of each in the LIFE that does.
-/

namespace Sys2Proof.Machine

open Sys2Proof

variable {S : Type}

/-! ### Admission by LIFE (R192) -/

/-- The LIFE that admits a command. An operation of the per-sample sequence is no command, and no LIFE stops it. -/
def Instr.admittedIn : Instr S → List Life
  | .create _ => [.absent]
  | .bind _ _ => [.inactive, .active]
  | .activate => [.inactive, .active]
  | .process _ => [.active]
  | .deactivate => [.active]
  | .destroy => [.inactive, .active]
  | _ => [.absent, .inactive, .active]

theorem Life.mem_all (life : Life) : life ∈ [Life.absent, .inactive, .active] := by cases life <;> decide

theorem Any.State.admits_eq_false {s : Any.State S} {lives : List Life} (h : s.life ∉ lives) : s.admits lives = false :=
  Bool.eq_false_iff.mpr fun ha => h ((s.admits_iff lives).mp ha).2

/-- Where LIFE is not Absent and no block runs, the commands of Inactive and Active are admitted. -/
theorem Any.State.admits_of_live {s : Any.State S} (hr : s.blk.running = false) (hl : s.life ≠ .absent) :
    s.admits [.inactive, .active] = true := by
  refine (s.admits_iff _).mpr ⟨hr, ?_⟩
  cases h : s.life with
  | absent => exact absurd h hl
  | inactive => decide
  | active => decide

theorem Any.State.admits_of_active {s : Any.State S} (hr : s.blk.running = false) (hl : s.life = .active) :
    s.admits [.active] = true := (s.admits_iff _).mpr ⟨hr, by simp [hl]⟩

variable [Arith S]

section
variable [DecidableLT S] [DecidableLE S] [DecidableEq S] {H : Hardware S} {s : Any.State S}

/-- A command outside the LIFE that admits it is refused before anything else is looked at (60_exceptions.md R210). -/
theorem Any.exec_badLifecycle {i : Instr S} (h : s.life ∉ Instr.admittedIn i) : Any.exec H i s = .refused .badLifecycle := by
  have hadmits := Any.State.admits_eq_false h
  have hno : ¬s.admits (Instr.admittedIn i) = true := Bool.eq_false_iff.mp hadmits
  cases i with
  | create sr => exact if_neg hno
  | bind port source => exact if_neg hno
  | activate => exact if_neg hno
  | process count =>
    show Any.execProcess H count s = _
    rw [Any.execProcess, Any.State.admission, show s.admits [.active] = false from hadmits]
    rfl
  | deactivate => exact if_neg hno
  | destroy => exact if_neg hno
  | _ => exact absurd s.life.mem_all h

end

/-! ### The commands where they are admitted -/

section
variable {s : Any.State S}

omit [Arith S] in
theorem Any.execBind_of_live (hr : s.blk.running = false) (hl : s.life ≠ .absent) (port : Port) (source : Source) :
    Any.execBind port source s = .next { s with ports := s.ports.set port (some source), outcome := .ok } :=
  if_pos (Any.State.admits_of_live hr hl)

theorem Any.execActivate_of_live (hr : s.blk.running = false) (hl : s.life ≠ .absent) :
    Any.execActivate s = .next { s.zeroRegs with life := .active, outcome := .ok } := if_pos (Any.State.admits_of_live hr hl)

omit [Arith S] in
theorem Any.execDeactivate_of_active (hr : s.blk.running = false) (hl : s.life = .active) :
    Any.execDeactivate s = .next { s with life := .inactive, outcome := .ok } := if_pos (Any.State.admits_of_active hr hl)

theorem Any.execDestroy_of_live (H : Hardware S) (hr : s.blk.running = false) (hl : s.life ≠ .absent) :
    Any.execDestroy H s = .next (s.destroyed H) := if_pos (Any.State.admits_of_live hr hl)

end

/-- Starting a block keeps LIFE. -/
@[simp] theorem Any.State.startBlock_life (s : Any.State S) (l : Latches S) (count : Nat) : (s.startBlock l count).life = s.life := by
  unfold Any.State.startBlock
  split <;> rfl

/-! ### CREATE (R185) -/

theorem leastSampleRate_rat : (leastSampleRate : ℚ) = 20 / (49 / 100) := by
  norm_num [leastSampleRate, lit, Config.CUT_MIN, Config.CUT_MAX_FRAC]

/-- An admitted CREATE on the host's machine. -/
theorem execCreate_of_admitted {s : State} {sr : Scalar} (hr : s.blk.running = false) (hl : s.life = .absent)
    (hsr : 20 / (49 / 100) ≤ sr) :
    exec (.create (.value sr)) s =
      .next
        (if s.alloc.fails Config.hardware s.unit then { s with alloc := s.alloc.consume, outcome := .createFailed }
        else { s.created Config.hardware sr with alloc := s.alloc.consume }) :=
  Any.execCreate_of_admitted (H := Config.hardware) hr hl rfl (leastSampleRate_rat ▸ hsr)

/-- CREATE from Absent with a value that is no admitted sample rate is refused. -/
theorem Any.execCreate_badSampleRate [DecidableLE S] {H : Hardware S} {s : Any.State S} {v : Sample S} (hr : s.blk.running = false)
    (hl : s.life = .absent) (hv : ∀ x : S, v = .value x → ¬leastSampleRate ≤ x) :
    Any.execCreate H v s = .refused .badSampleRate := by
  have hadmits : s.admits [.absent] = true := (s.admits_iff _).mpr ⟨hr, by simp [hl]⟩
  rw [Any.execCreate, if_pos hadmits]
  cases hx : v.scalar? H.num with
  | none => rfl
  | some x => exact if_neg (hv x (Sample.scalar?_eq_some.mp hx).1)

/-- Settles O43: an admitted CREATE by the answer of the allocator, which may be fixed in advance; the two refusals by LIFE and by the
operand. -/
theorem createInstance : Obligations.CreateInstance := by
  refine ⟨fun s sr hr hl hsr => ?_, fun s b rest sr hr hl hsr hb => ?_, fun H s sr hH hr hl hsr => ?_, fun s v hl => ?_,
    fun s v hr hl hv => ?_⟩
  · refine ⟨_, execCreate_of_admitted hr hl hsr, ?_⟩
    cases s.alloc.fails Config.hardware s.unit with
    | true => exact ⟨.inr rfl, nofun, fun _ => rfl⟩
    | false => exact ⟨.inl rfl, fun _ => ⟨rfl, fun port => by cases port <;> rfl, CombRegs.read_of_empty rfl⟩, nofun⟩
  · refine ⟨_, execCreate_of_admitted hr hl hsr, ?_⟩
    have hfails : s.alloc.fails Config.hardware s.unit = b := by rw [Allocator.fails, hb]
    rw [hfails]
    cases b <;> rfl
  · refine ⟨_, Any.execCreate_of_admitted hr hl (by rw [hH]; rfl) (leastSampleRate_eq ▸ hsr), ?_⟩
    cases s.alloc.fails H s.unit with
    | true => exact .inr ⟨rfl, hl⟩
    | false => exact .inl ⟨rfl, rfl, rfl, rfl⟩
  · rw [exec_eq]
    exact Any.exec_badLifecycle (by simpa [Instr.admittedIn] using hl)
  · exact Any.execCreate_badSampleRate hr hl fun x hx => not_le.mpr (leastSampleRate_rat ▸ hv x hx)

/-! ### The other commands -/

/-- Settles O44: the port has its new source, and a write of one port leaves the others. -/
theorem bindPort : Obligations.BindPort := by
  intro s port source hr hl
  have hget := s.ports.get_set_same port (some source)
  exact ⟨_, Any.execBind_of_live hr hl port source, (Ports.bound_iff _ _).mpr ⟨source, hget⟩, hget, fun other =>
    Ports.get_set_other s.ports (some source)⟩

/-- Settles O45: the next state of ACTIVATE, and the slots of an empty buffer. -/
theorem activateZeroesState : Obligations.ActivateZeroesState := by
  intro s hr hl
  exact ⟨_, Any.execActivate_of_live hr hl, rfl, rfl, CombRegs.read_of_empty rfl⟩

/-- Settles O46: the next states of DEACTIVATE and DESTROY; the latter's LIFE admits CREATE alone. -/
theorem deactivateAndDestroy : Obligations.DeactivateAndDestroy := by
  refine ⟨fun s => Any.execDeactivate_of_active, fun s hr hl => ?_⟩
  refine ⟨_, Any.execDestroy_of_live Config.hardware hr hl, rfl, rfl, rfl, rfl, ⟨rfl, rfl, rfl⟩, fun port source count => ?_⟩
  simp only [exec_eq]
  refine ⟨?_, ?_, ?_, ?_, ?_⟩ <;> exact Any.exec_badLifecycle (by simp [Instr.admittedIn])

/-- Settles O47: each row by the commands that its LIFE does not admit, which are refused, and the next states of the others. -/
theorem lifecycleTable : Obligations.LifecycleTable := by
  intro s v port source count hr
  have hrefused (i : Instr) (h : s.life ∉ Instr.admittedIn i) : exec i s = .refused .badLifecycle :=
    (exec_eq i s).trans (Any.exec_badLifecycle h)
  refine ⟨fun hl => ?_, fun hl => ?_, fun hl => ?_⟩
  · refine ⟨fun t ht => ?_, hrefused _ ?_, hrefused _ ?_, hrefused _ ?_, hrefused _ ?_, hrefused _ ?_⟩
    · obtain ⟨-, x, -, -, ⟨-, rfl⟩ | ⟨-, rfl⟩⟩ := Any.execCreate_next (H := Config.hardware) ht
      · exact .inr ⟨rfl, hl⟩
      · exact .inl ⟨rfl, rfl⟩
    all_goals simp [Instr.admittedIn, hl]
  · have hlive : s.life ≠ .absent := by simp [hl]
    refine ⟨hrefused _ ?_, ⟨_, Any.execBind_of_live hr hlive port source, hl⟩, ⟨_, Any.execActivate_of_live hr hlive, rfl⟩,
      hrefused _ ?_, hrefused _ ?_, ⟨_, Any.execDestroy_of_live Config.hardware hr hlive, rfl⟩⟩
    all_goals simp [Instr.admittedIn, hl]
  · have hlive : s.life ≠ .absent := by simp [hl]
    refine ⟨hrefused _ (by simp [Instr.admittedIn, hl]), ⟨_, Any.execBind_of_live hr hlive port source, hl⟩,
      ⟨_, Any.execActivate_of_live hr hlive, rfl⟩, fun t ht => ?_, ⟨_, Any.execDeactivate_of_active hr hl, rfl⟩,
      ⟨_, Any.execDestroy_of_live Config.hardware hr hlive, rfl⟩⟩
    obtain ⟨-, rfl⟩ | ⟨l, -, rfl⟩ := Any.execProcess_next (H := Config.hardware) ht
    · exact hl
    · exact (s.startBlock_life l count).trans hl

end Sys2Proof.Machine
end

