-- ==== Sys2Proof/Proofs/Admission.lean ====
section
/-! PROOF. The checks of PROCESS one by one (45_lifecycle_commands.md R188, 60_exceptions.md R213): what each finds when those before it
pass, and what an admitted PROCESS does (R189).
-/

namespace Sys2Proof.Machine

open Sys2Proof

variable {S : Type}

/-! ### The selectors (check 6) -/

/-- Check 6 reports the first selector outside its range, in the order mode, shape, vowel (30_encoding.md R78). -/
theorem Latches.firstReserved_eq (l : Latches S) :
    l.firstReserved =
      if ¬(0 ≤ l.mode ∧ l.mode ≤ 5) then some (.mode, l.mode)
      else if ¬(0 ≤ l.shape ∧ l.shape ≤ 5) then some (.shape, l.shape)
      else if ¬(0 ≤ l.vowel ∧ l.vowel ≤ 4) then some (.vowel, l.vowel)
      else none := by
  simp only [Latches.firstReserved, ← Option.not_isSome, Bool.not_eq_true', ← Bool.not_eq_true, (selector_isSome (S := S) _).1,
    (selector_isSome (S := S) _).2.1, (selector_isSome (S := S) _).2.2]

variable [Arith S] [DecidableLT S] [DecidableLE S] {N : Num S} {H : Hardware S} {s : Any.State S} {count : Nat} {l : Latches S}

/-! ### The checks in order -/

section
variable (hr : s.blk.running = false) (hl : s.life = .active)
include hr hl

/-- Check 3 ends with an unbound port that it finds, where check 2 has passed. -/
theorem Any.State.admission_unbound {port : Port} (hskip : s.ports.skipFlag = false) (h : s.ports.firstUnbound = some port) :
    s.admission N count = .error (.unboundPort port) := by
  simp [Any.State.admission, Any.State.admits_of_active hr hl, hskip, h]

variable (hb : ∀ port : Port, s.ports.bound port = true)
include hb

/-- Check 4 ends with streams that are too short or overlap. -/
theorem Any.State.admission_badStreams (hs : s.ports.streamsOk count = false) : s.admission N count = .error .badStreams := by
  simp [Any.State.admission, Any.State.admits_of_active hr hl, Ports.skipFlag, hb, (Ports.firstUnbound_eq_none _).mpr hb, hs]

variable (hs : s.ports.streamsOk count = true) (hlatch : s.latch N = some l) (hin : s.inputsFinite N count = true)
include hs hlatch hin

/-- Check 6 ends with the selector that it finds. -/
theorem Any.State.admission_reserved {selector : Selector} {value : Int} (h : l.firstReserved = some (selector, value)) :
    s.admission N count = .error (.reservedSelector selector value) := by
  simp [Any.State.admission, Any.State.admits_of_active hr hl, Ports.skipFlag, hb, (Ports.firstUnbound_eq_none _).mpr hb, hs, hlatch,
    hin, h]

/-- With legal selectors check 7 decides. -/
theorem Any.State.admission_of_legal (h : l.legal) :
    s.admission N count = if rateAdmitted l.rate s.sr then .ok l else .error .rateOutOfRange := by
  simp [Any.State.admission, Any.State.admits_of_active hr hl, Ports.skipFlag, hb, (Ports.firstUnbound_eq_none _).mpr hb, hs, hlatch,
    hin, l.firstReserved_eq_none.mpr h]

end

/-- A PROCESS that a check ends. -/
theorem Any.execProcess_of_error {c : Cause} (h : s.admission H.num count = .error c) : Any.execProcess H count s = Any.raise c s := by
  rw [Any.execProcess, h]

/-- A PROCESS that the checks admit. -/
theorem Any.execProcess_of_ok (h : s.admission H.num count = .ok l) : Any.execProcess H count s = .next (s.startBlock l count) := by
  rw [Any.execProcess, h]

/-! ### The obligations -/

/-- Settles O49: one rule for each check, check 6 by the first selector that it finds. -/
theorem processChecksInOrder : Obligations.ProcessChecksInOrder := by
  intro s count hr
  have hends {c : Cause} (h : s.admission Config.num count = .error c) : exec (.process count) s = Any.raise c s :=
    Any.execProcess_of_error (H := Config.hardware) h
  refine ⟨fun hl => ?_, fun hl hcutoff hrate hslew => ⟨?_, fun hb => ⟨fun hs => ?_, fun hs => ⟨?_, fun l hlatch hin => ?_⟩⟩⟩⟩
  · rw [exec_eq]
    exact Any.exec_badLifecycle (by simpa [Instr.admittedIn] using hl)
  · rintro ⟨port, hport⟩
    cases hfirst : s.ports.firstUnbound with
    | none => simp [(Ports.firstUnbound_eq_none _).mp hfirst port] at hport
    | some first =>
      exact ⟨first, s.ports.firstUnbound_unbound hfirst,
        hends (Any.State.admission_unbound hr hl (by simp [Ports.skipFlag, hcutoff, hrate, hslew]) hfirst)⟩
  · exact hends (Any.State.admission_badStreams hr hl hb hs)
  · exact Any.execProcess_nonFinite (H := Config.hardware) hr hl hb hs
  · have hreserved {selector : Selector} {value : Int} (h : l.firstReserved = some (selector, value)) :
        exec (.process count) s = .fault (.reservedSelector selector value) :=
      hends (Any.State.admission_reserved hr hl hb hs hlatch hin h)
    rw [l.firstReserved_eq] at hreserved
    refine ⟨fun hmode => hreserved ?_, fun hmode hshape => hreserved ?_, fun hmode hshape hvowel => hreserved ?_,
      fun hlegal hrange => ?_⟩
    · rw [if_pos hmode]
    · rw [if_neg (not_not.mpr hmode), if_pos hshape]
    · rw [if_neg (not_not.mpr hmode), if_neg (not_not.mpr hshape), if_pos hvowel]
    · refine hends (c := .rateOutOfRange) ?_
      rw [Any.State.admission_of_legal hr hl hb hs hlatch hin hlegal, if_neg (mt (rateAdmitted_iff _ _).mp hrange)]

/-- Settles O52: the last check admits the latches; a block of no sample is over at once, any other stands before sample 0, which check 5
has read. -/
theorem processStartsBlock : Obligations.ProcessStartsBlock := by
  intro s l count hidle hl hb hs hlatch hin hlegal hrate0 hrate
  have hadmitted : s.admission Config.num count = .ok l := by
    rw [Any.State.admission_of_legal (by rw [hidle]; rfl) hl hb hs hlatch hin hlegal,
      if_pos ((rateAdmitted_iff _ _).mpr ⟨hrate0, hrate⟩)]
  have hstarts : exec (.process count) s = .next (s.startBlock l count) := Any.execProcess_of_ok (H := Config.hardware) hadmitted
  refine ⟨?_, fun hpos => ⟨?_, ?_⟩⟩
  · rintro rfl
    rw [hstarts, Any.State.startBlock_zero, Any.State.finishBlock, ← hidle]
  · obtain ⟨x, hx⟩ := Any.State.inputsFinite_read hin hpos
    obtain ⟨input, hinput, hread, -⟩ := Any.State.readIn_ok hx
    exact ⟨input, x, hinput, hread⟩
  · rw [hstarts, Any.State.startBlock_of_pos s l hpos]

end Sys2Proof.Machine
end

