-- ==== Sys2Proof/Proofs/Exceptions.lean ====
section
/-! PROOF. Checks 2 and 4 of PROCESS (45_lifecycle_commands.md R188): what the skip leaves (60_exceptions.md R202), and what the rule of
the streams means cell by cell (60_exceptions.md R207, 20_memory.md R65).
-/

namespace Sys2Proof.Machine

open Sys2Proof

/-! ### The skip (check 2) -/

/-- Check 2 ends with the skip, whatever the later checks would find. -/
theorem Any.State.admission_skipped {S : Type} [Arith S] [DecidableLT S] [DecidableLE S] {N : Num S} {s : Any.State S} {count : Nat}
    (hr : s.blk.running = false) (hl : s.life = .active) (hskip : s.ports.skipFlag = true) : s.admission N count = .error .skipped := by
  simp [Any.State.admission, Any.State.admits_of_active hr hl, hskip]

/-- Settles O48: check 2 ends the command, and the skip records its outcome alone. -/
theorem skippedBlockChangesNothing : Obligations.SkippedBlockChangesNothing := by
  intro s count hr hl hunbound
  have hskip : s.ports.skipFlag = true := by
    simp only [Ports.skipFlag_iff, Ports.not_bound_iff]
    exact hunbound
  exact Any.execProcess_of_error (H := Config.hardware) (Any.State.admission_skipped hr hl hskip)

/-! ### The streams (check 4) -/

/-- The overlap rule: the same region, or no cell in both (20_memory.md R65). -/
theorem compatibleSources_iff (a b : Source) :
    compatibleSources a b = true ↔
      a = b ∨ ∀ cell : Nat, ¬((a.base ≤ cell ∧ cell < a.base + a.len) ∧ (b.base ≤ cell ∧ cell < b.base + b.len)) := by
  rw [compatibleSources, Bool.or_eq_true, disjointSources_iff, beq_iff_eq, or_comm]

/-- Check 4 on bound streams: long enough, and each of the three pairs compatible. -/
theorem Ports.streamsOk_iff {p : Ports} {i l r : Source} {count : Nat} (hi : p.ain = some i) (hl : p.aoutL = some l)
    (hr : p.aoutR = some r) :
    p.streamsOk count = true ↔
      (count ≤ i.len ∧ count ≤ l.len ∧ count ≤ r.len) ∧
      compatibleSources i l = true ∧ compatibleSources i r = true ∧ compatibleSources l r = true := by
  simp only [Ports.streamsOk, hi, hl, hr, Bool.and_eq_true, decide_eq_true_eq, and_assoc]

/-- Settles O51: check 4 as lengths and compatible pairs, each pair cell by cell. -/
theorem streamRule : Obligations.StreamRule := by
  intro p i l r count hi hl hr
  have hpairs : (∀ a b : Source, (a, b) ∈ [(i, l), (i, r), (l, r)] → compatibleSources a b = true) ↔
      compatibleSources i l = true ∧ compatibleSources i r = true ∧ compatibleSources l r = true := by
    rw [← Prod.forall (p := fun ab => ab ∈ [(i, l), (i, r), (l, r)] → compatibleSources ab.1 ab.2 = true)]
    simp only [List.forall_mem_cons, List.not_mem_nil, IsEmpty.forall_iff, implies_true, and_true]
  simp only [Ports.streamsOk_iff hi hl hr, ← compatibleSources_iff, hpairs]

end Sys2Proof.Machine
end
